-- ==== Sys2Proof/Word.lean ====
section
/-! DEFINITION. Word: the bit-vector types of the paging unit (00_scope.md R9; 30_encoding.md R55). -/

namespace Sys2Proof

/-- One byte of physical memory. -/
abbrev Byte := BitVec 8

/-- A 32-bit value: a linear address, a control register, a general register (R33, R13, R32). -/
abbrev Word := BitVec 32

/-- A 64-bit value: a paging-structure entry, a PDPTE register, IA32_EFER (R55, R13); also a physical
address, whose bits from `M` up are 0 (R38). -/
abbrev Quad := BitVec 64

end Sys2Proof
end

