-- ==== Sys2Proof/Config.lean ====
section
/-! DEFINITION. Config: the parameters of the model (00_scope.md R7, R8; 20_memory.md R46) and the free
value behind every draw. -/

namespace Sys2Proof

/-- A range of physical addresses that holds RAM (20_memory.md R46). -/
structure RamRegion where
  base : Nat
  size : Nat
  deriving DecidableEq, Repr

/-- The parameters of R7, fixed for a run. `M` is held as `36 + mExtra`, so that a value outside
36 to 52 cannot be written (R8; DESIGN CHOICE, log 30). `PAE_SUPPORTED` "must be true for this spec"
and is no field. `cr4Reserved` is the set of CR4 bits the processor reserves (R84 (e); log 18). -/
structure Config where
  mExtra : Fin 17
  patSupported : Bool
  nxSupported : Bool
  smepSupported : Bool
  smapSupported : Bool
  pgeSupported : Bool
  lmSupported : Bool
  pdpteRsvdCheckIfNotPresent : Bool
  cr4Reserved : Word
  ramRegions : List RamRegion
  deriving DecidableEq, Repr

/-- `M`, MAXPHYADDR (R7). -/
def Config.maxPhyAddr (c : Config) : Nat := 36 + c.mExtra.val

/-- `PAE_SUPPORTED`: "must be true for this spec" (R7). -/
def Config.paeSupported (_ : Config) : Bool := true

/-- The default column of R7's table; RamRegions is the whole `2^36`-byte space and no CR4 bit is
reserved (DESIGN CHOICE, log 3 and 18). -/
def Config.initial : Config where
  mExtra := 0
  patSupported := true
  nxSupported := true
  smepSupported := true
  smapSupported := true
  pgeSupported := true
  lmSupported := false
  pdpteRsvdCheckIfNotPresent := false
  cr4Reserved := 0
  ramRegions := [⟨0, 2 ^ 36⟩]

/-- The value of the `n`-th `draw` of a run (00_scope.md R10): no rule fixes it and nothing here does
either (log 8). -/
opaque Config.freeBit : Nat → Bool

end Sys2Proof
end

