-- ==== Sys2Proof/Syntax.lean ====
section
/-! DEFINITION. Syntax: one constructor per row of spec/opcode_table.json. -/

namespace Sys2Proof

/-- The eight 32-bit general registers, numbered 0 to 7 in this order (10_state.md R32; 30_encoding.md R75). -/
inductive Reg where
  | eax | ecx | edx | ebx | esp | ebp | esi | edi
  deriving DecidableEq, Repr

/-- The access kinds of 41_translation.md R89. -/
inductive AccessKind where
  | read | write | fetch
  deriving DecidableEq, Repr

/-- The access modes of 10_state.md R28. -/
inductive AccessMode where
  | user | supervisor
  deriving DecidableEq, Repr

/-- The operand of a move to a control register: the general register of the machine-code spelling
(30_encoding.md R75), or the plain 32-bit value of the operation level (00_scope.md R5; 10_state.md R32;
log 29). -/
inductive Source where
  | reg (r : Reg)
  | value (v : Word)
  deriving DecidableEq, Repr

/-- The rows of the table. A structure entry carries its 64 bits whole: bits above `M` are address bits
or reserved bits depending on the configuration, and ignored bits belong to software (R66). -/
inductive Instr where
  -- structure entries (30_encoding.md R74)
  | pdpteNotPresent (e : Quad)
  | pdpte (e : Quad)
  | pdeNotPresent (e : Quad)
  | pde2M (e : Quad)
  | pdePT (e : Quad)
  | pteNotPresent (e : Quad)
  | pte4K (e : Quad)
  -- formats (R56, R57, R59)
  | linearAddress4K (la : Word)
  | linearAddress2M (la : Word)
  | cr3Pae (v : Word)
  -- control-register moves (R75, R76)
  | movToCR0 (src : Source)
  | movToCR3 (src : Source)
  | movToCR4 (src : Source)
  | movFromCR0 (dst : Reg)
  | movFromCR2 (dst : Reg)
  | movFromCR3 (dst : Reg)
  | movFromCR4 (dst : Reg)
  -- operations with no bit pattern
  | loadPDPTEs
  | taskSwitchCR3 (v : Word)
  | translate (la : Word) (kind : AccessKind) (mode : AccessMode)
  | linRead (la : Word) (n : Nat) (mode : AccessMode)
  | linWrite (la : Word) (n v : Nat) (mode : AccessMode)
  | linFetch (la : Word) (n : Nat) (mode : AccessMode)
  | setEFER (v : Quad)
  | setAC (b : Bool)
  deriving DecidableEq, Repr

end Sys2Proof
end

