-- ==== Sys2Proof/Decode.lean ====
section
/-! DEFINITION. Decode: byte order and bit-field helpers, the decoder of bytes by the place they are read
at (30_encoding.md R74, R75, R76), and the encoder written from the same tables. -/

namespace Sys2Proof

/-! ## Helpers -/

/-- `v[hi:lo]` moved down to bit 0 (00_scope.md R9). -/
def slice {w : Nat} (hi lo : Nat) (v : BitVec w) : BitVec w :=
  (v >>> lo) &&& BitVec.ofNat w (2 ^ (hi + 1 - lo) - 1)

/-- The number a list of bytes spells, lowest address in the low bits (20_memory.md R41). -/
def leNat : List Byte → Nat
  | [] => 0
  | b :: bs => b.toNat + 256 * leNat bs

/-- The low `8n` bits of `v` as `n` bytes, lowest address first (R41). -/
def leBytes : Nat → Nat → List Byte
  | 0, _ => []
  | n + 1, v => BitVec.ofNat 8 v :: leBytes n (v / 256)

/-- The number of a general register (R75). -/
def Reg.toBits : Reg → BitVec 3
  | .eax => 0 | .ecx => 1 | .edx => 2 | .ebx => 3
  | .esp => 4 | .ebp => 5 | .esi => 6 | .edi => 7

/-- The general register of a number (R75). -/
def Reg.ofBits (n : BitVec 3) : Reg :=
  match n.toNat with
  | 0 => .eax | 1 => .ecx | 2 => .edx | 3 => .ebx
  | 4 => .esp | 5 => .ebp | 6 => .esi | _ => .edi

/-! ## The decoder -/

/-- Where the bits are read: what they mean is not known from the bits alone (R61, R74). -/
inductive Place where
  | code
  | pdpteRegister
  | pageDirectory
  | pageTable
  | linearAddress4K
  | linearAddress2M
  | cr3
  deriving DecidableEq, Repr

/-- How many bytes the format read at a place has (R55, R75). -/
def Place.bytes : Place → Nat
  | .code => 3
  | .pdpteRegister => 8
  | .pageDirectory => 8
  | .pageTable => 8
  | .linearAddress4K => 4
  | .linearAddress2M => 4
  | .cr3 => 4

/-- Why bytes decode to no row of the table. -/
inductive DecodeError where
  /-- fewer bytes than the format has -/
  | truncated
  /-- the first two bytes are neither `0F 22` nor `0F 20` (R75, R76) -/
  | notControlRegisterMove
  /-- modrm[5:3] names no control register of R75: 1, 5, 6 or 7 -/
  | noSuchControlRegister
  /-- bytes are left over after one instruction -/
  | trailingBytes
  deriving DecidableEq, Repr

/-- What the decoder answers: an instruction and the bytes after it, or a rejection by name. -/
inductive Decoded where
  | ok (i : Instr) (rest : List Byte)
  /-- `MOV CR2, r32`: R75 spells it, and the table has no row for it, so it is no `Instr` (log 27) -/
  | movToCR2 (src : Reg) (rest : List Byte)
  | rejected (e : DecodeError)
  deriving DecidableEq, Repr

/-- A PDPTE register at a translation (R74 rows 1 and 2). -/
def decodePdpte (e : Quad) : Instr :=
  if e.getLsbD 0 then .pdpte e else .pdpteNotPresent e

/-- An entry of a page directory (R74 rows 3 to 5; R61). -/
def decodePde (e : Quad) : Instr :=
  if e.getLsbD 0 then (if e.getLsbD 7 then .pde2M e else .pdePT e) else .pdeNotPresent e

/-- An entry of a page table (R74 rows 6 and 7). -/
def decodePte (e : Quad) : Instr :=
  if e.getLsbD 0 then .pte4K e else .pteNotPresent e

/-- `0F 22 modrm` (R75): modrm[5:3] is the control register, modrm[2:0] the source, modrm[7:6] is ignored. -/
def decodeMovTo (modrm : Byte) (rest : List Byte) : Decoded :=
  let r := Reg.ofBits (modrm.extractLsb' 0 3)
  match (modrm.extractLsb' 3 3).toNat with
  | 0 => .ok (.movToCR0 (.reg r)) rest
  | 2 => .movToCR2 r rest
  | 3 => .ok (.movToCR3 (.reg r)) rest
  | 4 => .ok (.movToCR4 (.reg r)) rest
  | _ => .rejected .noSuchControlRegister

/-- `0F 20 modrm` (R76): the same layout, modrm[2:0] the destination. -/
def decodeMovFrom (modrm : Byte) (rest : List Byte) : Decoded :=
  let r := Reg.ofBits (modrm.extractLsb' 0 3)
  match (modrm.extractLsb' 3 3).toNat with
  | 0 => .ok (.movFromCR0 r) rest
  | 2 => .ok (.movFromCR2 r) rest
  | 3 => .ok (.movFromCR3 r) rest
  | 4 => .ok (.movFromCR4 r) rest
  | _ => .rejected .noSuchControlRegister

/-- Machine code, in the order the bytes are fetched (R75). -/
def decodeCode : List Byte → Decoded
  | b0 :: b1 :: modrm :: rest =>
    if b0 = 0x0F ∧ b1 = 0x22 then decodeMovTo modrm rest
    else if b0 = 0x0F ∧ b1 = 0x20 then decodeMovFrom modrm rest
    else .rejected .notControlRegisterMove
  | _ => .rejected .truncated

/-- One 8-byte entry (R41). -/
def decodeQuad (f : Quad → Instr) (bs : List Byte) : Decoded :=
  if bs.length < 8 then .rejected .truncated
  else .ok (f (BitVec.ofNat 64 (leNat (bs.take 8)))) (bs.drop 8)

/-- One 4-byte value. -/
def decodeWord (f : Word → Instr) (bs : List Byte) : Decoded :=
  if bs.length < 4 then .rejected .truncated
  else .ok (f (BitVec.ofNat 32 (leNat (bs.take 4)))) (bs.drop 4)

/-- The decoder: total on any bytes at any place (R68, R74). -/
def decode : Place → List Byte → Decoded
  | .code, bs => decodeCode bs
  | .pdpteRegister, bs => decodeQuad decodePdpte bs
  | .pageDirectory, bs => decodeQuad decodePde bs
  | .pageTable, bs => decodeQuad decodePte bs
  | .linearAddress4K, bs => decodeWord .linearAddress4K bs
  | .linearAddress2M, bs => decodeWord .linearAddress2M bs
  | .cr3, bs => decodeWord .cr3Pae bs

/-- Exactly one instruction. -/
def decodeOne (p : Place) (bs : List Byte) : Decoded :=
  match decode p bs with
  | .ok i [] => .ok i []
  | .movToCR2 r [] => .movToCR2 r []
  | .ok _ (_ :: _) => .rejected .trailingBytes
  | .movToCR2 _ (_ :: _) => .rejected .trailingBytes
  | .rejected e => .rejected e

/-! ## The encoder -/

/-- The modrm byte, mod = 0b11 as is conventional (R75; log 28). -/
def modrm (crn : BitVec 3) (r : Reg) : Byte := (3#2 ++ crn) ++ r.toBits

/-- Where an instruction's bits are read: none for the operations "the source gives no bit pattern" and
for a plain-value operand. -/
def Instr.place : Instr → Option Place
  | .pdpteNotPresent _ => some .pdpteRegister
  | .pdpte _ => some .pdpteRegister
  | .pdeNotPresent _ => some .pageDirectory
  | .pde2M _ => some .pageDirectory
  | .pdePT _ => some .pageDirectory
  | .pteNotPresent _ => some .pageTable
  | .pte4K _ => some .pageTable
  | .linearAddress4K _ => some .linearAddress4K
  | .linearAddress2M _ => some .linearAddress2M
  | .cr3Pae _ => some .cr3
  | .movToCR0 (.reg _) => some .code
  | .movToCR3 (.reg _) => some .code
  | .movToCR4 (.reg _) => some .code
  | .movToCR0 (.value _) => none
  | .movToCR3 (.value _) => none
  | .movToCR4 (.value _) => none
  | .movFromCR0 _ => some .code
  | .movFromCR2 _ => some .code
  | .movFromCR3 _ => some .code
  | .movFromCR4 _ => some .code
  | .loadPDPTEs => none
  | .taskSwitchCR3 _ => none
  | .translate _ _ _ => none
  | .linRead _ _ _ => none
  | .linWrite _ _ _ _ => none
  | .linFetch _ _ _ => none
  | .setEFER _ => none
  | .setAC _ => none

/-- The bytes of an instruction, lowest address (or first fetched) first. -/
def encode : Instr → Option (List Byte)
  | .pdpteNotPresent e => some (leBytes 8 e.toNat)
  | .pdpte e => some (leBytes 8 e.toNat)
  | .pdeNotPresent e => some (leBytes 8 e.toNat)
  | .pde2M e => some (leBytes 8 e.toNat)
  | .pdePT e => some (leBytes 8 e.toNat)
  | .pteNotPresent e => some (leBytes 8 e.toNat)
  | .pte4K e => some (leBytes 8 e.toNat)
  | .linearAddress4K la => some (leBytes 4 la.toNat)
  | .linearAddress2M la => some (leBytes 4 la.toNat)
  | .cr3Pae v => some (leBytes 4 v.toNat)
  | .movToCR0 (.reg r) => some [0x0F, 0x22, modrm 0 r]
  | .movToCR3 (.reg r) => some [0x0F, 0x22, modrm 3 r]
  | .movToCR4 (.reg r) => some [0x0F, 0x22, modrm 4 r]
  | .movToCR0 (.value _) => none
  | .movToCR3 (.value _) => none
  | .movToCR4 (.value _) => none
  | .movFromCR0 r => some [0x0F, 0x20, modrm 0 r]
  | .movFromCR2 r => some [0x0F, 0x20, modrm 2 r]
  | .movFromCR3 r => some [0x0F, 0x20, modrm 3 r]
  | .movFromCR4 r => some [0x0F, 0x20, modrm 4 r]
  | .loadPDPTEs => none
  | .taskSwitchCR3 _ => none
  | .translate _ _ _ => none
  | .linRead _ _ _ => none
  | .linWrite _ _ _ _ => none
  | .linFetch _ _ _ => none
  | .setEFER _ => none
  | .setAC _ => none

/-- The bytes of `MOV CR2, r32` (R75 with n = 2). -/
def encodeMovToCR2 (src : Reg) : List Byte := [0x0F, 0x22, modrm 2 src]

/-! ## The table's own numbering -/

/-- The place a row of `nbits` bits is read at when only its bits are given: 24 bits are machine code
(R75: "as a 24-bit pattern in the order the bytes are fetched"), 32 bits a linear address, up to 64 bits
an entry of a page directory (DESIGN CHOICE, log 12: the same bits mean other rows at other places, R74). -/
def tablePlace (nbits : Nat) : Option Place :=
  if nbits = 24 then some .code
  else if nbits = 32 then some .linearAddress4K
  else if nbits ≤ 64 then some .pageDirectory
  else none

/-- The bytes of a table word, as the hardware stores them: the table numbers machine code with the first
fetched byte in the most significant position, and everything else is little-endian (R41). -/
def tableBytes (nbits w : Nat) : List Byte :=
  if nbits = 24 then (leBytes 3 w).reverse
  else if nbits = 32 then leBytes 4 w
  else leBytes 8 w

/-- The instruction the decoder reads from a word numbered as spec/opcode_table.json numbers it. -/
def decodeTableWord (nbits w : Nat) : Option Instr :=
  match tablePlace nbits with
  | none => none
  | some p =>
    match decodeOne p (tableBytes nbits w) with
    | .ok i _ => some i
    | .movToCR2 _ _ => none
    | .rejected _ => none

end Sys2Proof
end

