-- ==== Sys2Proof/Machine/State.lean ====
section
/-! DEFINITION. State: everything the spec gives the machine (10_state.md R13), as plain data, and the
reset state (70_reset_and_hazards.md R126, R127). -/

namespace Sys2Proof.Machine

/-- The paging modes of 20_memory.md R35; `undescribed` is the combination the table of R35 marks "not
listed by the source". -/
inductive PagingMode where
  | none | paging32 | pae | level4 | level5 | undescribed
  deriving DecidableEq, Repr

/-- Why the machine stops with a fault. -/
inductive Fault where
  /-- Raised by a translation (and by the walk in progress) that selects a PDPTE register holding no
  value: "represent the unloaded state explicitly (an option type) and fault if it is ever read"
  (70_reset_and_hazards.md R127; 93_implementation_defined.md U22). Safe: no run from reset reaches it. -/
  | unloadedPdpte
  deriving DecidableEq, Repr

/-- Why the model gives no meaning; every one but the first and the last two is a `refuse(...)` of the spec. -/
inductive Refusal where
  /-- An instruction without a meaning yet; only `exec` answers it. Safe. -/
  | notModelled (mnemonic : String)
  /-- `refuse(mode)`: an access in a paging mode other than none and PAE (R36). Safe. -/
  | pagingMode (m : PagingMode)
  /-- `refuse(cet)`: an access in PAE paging with CR4.CET = 1 (R24, R36). Safe. -/
  | shadowStacks
  /-- `refuse(no_memory)`: a physical address outside RamRegions, or not below `2^M` (R46). Safe. -/
  | noMemory (pa : Nat)
  /-- `refuse(task_switch_fault)`: a general-protection exception inside a task switch (R85). Safe. -/
  | taskSwitchFault
  /-- `refuse(lme_change_while_paging)`: SetEFER changing LME while CR0.PG = 1 (R88). Safe. -/
  | lmeChangeWhilePaging
  /-- Bytes handed over as machine code that are no control-register move (R75, R76). Raised by `step` only. Safe. -/
  | undecodable (e : DecodeError)
  /-- An operation handed over with operands the spec does not admit. Raised by `step` only. Safe. -/
  | illFormed
  deriving DecidableEq, Repr

/-- The eight general registers (R32). -/
structure Gprs where
  eax : Word
  ecx : Word
  edx : Word
  ebx : Word
  esp : Word
  ebp : Word
  esi : Word
  edi : Word
  deriving DecidableEq, Repr

/-- The four PDPTE registers (R27). `none` is the unloaded state R127 asks to be represented explicitly. -/
structure Pdptes where
  p0 : Option Quad
  p1 : Option Quad
  p2 : Option Quad
  p3 : Option Quad
  deriving DecidableEq, Repr

/-- Physical memory: (address, byte) pairs, addresses strictly rising, none equal to `unlisted`. -/
abbrev Memory := List Host.Cell

/-- What an unlisted address reads as (DESIGN CHOICE, log 4). -/
def Memory.unlisted : Byte := 0

/-- The canonical form from address `lo` up. -/
def Memory.wfFrom : Nat → Memory → Bool
  | _, [] => true
  | lo, (a, b) :: m => decide (lo ≤ a) && decide (b ≠ Memory.unlisted) && Memory.wfFrom (a + 1) m

/-- The canonical form. -/
def Memory.wf (m : Memory) : Bool := Memory.wfFrom 0 m

/-- The page sizes of PAE paging (R37). -/
inductive PageSize where
  | page4K | page2M
  deriving DecidableEq, Repr

/-- What a translation returns besides the physical address: the size and four flags of the final entry (R94, R78). -/
structure PageAttrs where
  size : PageSize
  pat : Bool
  pcd : Bool
  pwt : Bool
  g : Bool
  deriving DecidableEq, Repr

/-- The result of `Translate` (R94); `page` is none where paging is off ("size = none"). -/
structure Translation where
  pa : Quad
  page : Option PageAttrs
  deriving DecidableEq, Repr

/-- What the latest operation handed to the surrounding model (00_scope.md R11; log 13). -/
inductive Answer where
  /-- done, with no value -/
  | done
  /-- done, with a physical address (R94) -/
  | translation (t : Translation)
  /-- done, with the `8n`-bit value of a read or fetch (R106, R108) -/
  | value (n v : Nat)
  /-- an exception: its vector and error code (R111 to R113, R117) -/
  | exception (vector : Byte) (errorCode : Word)
  /-- the fields of a linear address, 4-KByte split (R56) -/
  | linear4K (i : BitVec 2) (d t : BitVec 9) (offset : BitVec 12)
  /-- the fields of a linear address, 2-MByte split (R57) -/
  | linear2M (i : BitVec 2) (d : BitVec 9) (offset : BitVec 21)
  /-- the table base a CR3 value names (R59) -/
  | pdptBase (base : Quad)
  deriving DecidableEq, Repr

/-- How far a walk has come: what it reads next (R90, R91, R93). -/
inductive Stage where
  /-- the PDPTE register -/
  | pdptr
  /-- the page-directory entry at `addr` -/
  | directory (addr : Quad)
  /-- the page-table entry at `addr`, under the page-directory entry `pde` read at `pdeAddr` -/
  | table (pdeAddr pde addr : Quad)
  deriving DecidableEq, Repr

/-- A translation in progress. -/
structure Walk where
  la : Word
  kind : AccessKind
  mode : AccessMode
  stage : Stage
  deriving DecidableEq, Repr

/-- What happens next, as plain data (log 1, 6, 10, 15, 16). -/
inductive Event where
  /-- the bytes of one instruction, as the surrounding model fetched them (R75) -/
  | code (bytes : List Byte)
  /-- the surrounding model's instruction pointer: fetch three bytes here and execute them (R31, R108) -/
  | runAt (la : Word)
  /-- an operation of the operation level (R5) -/
  | operation (i : Instr)
  /-- a translation to be made entry by entry (R90 to R93) -/
  | beginWalk (la : Word) (kind : AccessKind) (mode : AccessMode)
  /-- a speculative walk of `la` sets the A flag of its page-directory entry, or of its page-table entry (R132) -/
  | speculate (la : Word) (table : Bool)
  /-- another agent writes physical memory (R125) -/
  | agentWrite (pa : Nat) (bytes : List Byte)
  /-- the surrounding model writes a general register (R32) -/
  | setGpr (r : Reg) (v : Word)
  /-- the surrounding model changes the privilege level (R121) -/
  | setCpl (level : BitVec 2)
  deriving DecidableEq, Repr

/-- The machine (R13); `cfg`, `events`, `walk`, `draws` and `answer` are the model's own fields
(log 2, 1, 10, 8, 13). -/
structure State where
  cfg : Config
  gpr : Gprs
  cr0 : Word
  cr2 : Word
  cr3 : Word
  cr4 : Word
  efer : Quad
  eflags : Word
  cpl : BitVec 2
  pdpte : Pdptes
  mem : Memory
  events : List Event
  walk : Option Walk
  draws : Nat
  answer : Answer
  deriving DecidableEq, Repr

/-- The PDPTE registers before the first load (R127). -/
def Pdptes.unloaded : Pdptes := ⟨none, none, none, none⟩

/-- The general registers at reset (DESIGN CHOICE, log 5). -/
def Gprs.zero : Gprs := ⟨0, 0, 0, 0, 0, 0, 0, 0⟩

/-- The machine right after reset (R126, R127; log 3 to 8, 13, 19). -/
def State.reset : State where
  cfg := Config.initial
  gpr := Gprs.zero
  cr0 := 0x60000010
  cr2 := 0
  cr3 := 0
  cr4 := 0
  efer := 0
  eflags := 0x00000002
  cpl := 0
  pdpte := Pdptes.unloaded
  mem := []
  events := []
  walk := none
  draws := 0
  answer := .done

end Sys2Proof.Machine
end

