-- ==== Sys2Proof/Machine/Flags.lean ====
section
/-! DEFINITION. Flags: the control flags (10_state.md), the paging mode (20_memory.md R35), the flags and
reserved bits of entries (30_encoding.md R60 to R65), the access rights (41_translation.md R103) and the
page-fault error code (60_exceptions.md R112). -/

namespace Sys2Proof.Machine

/-! ## Control flags: bit numbers of R14, R20, R25, R26 -/

def cr0PE (v : Word) : Bool := v.getLsbD 0
def cr0WP (v : Word) : Bool := v.getLsbD 16
def cr0NW (v : Word) : Bool := v.getLsbD 29
def cr0CD (v : Word) : Bool := v.getLsbD 30
def cr0PG (v : Word) : Bool := v.getLsbD 31

def cr4PSE (v : Word) : Bool := v.getLsbD 4
def cr4PAE (v : Word) : Bool := v.getLsbD 5
def cr4PGE (v : Word) : Bool := v.getLsbD 7
def cr4LA57 (v : Word) : Bool := v.getLsbD 12
def cr4PCIDE (v : Word) : Bool := v.getLsbD 17
def cr4SMEP (v : Word) : Bool := v.getLsbD 20
def cr4SMAP (v : Word) : Bool := v.getLsbD 21
def cr4PKE (v : Word) : Bool := v.getLsbD 22
def cr4CET (v : Word) : Bool := v.getLsbD 23
def cr4PKS (v : Word) : Bool := v.getLsbD 24

def eferLME (v : Quad) : Bool := v.getLsbD 8
def eferNXE (v : Quad) : Bool := v.getLsbD 11

def eflagsAC (v : Word) : Bool := v.getLsbD 18

/-! ## Paging mode -/

/-- The table of R35. -/
def pagingModeOf (cr0 cr4 : Word) (efer : Quad) : PagingMode :=
  if !cr0PG cr0 then .none
  else if !cr4PAE cr4 then (if eferLME efer then .undescribed else .paging32)
  else if !eferLME efer then .pae
  else if !cr4LA57 cr4 then .level4
  else .level5

def State.pagingMode (s : State) : PagingMode := pagingModeOf s.cr0 s.cr4 s.efer

/-- `PAEInUse()` (R35). -/
def State.paeInUse (s : State) : Bool := decide (s.pagingMode = .pae)

/-! ## Legality and reloading of control-register values -/

/-- A CR0 value that turns paging on without protection (R17, R83 (e)). -/
def cr0Illegal (v : Word) : Bool := cr0PG v && !cr0PE v

/-- `Cr4Illegal(v)` (R84 (e)): a flag whose feature the processor lacks, or a reserved bit. -/
def cr4Illegal (c : Config) (v : Word) : Bool :=
  (cr4SMEP v && !c.smepSupported) || (cr4SMAP v && !c.smapSupported) ||
  (cr4PGE v && !c.pgeSupported) || (cr4PAE v && !c.paeSupported) ||
  decide (v &&& c.cr4Reserved ≠ 0)

/-- A change of one of the flags of CR0 that reload the PDPTE registers (R83). -/
def cr0Reloads (old new : Word) : Bool :=
  (cr0CD old != cr0CD new) || (cr0NW old != cr0NW new) || (cr0PG old != cr0PG new)

/-- A change of one of the flags of CR4 that reload the PDPTE registers (R84). -/
def cr4Reloads (old new : Word) : Bool :=
  (cr4PAE old != cr4PAE new) || (cr4PGE old != cr4PGE new) ||
  (cr4PSE old != cr4PSE new) || (cr4SMEP old != cr4SMEP new)

/-- What IA32_EFER holds after a write of `v`: a flag the processor lacks stays 0, and a processor with
neither feature has no such register (R7, R25; DEDUCED, log 17). -/
def eferAfterWrite (c : Config) (old v : Quad) : Quad :=
  if !c.nxSupported && !c.lmSupported then old
  else
    (v &&& (if c.nxSupported then -1 else ~~~(0x800 : Quad))) &&&
      (if c.lmSupported then -1 else ~~~(0x100 : Quad))

/-! ## Flags of an entry (R60, R62 to R64) -/

def entryP (e : Quad) : Bool := e.getLsbD 0
def entryRW (e : Quad) : Bool := e.getLsbD 1
def entryUS (e : Quad) : Bool := e.getLsbD 2
def entryPWT (e : Quad) : Bool := e.getLsbD 3
def entryPCD (e : Quad) : Bool := e.getLsbD 4
def entryA (e : Quad) : Bool := e.getLsbD 5
def entryD (e : Quad) : Bool := e.getLsbD 6
def entryPS (e : Quad) : Bool := e.getLsbD 7
def entryG (e : Quad) : Bool := e.getLsbD 8
def entryXD (e : Quad) : Bool := e.getLsbD 63
/-- PAT of a PTE is bit 7, PAT of a PDE that maps a 2-MByte page is bit 12 (R78). -/
def ptePAT (e : Quad) : Bool := e.getLsbD 7
def pde2mPAT (e : Quad) : Bool := e.getLsbD 12

/-! ## Reserved bits -/

/-- `PdpteReserved(e)` (R60, R81). -/
def pdpteReserved (c : Config) (e : Quad) : Bool :=
  decide (slice 2 1 e ≠ 0) || decide (slice 8 5 e ≠ 0) || decide (slice 63 c.maxPhyAddr e ≠ 0)

/-- `PdpteBad(e)` (R81). -/
def pdpteBad (c : Config) (e : Quad) : Bool :=
  pdpteReserved c e && (entryP e || c.pdpteRsvdCheckIfNotPresent)

/-- `e[62:M] != 0`. -/
def highReserved (c : Config) (e : Quad) : Bool := decide (slice 62 c.maxPhyAddr e ≠ 0)

/-- `Rsvd_PDE2M(e)` (R65). -/
def rsvdPde2M (c : Config) (nxe : Bool) (e : Quad) : Bool :=
  highReserved c e || decide (slice 20 13 e ≠ 0) || (!nxe && entryXD e) ||
  (!c.patSupported && pde2mPAT e)

/-- `Rsvd_PDEPT(e)` (R65). -/
def rsvdPdePT (c : Config) (nxe : Bool) (e : Quad) : Bool :=
  highReserved c e || (!nxe && entryXD e)

/-- `Rsvd_PTE(e)` (R65). -/
def rsvdPte (c : Config) (nxe : Bool) (e : Quad) : Bool :=
  highReserved c e || (!nxe && entryXD e) || (!c.patSupported && ptePAT e)

def State.nxe (s : State) : Bool := eferNXE s.efer

/-! ## Access rights -/

/-- `Rights(kind, mode, us, rw, xd)` (R103). -/
def rights (s : State) (kind : AccessKind) (mode : AccessMode) (us rw xd : Bool) : Bool :=
  match mode with
  | .user =>
    if !us then false
    else match kind with
      | .write => rw
      | .fetch => !xd
      | .read => true
  | .supervisor =>
    match kind with
    | .fetch => !xd && !(us && cr4SMEP s.cr4)
    | _ =>
      let smapOk := !(us && cr4SMAP s.cr4 && !eflagsAC s.eflags)
      let wpOk := decide (kind = .read) || rw || !cr0WP s.cr0
      smapOk && wpOk

/-! ## Error code -/

/-- Bit `n` of a word, set when `b`. -/
def flagBit (b : Bool) (n : Nat) : Word := if b then (1 : Word) <<< n else 0

/-- `PageFaultErrorCode(P, kind, mode, RSVD)` (R112). -/
def pageFaultErrorCode (s : State) (p : Bool) (kind : AccessKind) (mode : AccessMode)
    (rsvd : Bool) : Word :=
  flagBit p 0 ||| flagBit (decide (kind = .write)) 1 ||| flagBit (decide (mode = .user)) 2 |||
  flagBit rsvd 3 ||| flagBit (decide (kind = .fetch) && (cr4SMEP s.cr4 || s.nxe)) 4

/-- A final entry whose translation "may be shared across address spaces" (R22, R53): no rule reads it. -/
def State.shared (s : State) (a : PageAttrs) : Bool := cr4PGE s.cr4 && a.g

/-- The 3-bit index PAT:PCD:PWT of the final entry (R78): no behaviour is attached to it. -/
def PageAttrs.memoryTypeIndex (a : PageAttrs) : BitVec 3 :=
  (BitVec.ofBool a.pat ++ BitVec.ofBool a.pcd) ++ BitVec.ofBool a.pwt

end Sys2Proof.Machine
end

