-- ==== Sys2Proof/Machine/Operands.lean ====
section
/-! DEFINITION. Operands: general registers and operands (10_state.md R32), privilege (60_exceptions.md
R121), the fields of a linear address (30_encoding.md R56, R57), address assembly (R59, R69 to R73) and
the chunks of a linear access (41_translation.md R106). -/

namespace Sys2Proof.Machine

/-! ## General registers -/

def Gprs.read (g : Gprs) : Reg → Word
  | .eax => g.eax | .ecx => g.ecx | .edx => g.edx | .ebx => g.ebx
  | .esp => g.esp | .ebp => g.ebp | .esi => g.esi | .edi => g.edi

def Gprs.write (g : Gprs) (r : Reg) (v : Word) : Gprs :=
  match r with
  | .eax => { g with eax := v } | .ecx => { g with ecx := v }
  | .edx => { g with edx := v } | .ebx => { g with ebx := v }
  | .esp => { g with esp := v } | .ebp => { g with ebp := v }
  | .esi => { g with esi := v } | .edi => { g with edi := v }

/-- The value of a move's operand (R75; R5 for the plain value). -/
def sourceValue (s : State) : Source → Word
  | .reg r => s.gpr.read r
  | .value v => v

/-- The access mode of an access made at the current privilege level (R121: level 3 is user mode). -/
def State.accessMode (s : State) : AccessMode :=
  if s.cpl = 3 then .user else .supervisor

/-- The PDPTE register a 2-bit index selects (R90). -/
def Pdptes.select (r : Pdptes) (i : BitVec 2) : Option Quad :=
  match i.toNat with
  | 0 => r.p0 | 1 => r.p1 | 2 => r.p2 | _ => r.p3

/-! ## Linear-address fields -/

/-- `la[31:30]` -/
def laPdpteIndex (la : Word) : BitVec 2 := la.extractLsb' 30 2
/-- `la[29:21]` -/
def laPdeIndex (la : Word) : BitVec 9 := la.extractLsb' 21 9
/-- `la[20:12]` -/
def laPteIndex (la : Word) : BitVec 9 := la.extractLsb' 12 9
/-- `la[11:0]` -/
def laOffset4K (la : Word) : BitVec 12 := la.extractLsb' 0 12
/-- `la[20:0]` -/
def laOffset2M (la : Word) : BitVec 21 := la.extractLsb' 0 21

/-! ## Address assembly -/

/-- `PDPTBase()` of a CR3 value: `CR3 & 0xFFFFFFE0` (R59). -/
def pdptBase (cr3 : Word) : Quad := (cr3 &&& 0xFFFFFFE0).setWidth 64

/-- `PdpteAddr(i)` (R69). -/
def pdpteAddr (cr3 : Word) (i : Nat) : Quad := pdptBase cr3 + BitVec.ofNat 64 (8 * i)

/-- The 4-KByte-aligned physical address in bits (M-1):12 of an entry (R60, R63, R64). -/
def entryBase4K (c : Config) (e : Quad) : Quad := slice (c.maxPhyAddr - 1) 12 e <<< 12

/-- The 2-MByte-aligned physical address in bits (M-1):21 of an entry (R62). -/
def entryBase2M (c : Config) (e : Quad) : Quad := slice (c.maxPhyAddr - 1) 21 e <<< 21

/-- `PdeAddr(p, la)` (R70). -/
def pdeAddr (c : Config) (p : Quad) (la : Word) : Quad :=
  entryBase4K c p ||| ((laPdeIndex la).setWidth 64 <<< 3)

/-- `PteAddr(e, la)` (R71). -/
def pteAddr (c : Config) (e : Quad) (la : Word) : Quad :=
  entryBase4K c e ||| ((laPteIndex la).setWidth 64 <<< 3)

/-- The final physical address through a 4-KByte page (R72). -/
def physAddr4K (c : Config) (t : Quad) (la : Word) : Quad :=
  entryBase4K c t ||| (laOffset4K la).setWidth 64

/-- The final physical address through a 2-MByte page (R73). -/
def physAddr2M (c : Config) (e : Quad) (la : Word) : Quad :=
  entryBase2M c e ||| (laOffset2M la).setWidth 64

/-! ## Chunks -/

/-- A part of a linear access inside one 4-KByte-aligned linear range: its first address and length. -/
structure Chunk where
  la : Word
  len : Nat
  deriving DecidableEq, Repr

/-- Bytes from `la` to the next multiple of 4096. -/
def bytesToBoundary (la : Word) : Nat := 4096 - la.toNat % 4096

/-- At most `fuel` chunks of the `n` bytes at `la`, ascending, addresses modulo `2^32` (R43, R106). -/
def chunksFuel : Nat → Word → Nat → List Chunk
  | 0, _, _ => []
  | fuel + 1, la, n =>
    if n = 0 then []
    else if n ≤ bytesToBoundary la then [⟨la, n⟩]
    else ⟨la, bytesToBoundary la⟩ ::
      chunksFuel fuel (la + BitVec.ofNat 32 (bytesToBoundary la)) (n - bytesToBoundary la)

/-- The chunks of the access: each has at least one byte, so `n` are enough. -/
def chunks (la : Word) (n : Nat) : List Chunk := chunksFuel n la n

end Sys2Proof.Machine
end

