-- ==== Sys2Proof/Machine/Ops.lean ====
section
/-! DEFINITION. Ops: the operations over memory and registers that the meanings share: physical memory
(20_memory.md R41, R46), taking an exception (60_exceptions.md R113, R117), `SetAD` (41_translation.md
R104), `LoadPDPTEs` (40_pdpte_registers.md R80), `Translate` (R94) and the accesses through it (R106, R107). -/

namespace Sys2Proof.Machine

/-! ## Physical memory -/

/-- The byte at an address. -/
def Memory.read : Memory → Nat → Byte
  | [], _ => Memory.unlisted
  | (k, b) :: m, a => if k = a then b else Memory.read m a

/-- Write one byte, keeping the canonical form. -/
def Memory.write : Memory → Nat → Byte → Memory
  | [], a, v => if v = Memory.unlisted then [] else [(a, v)]
  | (k, b) :: m, a, v =>
    if a < k then (if v = Memory.unlisted then (k, b) :: m else (a, v) :: (k, b) :: m)
    else if a = k then (if v = Memory.unlisted then m else (a, v) :: m)
    else (k, b) :: Memory.write m a v

/-- The `n` bytes from `a` up. -/
def Memory.readBytes (m : Memory) : Nat → Nat → List Byte
  | _, 0 => []
  | a, n + 1 => m.read a :: Memory.readBytes m (a + 1) n

/-- Write bytes from `a` up. -/
def Memory.writeBytes : Memory → Nat → List Byte → Memory
  | m, _, [] => m
  | m, a, b :: bs => Memory.writeBytes (m.write a b) (a + 1) bs

/-- `MemRead(pa, 8)`: an entry (R41). -/
def Memory.readQuad (m : Memory) (a : Nat) : Quad := BitVec.ofNat 64 (leNat (m.readBytes a 8))

/-- `MemWrite(pa, 8, v)` (R41). -/
def Memory.writeQuad (m : Memory) (a : Nat) (v : Quad) : Memory := m.writeBytes a (leBytes 8 v.toNat)

/-- Does address `a` hold memory: below `2^M` and in RamRegions (R33, R46)? -/
def hasRam (c : Config) (a : Nat) : Bool :=
  decide (a < 2 ^ c.maxPhyAddr) &&
    c.ramRegions.any fun r => decide (r.base ≤ a) && decide (a < r.base + r.size)

/-- Do all `n` bytes from `a` up hold memory? -/
def inRam (c : Config) : Nat → Nat → Bool
  | _, 0 => true
  | a, n + 1 => hasRam c a && inRam c (a + 1) n

/-- An entry read, where the 8 bytes hold memory (R44, R46). -/
def readEntry (s : State) (a : Quad) : Option Quad :=
  if inRam s.cfg a.toNat 8 then some (s.mem.readQuad a.toNat) else none

/-! ## Exceptions -/

/-- Hand an exception's vector and error code to the surrounding model (R113, R117; delivery is not
described, R118: log 9). -/
def takeException (vector : Byte) (errorCode : Word) (s : State) : State :=
  { s with answer := .exception vector errorCode }

/-- `raise PageFault(ec, la)`: CR2 takes the linear address; vector 14 (R111, R113). -/
def takePageFault (errorCode la : Word) (s : State) : State :=
  takeException 14 errorCode { s with cr2 := la }

/-- `raise GeneralProtection(0)`: vector 13, error code 0, nothing else changes (R117). -/
def takeGeneralProtection (s : State) : State := takeException 13 0 s

/-! ## Results of the operations below -/

/-- A step of an access: done with a value, ended by a page fault (the state is the one the fault is taken
in), stopped, or refused. -/
inductive Access (α : Type) where
  | done (a : α) (s : State)
  | pageFault (errorCode la : Word) (s : State)
  | stuck (f : Fault)
  | refused (r : Refusal)

def Access.bind {α β : Type} (x : Access α) (f : α → State → Access β) : Access β :=
  match x with
  | .done a s => f a s
  | .pageFault ec la s => .pageFault ec la s
  | .stuck e => .stuck e
  | .refused r => .refused r

/-- The end of an operation: its value is handed over, or its page fault taken (R11, R113). -/
def Access.finish {α : Type} (x : Access α) (f : α → Answer) : Host.Outcome State Fault Refusal :=
  match x with
  | .done a s => .next { s with answer := f a }
  | .pageFault ec la s => .next (takePageFault ec la s)
  | .stuck e => .fault e
  | .refused r => .refused r

/-! ## Accessed and dirty flags -/

/-- `old | (1 << 5) | (D << 6)` (R104). -/
def withAD (dirty : Bool) (e : Quad) : Quad := e ||| 0x20 ||| (if dirty then 0x40 else 0)

/-- `SetAD(a, A = 1, D)` (R104, R105): no write when nothing changes. -/
def Memory.setAD (m : Memory) (a : Nat) (dirty : Bool) : Memory :=
  let old := m.readQuad a
  let new := withAD dirty old
  if new = old then m else m.writeQuad a new

def State.setAD (s : State) (a : Quad) (dirty : Bool) : State :=
  { s with mem := s.mem.setAD a.toNat dirty }

/-- The draw of R104: the A flag of a page-directory entry passed before a fault is set, or not (log 8). -/
def State.drawAccessed (s : State) (a : Quad) : State :=
  { s with
    mem := if Config.freeBit s.draws then s.mem.setAD a.toNat false else s.mem
    draws := s.draws + 1 }

/-! ## Translation -/

/-- `Fault(P, RSVD)` of R94, at an entry reached without passing a page-directory entry. -/
def walkFault (s : State) (la : Word) (kind : AccessKind) (mode : AccessMode) (p rsvd : Bool) :
    Access Translation :=
  .pageFault (pageFaultErrorCode s p kind mode rsvd) la s

/-- `Fault(P, RSVD)` of R94 after the page-directory entry at `passed` was passed (R104). -/
def walkFaultPast (s : State) (passed : Quad) (la : Word) (kind : AccessKind) (mode : AccessMode)
    (p rsvd : Bool) : Access Translation :=
  .pageFault (pageFaultErrorCode s p kind mode rsvd) la (s.drawAccessed passed)

/-- A present entry `e` with PS = 1, read at `aE` (R92): the reserved bits, the rights, the flags, the address. -/
def use2M (s : State) (la : Word) (kind : AccessKind) (mode : AccessMode) (aE e : Quad) :
    Access Translation :=
  if rsvdPde2M s.cfg s.nxe e then walkFault s la kind mode true true
  else if !rights s kind mode (entryUS e) (entryRW e) (s.nxe && entryXD e) then
    walkFault s la kind mode true false
  else
    .done
      { pa := physAddr2M s.cfg e la
        page := some
          { size := .page2M, pat := pde2mPAT e, pcd := entryPCD e, pwt := entryPWT e, g := entryG e } }
      (s.setAD aE (decide (kind = .write)))

/-- A present entry `t` of a page table, read at `aT` under the page-directory entry `e` at `aE` (R93, R96). -/
def use4K (s : State) (la : Word) (kind : AccessKind) (mode : AccessMode) (aE e aT t : Quad) :
    Access Translation :=
  if rsvdPte s.cfg s.nxe t then walkFaultPast s aE la kind mode true true
  else if !rights s kind mode (entryUS e && entryUS t) (entryRW e && entryRW t)
      (s.nxe && (entryXD e || entryXD t)) then
    walkFaultPast s aE la kind mode true false
  else
    .done
      { pa := physAddr4K s.cfg t la
        page := some
          { size := .page4K, pat := ptePAT t, pcd := entryPCD t, pwt := entryPWT t, g := entryG t } }
      ((s.setAD aE false).setAD aT (decide (kind = .write)))

/-- The walk from the page-table entry on (R93). -/
def walkTable (s : State) (la : Word) (kind : AccessKind) (mode : AccessMode) (aE e : Quad) :
    Access Translation :=
  let aT := pteAddr s.cfg e la
  match readEntry s aT with
  | none => .refused (.noMemory aT.toNat)
  | some t =>
    if !entryP t then walkFaultPast s aE la kind mode false false
    else use4K s la kind mode aE e aT t

/-- The walk from the page-directory entry on (R91). -/
def walkDirectory (s : State) (la : Word) (kind : AccessKind) (mode : AccessMode) (p : Quad) :
    Access Translation :=
  let aE := pdeAddr s.cfg p la
  match readEntry s aE with
  | none => .refused (.noMemory aE.toNat)
  | some e =>
    if !entryP e then walkFault s la kind mode false false
    else if entryPS e then use2M s la kind mode aE e
    else if rsvdPdePT s.cfg s.nxe e then walkFault s la kind mode true true
    else walkTable s la kind mode aE e

/-- The walk from the PDPTE register on (R90). -/
def walkRegister (s : State) (la : Word) (kind : AccessKind) (mode : AccessMode) :
    Access Translation :=
  match s.pdpte.select (laPdpteIndex la) with
  | none => .stuck .unloadedPdpte
  | some p =>
    if !entryP p then walkFault s la kind mode false false
    else walkDirectory s la kind mode p

/-- `Translate(la, kind, mode)` (R94; R34 for paging off, R36 for the refusals). -/
def linTranslate (la : Word) (kind : AccessKind) (mode : AccessMode) (s : State) :
    Access Translation :=
  if !cr0PG s.cr0 then .done { pa := la.setWidth 64, page := none } s
  else if !s.paeInUse then .refused (.pagingMode s.pagingMode)
  else if cr4CET s.cr4 then .refused .shadowStacks
  else walkRegister s la kind mode

/-! ## Accesses through translation -/

/-- A part of an access after translation: a physical address and a length. -/
structure Piece where
  pa : Quad
  len : Nat
  deriving DecidableEq, Repr

/-- Translate the chunks, lowest first (R106, R107). -/
def translateChunks (kind : AccessKind) (mode : AccessMode) : List Chunk → State → Access (List Piece)
  | [], s => .done [] s
  | c :: cs, s =>
    (linTranslate c.la kind mode s).bind fun t s1 =>
      (translateChunks kind mode cs s1).bind fun ps s2 => .done (⟨t.pa, c.len⟩ :: ps) s2

/-- The bytes of the pieces, in order (R106). -/
def readPieces : List Piece → State → Access (List Byte)
  | [], s => .done [] s
  | p :: ps, s =>
    if inRam s.cfg p.pa.toNat p.len then
      (readPieces ps s).bind fun bs s1 => .done (s.mem.readBytes p.pa.toNat p.len ++ bs) s1
    else .refused (.noMemory p.pa.toNat)

/-- Store the bytes over the pieces, in order (R107). -/
def writePieces : List Piece → List Byte → State → Access Unit
  | [], _, s => .done () s
  | p :: ps, bs, s =>
    if inRam s.cfg p.pa.toNat p.len then
      writePieces ps (bs.drop p.len) { s with mem := s.mem.writeBytes p.pa.toNat (bs.take p.len) }
    else .refused (.noMemory p.pa.toNat)

/-- The bytes of a read or fetch of `n` bytes at `la` (R106, R108). -/
def linLoad (kind : AccessKind) (la : Word) (n : Nat) (mode : AccessMode) (s : State) :
    Access (List Byte) :=
  (translateChunks kind mode (chunks la n) s).bind readPieces

/-- The store of the `8n`-bit value `v` at `la` (R107). -/
def linStore (la : Word) (n v : Nat) (mode : AccessMode) (s : State) : Access Unit :=
  (translateChunks .write mode (chunks la n) s).bind fun ps s1 => writePieces ps (leBytes n v) s1

/-! ## Loading the PDPTE registers -/

/-- What `LoadPDPTEs` comes to (R80). -/
inductive Load where
  | loaded (r : Pdptes)
  | generalProtection
  | refused (r : Refusal)
  deriving DecidableEq, Repr

/-- Entry `i` of the table CR3 names (R79). -/
def pdpteInMemory (s : State) (i : Nat) : Quad := s.mem.readQuad (pdpteAddr s.cr3 i).toNat

/-- `LoadPDPTEs()` (R80, R81): all four are read, then all four checked, then all four loaded. -/
def loadPdptes (s : State) : Load :=
  if inRam s.cfg (pdptBase s.cr3).toNat 32 then
    let e0 := pdpteInMemory s 0
    let e1 := pdpteInMemory s 1
    let e2 := pdpteInMemory s 2
    let e3 := pdpteInMemory s 3
    if pdpteBad s.cfg e0 || pdpteBad s.cfg e1 || pdpteBad s.cfg e2 || pdpteBad s.cfg e3 then
      .generalProtection
    else .loaded ⟨some e0, some e1, some e2, some e3⟩
  else .refused (.noMemory (pdptBase s.cr3).toNat)

/-- The end of a move to a control register (R82 to R84): `new` is the state with the register written,
`old` the state a general-protection exception goes back to. -/
def finishMove (old new : State) (reload : Bool) : Host.Outcome State Fault Refusal :=
  if reload then
    match loadPdptes new with
    | .loaded r => .next { new with pdpte := r, answer := .done }
    | .generalProtection => .next (takeGeneralProtection old)
    | .refused r => .refused r
  else .next { new with answer := .done }

/-- `MovToCR0(v)` (R83). -/
def movToCR0 (v : Word) (s : State) : Host.Outcome State Fault Refusal :=
  if cr0Illegal v then .next (takeGeneralProtection s)
  else
    let new := { s with cr0 := v }
    finishMove s new (new.paeInUse && cr0Reloads s.cr0 v)

/-- `MovToCR3(v)` (R82). -/
def movToCR3 (v : Word) (s : State) : Host.Outcome State Fault Refusal :=
  let new := { s with cr3 := v }
  finishMove s new new.paeInUse

/-- `MovToCR4(v)` (R84). -/
def movToCR4 (v : Word) (s : State) : Host.Outcome State Fault Refusal :=
  if cr4Illegal s.cfg v then .next (takeGeneralProtection s)
  else
    let new := { s with cr4 := v }
    finishMove s new (new.paeInUse && cr4Reloads s.cr4 v)

/-- What supervisor mode alone may execute runs at privilege level 0 and raises general protection elsewhere: the
control-register moves (R87) and the writes of IA32_EFER (60_exceptions.md R122; log 26). -/
def privileged (s : State) (act : State → Host.Outcome State Fault Refusal) :
    Host.Outcome State Fault Refusal :=
  if s.cpl = 0 then act s else .next (takeGeneralProtection s)

/-- Copy a control register's value to a general register (R76). -/
def moveToGpr (r : Reg) (v : Word) (s : State) : Host.Outcome State Fault Refusal :=
  .next { s with gpr := s.gpr.write r v, answer := .done }

end Sys2Proof.Machine
end

