-- ==== Sys2Proof/Machine/Accesses.lean ====
section
/-! DEFINITION. Accesses: Translate (41_translation.md R94), LinRead (R106), LinWrite (R107), LinFetch (R108). -/

namespace Sys2Proof.Machine

/-- Translate (R94): the physical address, the page size and the flags are the answer. -/
def execTranslate (la : Word) (kind : AccessKind) (mode : AccessMode) (s : State) :
    Host.Outcome State Fault Refusal :=
  (linTranslate la kind mode s).finish .translation

/-- LinRead (R106): the `8n`-bit value read is the answer. -/
def execLinRead (la : Word) (n : Nat) (mode : AccessMode) (s : State) :
    Host.Outcome State Fault Refusal :=
  (linLoad .read la n mode s).finish fun bs => .value n (leNat bs)

/-- LinWrite (R107). -/
def execLinWrite (la : Word) (n v : Nat) (mode : AccessMode) (s : State) :
    Host.Outcome State Fault Refusal :=
  (linStore la n v mode s).finish fun _ => .done

/-- LinFetch (R108): LinRead with every translation of kind fetch. -/
def execLinFetch (la : Word) (n : Nat) (mode : AccessMode) (s : State) :
    Host.Outcome State Fault Refusal :=
  (linLoad .fetch la n mode s).finish fun bs => .value n (leNat bs)

end Sys2Proof.Machine
end

