-- ==== Sys2Proof/Machine/Entries.lean ====
section
/-! DEFINITION. Entries: the structure-entry rows, each one step of the walk that reads the entry
(41_translation.md R90 to R93; 30_encoding.md R74). An entry no walk is reading has no effect (log 10). -/

namespace Sys2Proof.Machine

/-- PDPTE_NOT_PRESENT (R90): page fault, P = 0, RSVD = 0. -/
def execPdpteNotPresent (_e : Quad) (s : State) : Host.Outcome State Fault Refusal :=
  match s.walk with
  | some ⟨la, kind, mode, .pdptr⟩ =>
    (walkFault { s with walk := none } la kind mode false false).finish .translation
  | _ => .next s

/-- PDPTE (R60, R90): the walk goes on at the page-directory entry (R70); reserved bits are not checked here. -/
def execPdpte (e : Quad) (s : State) : Host.Outcome State Fault Refusal :=
  match s.walk with
  | some ⟨la, kind, mode, .pdptr⟩ =>
    .next { s with walk := some ⟨la, kind, mode, .directory (pdeAddr s.cfg e la)⟩ }
  | _ => .next s

/-- PDE_NOT_PRESENT (R67, R91): page fault, P = 0, RSVD = 0. -/
def execPdeNotPresent (_e : Quad) (s : State) : Host.Outcome State Fault Refusal :=
  match s.walk with
  | some ⟨la, kind, mode, .directory _⟩ =>
    (walkFault { s with walk := none } la kind mode false false).finish .translation
  | _ => .next s

/-- PDE_2M (R62, R92): reserved bits, rights, flags; the walk ends here. -/
def execPde2M (e : Quad) (s : State) : Host.Outcome State Fault Refusal :=
  match s.walk with
  | some ⟨la, kind, mode, .directory aE⟩ =>
    (use2M { s with walk := none } la kind mode aE e).finish .translation
  | _ => .next s

/-- PDE_PT (R63, R93): reserved bits; the walk goes on at the page-table entry (R71). -/
def execPdePT (e : Quad) (s : State) : Host.Outcome State Fault Refusal :=
  match s.walk with
  | some ⟨la, kind, mode, .directory aE⟩ =>
    if rsvdPdePT s.cfg s.nxe e then
      (walkFault { s with walk := none } la kind mode true true).finish .translation
    else .next { s with walk := some ⟨la, kind, mode, .table aE e (pteAddr s.cfg e la)⟩ }
  | _ => .next s

/-- PTE_NOT_PRESENT (R67, R93): page fault, P = 0, RSVD = 0. -/
def execPteNotPresent (_t : Quad) (s : State) : Host.Outcome State Fault Refusal :=
  match s.walk with
  | some ⟨la, kind, mode, .table aE _ _⟩ =>
    (walkFaultPast { s with walk := none } aE la kind mode false false).finish .translation
  | _ => .next s

/-- PTE_4K (R64, R93): reserved bits, rights, flags; the walk ends here. -/
def execPte4K (t : Quad) (s : State) : Host.Outcome State Fault Refusal :=
  match s.walk with
  | some ⟨la, kind, mode, .table aE e aT⟩ =>
    (use4K { s with walk := none } la kind mode aE e aT t).finish .translation
  | _ => .next s

end Sys2Proof.Machine
end

