-- ==== Sys2Proof/Machine/Formats.lean ====
section
/-! DEFINITION. Formats: the format rows hand over the fields of the value (30_encoding.md R56, R57, R59;
log 11). -/

namespace Sys2Proof.Machine

/-- LINEAR_ADDRESS_4K (R56). -/
def execLinearAddress4K (la : Word) (s : State) : Host.Outcome State Fault Refusal :=
  .next { s with
    answer := .linear4K (laPdpteIndex la) (laPdeIndex la) (laPteIndex la) (laOffset4K la) }

/-- LINEAR_ADDRESS_2M (R57). -/
def execLinearAddress2M (la : Word) (s : State) : Host.Outcome State Fault Refusal :=
  .next { s with answer := .linear2M (laPdpteIndex la) (laPdeIndex la) (laOffset2M la) }

/-- CR3_PAE (R59). -/
def execCr3Pae (v : Word) (s : State) : Host.Outcome State Fault Refusal :=
  .next { s with answer := .pdptBase (pdptBase v) }

end Sys2Proof.Machine
end

