-- ==== Sys2Proof/Machine/Loads.lean ====
section
/-! DEFINITION. Loads: LoadPDPTEs (40_pdpte_registers.md R80, R81), the CR3 load of a task switch (R85) and
the abstract writers SetEFER and SetAC (R88; 60_exceptions.md R122). -/

namespace Sys2Proof.Machine

/-- LoadPDPTEs, an "internal operation" with no privilege condition (R80): general protection on a bad entry, with
nothing loaded (R81). -/
def execLoadPDPTEs (s : State) : Host.Outcome State Fault Refusal := finishMove s s true

/-- The load inside a task switch; its general-protection exception is `refuse(task_switch_fault)` (R85). -/
def switchLoad (s : State) : Host.Outcome State Fault Refusal :=
  match loadPdptes s with
  | .loaded r => .next { s with pdpte := r, answer := .done }
  | .generalProtection => .refused .taskSwitchFault
  | .refused r => .refused r

/-- TaskSwitchCR3 (R85): an equal value reloads or not, by a draw (log 8). -/
def execTaskSwitchCR3 (v : Word) (s : State) : Host.Outcome State Fault Refusal :=
  let new := { s with cr3 := v }
  if !new.paeInUse then .next { new with answer := .done }
  else if v ≠ s.cr3 then switchLoad new
  else
    let drawn := { new with draws := s.draws + 1 }
    if Config.freeBit s.draws then switchLoad drawn else .next { drawn with answer := .done }

/-- `SetEFER(v)` (R88): stores the value and does nothing else; a changed LME while CR0.PG = 1 is refused. -/
def storeEfer (v : Quad) (s : State) : Host.Outcome State Fault Refusal :=
  if cr0PG s.cr0 && (eferLME v != eferLME s.efer) then .refused .lmeChangeWhilePaging
  else .next { s with efer := eferAfterWrite s.cfg s.efer v, answer := .done }

/-- SetEFER (R88) at privilege level 0; general protection elsewhere (60_exceptions.md R122; log 26). -/
def execSetEFER (v : Quad) (s : State) : Host.Outcome State Fault Refusal :=
  privileged s (storeEfer v)

/-- EFLAGS with AC (bit 18) set to `b`. -/
def withAC (b : Bool) (v : Word) : Word :=
  (v &&& ~~~(0x40000 : Word)) ||| (if b then 0x40000 else 0)

/-- SetAC (R88, R26). -/
def execSetAC (b : Bool) (s : State) : Host.Outcome State Fault Refusal :=
  .next { s with eflags := withAC b s.eflags, answer := .done }

end Sys2Proof.Machine
end

