-- ==== Sys2Proof/Machine/Moves.lean ====
section
/-! DEFINITION. Moves: the control-register moves (40_pdpte_registers.md R82 to R84, R87; 30_encoding.md
R75, R76). -/

namespace Sys2Proof.Machine

/-- MOV_TO_CR0 (R83). -/
def execMovToCR0 (src : Source) (s : State) : Host.Outcome State Fault Refusal :=
  privileged s (movToCR0 (sourceValue s src))

/-- MOV_TO_CR3 (R82). -/
def execMovToCR3 (src : Source) (s : State) : Host.Outcome State Fault Refusal :=
  privileged s (movToCR3 (sourceValue s src))

/-- MOV_TO_CR4 (R84). -/
def execMovToCR4 (src : Source) (s : State) : Host.Outcome State Fault Refusal :=
  privileged s (movToCR4 (sourceValue s src))

/-- `MOV CR2, r32` (R75 with n = 2; R87; log 27): CR2 takes the register. -/
def execMovToCR2 (src : Reg) (s : State) : Host.Outcome State Fault Refusal :=
  privileged s fun s => .next { s with cr2 := s.gpr.read src, answer := .done }

/-- MOV_FROM_CR0 (R76). -/
def execMovFromCR0 (dst : Reg) (s : State) : Host.Outcome State Fault Refusal :=
  privileged s (moveToGpr dst s.cr0)

/-- MOV_FROM_CR2 (R76, R18). -/
def execMovFromCR2 (dst : Reg) (s : State) : Host.Outcome State Fault Refusal :=
  privileged s (moveToGpr dst s.cr2)

/-- MOV_FROM_CR3 (R76): all 32 bits, bits 4:0 included (R19). -/
def execMovFromCR3 (dst : Reg) (s : State) : Host.Outcome State Fault Refusal :=
  privileged s (moveToGpr dst s.cr3)

/-- MOV_FROM_CR4 (R76). -/
def execMovFromCR4 (dst : Reg) (s : State) : Host.Outcome State Fault Refusal :=
  privileged s (moveToGpr dst s.cr4)

end Sys2Proof.Machine
end

