-- ==== Sys2Proof/Machine/Dispatch.lean ====
section
/-! DEFINITION. Dispatch: one arm per row of the table. -/

namespace Sys2Proof.Machine

def exec (i : Instr) (s : State) : Host.Outcome State Fault Refusal :=
  match i with
  | .pdpteNotPresent e => Sys2Proof.Machine.execPdpteNotPresent e s
  | .pdpte e => Sys2Proof.Machine.execPdpte e s
  | .pdeNotPresent e => Sys2Proof.Machine.execPdeNotPresent e s
  | .pde2M e => Sys2Proof.Machine.execPde2M e s
  | .pdePT e => Sys2Proof.Machine.execPdePT e s
  | .pteNotPresent e => Sys2Proof.Machine.execPteNotPresent e s
  | .pte4K e => Sys2Proof.Machine.execPte4K e s
  | .linearAddress4K la => Sys2Proof.Machine.execLinearAddress4K la s
  | .linearAddress2M la => Sys2Proof.Machine.execLinearAddress2M la s
  | .cr3Pae v => Sys2Proof.Machine.execCr3Pae v s
  | .movToCR0 src => Sys2Proof.Machine.execMovToCR0 src s
  | .movToCR3 src => Sys2Proof.Machine.execMovToCR3 src s
  | .movToCR4 src => Sys2Proof.Machine.execMovToCR4 src s
  | .movFromCR0 dst => Sys2Proof.Machine.execMovFromCR0 dst s
  | .movFromCR2 dst => Sys2Proof.Machine.execMovFromCR2 dst s
  | .movFromCR3 dst => Sys2Proof.Machine.execMovFromCR3 dst s
  | .movFromCR4 dst => Sys2Proof.Machine.execMovFromCR4 dst s
  | .loadPDPTEs => Sys2Proof.Machine.execLoadPDPTEs s
  | .taskSwitchCR3 v => Sys2Proof.Machine.execTaskSwitchCR3 v s
  | .translate la kind mode => Sys2Proof.Machine.execTranslate la kind mode s
  | .linRead la n mode => Sys2Proof.Machine.execLinRead la n mode s
  | .linWrite la n v mode => Sys2Proof.Machine.execLinWrite la n v mode s
  | .linFetch la n mode => Sys2Proof.Machine.execLinFetch la n mode s
  | .setEFER v => Sys2Proof.Machine.execSetEFER v s
  | .setAC b => Sys2Proof.Machine.execSetAC b s

end Sys2Proof.Machine
end

