-- ==== Sys2Proof/WellFormed.lean ====
section
/-! DEFINITION. WellFormed: an entry carries the match bits of its row (30_encoding.md R74); an access is
of at least one byte (41_translation.md R106); a value written fits its `8n` bits (R107). -/

namespace Sys2Proof

def Instr.wf : Instr → Bool
  | .pdpteNotPresent e => !e.getLsbD 0
  | .pdpte e => e.getLsbD 0
  | .pdeNotPresent e => !e.getLsbD 0
  | .pde2M e => e.getLsbD 0 && e.getLsbD 7
  | .pdePT e => e.getLsbD 0 && !e.getLsbD 7
  | .pteNotPresent e => !e.getLsbD 0
  | .pte4K e => e.getLsbD 0
  | .linearAddress4K _ => true
  | .linearAddress2M _ => true
  | .cr3Pae _ => true
  | .movToCR0 _ => true
  | .movToCR3 _ => true
  | .movToCR4 _ => true
  | .movFromCR0 _ => true
  | .movFromCR2 _ => true
  | .movFromCR3 _ => true
  | .movFromCR4 _ => true
  | .loadPDPTEs => true
  | .taskSwitchCR3 _ => true
  | .translate _ _ _ => true
  | .linRead _ n _ => decide (1 ≤ n)
  | .linWrite _ n v _ => decide (1 ≤ n) && decide (v < 2 ^ (8 * n))
  | .linFetch _ n _ => decide (1 ≤ n)
  | .setEFER _ => true
  | .setAC _ => true

end Sys2Proof
end

