-- ==== Sys2Proof/Machine/Events.lean ====
section
/-! DEFINITION. Events: what the head of the event queue does, and the next entry of a walk in progress
(00_scope.md R5; 70_reset_and_hazards.md R132, R136; 60_exceptions.md R125; log 1, 10, 15, 16). -/

namespace Sys2Proof.Machine

/-- Execute the bytes of one instruction (R75). -/
def runCode (bytes : List Byte) (s : State) : Host.Outcome State Fault Refusal :=
  match decodeOne .code bytes with
  | .ok i _ => exec i s
  | .movToCR2 r _ => execMovToCR2 r s
  | .rejected e => .refused (.undecodable e)

/-- Fetch the three bytes of an instruction at `la` in the mode of the privilege level (R108, R121; log 36)
and execute them. -/
def runAt (la : Word) (s : State) : Host.Outcome State Fault Refusal :=
  match linLoad .fetch la 3 s.accessMode s with
  | .done bytes s1 => runCode bytes s1
  | .pageFault ec fla s1 => .next (takePageFault ec fla s1)
  | .stuck f => .fault f
  | .refused r => .refused r

/-- Execute an operation of the operation level (R5). -/
def runOperation (i : Instr) (s : State) : Host.Outcome State Fault Refusal :=
  if i.wf then exec i s else .refused .illFormed

/-- Begin a translation that is made entry by entry: the first lines of R94. -/
def beginWalk (la : Word) (kind : AccessKind) (mode : AccessMode) (s : State) :
    Host.Outcome State Fault Refusal :=
  if !cr0PG s.cr0 then
    .next { s with answer := .translation { pa := la.setWidth 64, page := none } }
  else if !s.paeInUse then .refused (.pagingMode s.pagingMode)
  else if cr4CET s.cr4 then .refused .shadowStacks
  else .next { s with walk := some ⟨la, kind, mode, .pdptr⟩ }

/-- A speculative walk sets the A flag, never D, of a present, reachable entry on the path of `la`: its
page-table entry when `table`, else its page-directory entry (R132). The model's choices (log 15): reachable is
an entry that a walk reads (41_translation.md R95), so nothing is behind a page-directory entry with PS = 1 or a
reserved bit; present is P = 1, so the entry's own reserved bits and its rights play no part; a speculative walk
that comes to an entry outside RamRegions ends there with nothing set, where an executed access is refused (20_memory.md
R46); and one that selects an unloaded PDPTE register ends with nothing set, and is no read that R127 has fault, where
an executed access stops with `Fault.unloadedPdpte` (DESIGN CHOICE, log 15). -/
def State.speculate (s : State) (la : Word) (table : Bool) : State :=
  if !s.paeInUse || cr4CET s.cr4 then s
  else
    match s.pdpte.select (laPdpteIndex la) with
    | none => s
    | some p =>
      if !entryP p then s
      else
        let aE := pdeAddr s.cfg p la
        match readEntry s aE with
        | none => s
        | some e =>
          if !entryP e then s
          else if !table then s.setAD aE false
          else if entryPS e || rsvdPdePT s.cfg s.nxe e then s
          else
            let aT := pteAddr s.cfg e la
            match readEntry s aT with
            | none => s
            | some t => if !entryP t then s else s.setAD aT false

/-- Another agent writes physical memory (R125). -/
def agentWrite (pa : Nat) (bytes : List Byte) (s : State) : Host.Outcome State Fault Refusal :=
  if inRam s.cfg pa bytes.length then .next { s with mem := s.mem.writeBytes pa bytes }
  else .refused (.noMemory pa)

/-- The inputs that come between the moves of a walk in progress: speculative walks "at any step" (R132) and other
agents' writes, which an entry read sees "at the moment of each MemRead" (60_exceptions.md R125). -/
def Event.external : Event → Bool
  | .speculate _ _ => true
  | .agentWrite _ _ => true
  | .code _ => false
  | .runAt _ => false
  | .operation _ => false
  | .beginWalk _ _ _ => false
  | .setGpr _ _ => false
  | .setCpl _ => false

/-- The latest outcome is a page fault or a general-protection exception: the run has ended (R136). -/
def State.faulted (s : State) : Bool :=
  match s.answer with
  | .exception _ _ => true
  | .done => false
  | .translation _ => false
  | .value _ _ => false
  | .linear4K _ _ _ _ => false
  | .linear2M _ _ _ => false
  | .pdptBase _ => false

/-- What the head of the queue does. -/
def runEvent (ev : Event) (s : State) : Host.Outcome State Fault Refusal :=
  match ev with
  | .code bytes => runCode bytes s
  | .runAt la => runAt la s
  | .operation i => runOperation i s
  | .beginWalk la kind mode => beginWalk la kind mode s
  | .speculate la table => .next (s.speculate la table)
  | .agentWrite pa bytes => agentWrite pa bytes s
  | .setGpr r v => .next { s with gpr := s.gpr.write r v }
  | .setCpl level => .next { s with cpl := level }

/-- The walk in progress reads its next entry, decodes it by the place it is read at, and executes it
(R74, R90, R91, R93). -/
def walkStep (w : Walk) (s : State) : Host.Outcome State Fault Refusal :=
  match w.stage with
  | .pdptr =>
    match s.pdpte.select (laPdpteIndex w.la) with
    | none => .fault .unloadedPdpte
    | some p => exec (decodePdpte p) s
  | .directory a =>
    match readEntry s a with
    | none => .refused (.noMemory a.toNat)
    | some e => exec (decodePde e) s
  | .table _ _ a =>
    match readEntry s a with
    | none => .refused (.noMemory a.toNat)
    | some t => exec (decodePte t) s

/-- One step of a run that has not ended (log 1, 10, 37): a walk in progress makes its next move, after any input
from outside that heads the queue; otherwise the head of the queue is taken off and runs; with nothing issued the
unit is idle. -/
def runStep (s : State) : Host.Outcome State Fault Refusal :=
  match s.walk, s.events with
  | none, [] => .next s
  | none, ev :: rest => runEvent ev { s with events := rest }
  | some w, [] => walkStep w s
  | some w, ev :: rest => if ev.external then runEvent ev { s with events := rest } else walkStep w s

end Sys2Proof.Machine
end

