-- ==== Sys2Proof/Machine/Step.lean ====
section
/-! DEFINITION. Step: one step of the machine (70_reset_and_hazards.md R136; log 1, 9, 10, 37). -/

namespace Sys2Proof.Machine

/-- A run "ends when that sequence ends or at the first fault or refusal outcome" (R136): after a page fault or a
general-protection exception nothing more is executed (log 9). -/
def step (s : State) : Host.Outcome State Fault Refusal :=
  if s.faulted then .next s else runStep s

/-- The page directory `withFetchWord` lays an entry in. -/
def fetchSlot : Nat := 0x1000

/-- `s`, in a run that has not ended, with the instruction of a table word where the next step reads it: a
structure entry in the page directory a walk (supervisor-mode read of linear address 0) reads next, with no input
from outside before it; machine code and everything else at the head of the event queue. -/
def State.withFetchWord (s : State) (nbits w : Nat) : State :=
  match tablePlace nbits with
  | some .pageDirectory =>
    { s with
      mem := s.mem.writeBytes fetchSlot (tableBytes nbits w)
      events := s.events.dropWhile Event.external
      walk := some ⟨0, .read, .supervisor, .directory (BitVec.ofNat 64 fetchSlot)⟩
      answer := .done }
  | some .code =>
    { s with walk := none, events := .code (tableBytes nbits w) :: s.events, answer := .done }
  | _ =>
    match decodeTableWord nbits w with
    | some i => { s with walk := none, events := .operation i :: s.events, answer := .done }
    | none =>
      { s with walk := none, events := .code (tableBytes nbits w) :: s.events, answer := .done }

end Sys2Proof.Machine
end

