-- ==== Sys2Proof/Safety.lean ====
section
/-! DEFINITION. Safety: the terms claims use: the invariant of the machine, the table a CR3 value names, the
entries a translation reads, the launch premises, the end of a run, the premise on changed entries, and the
entry-by-entry walk. -/

namespace Sys2Proof.Safety

open Sys2Proof.Machine

/-! ## The table in memory (40_pdpte_registers.md R79) -/

/-- Entry `i` of the table at `cr3 & 0xFFFFFFE0`. -/
def tableEntry (s : State) (cr3 : Word) (i : Nat) : Quad :=
  s.mem.readQuad ((cr3 &&& 0xFFFFFFE0).toNat + 8 * i)

/-- The four entries as the registers would hold them. -/
def tableRegisters (s : State) (cr3 : Word) : Pdptes :=
  ⟨some (tableEntry s cr3 0), some (tableEntry s cr3 1),
   some (tableEntry s cr3 2), some (tableEntry s cr3 3)⟩

/-- All 32 bytes of the table hold memory. -/
def tableInRam (s : State) (cr3 : Word) : Bool := inRam s.cfg (cr3 &&& 0xFFFFFFE0).toNat 32

/-- One of the four entries is bad (R81). -/
def tableBad (s : State) (cr3 : Word) : Bool :=
  (List.range 4).any fun i => pdpteBad s.cfg (tableEntry s cr3 i)

/-! ## The entries a translation reads (R90 to R93) -/

/-- The addresses of the entries a translation of `la` reads in `s`, in the order it reads them: the page table is
not read past a page-directory entry with a reserved bit (R95). -/
def pathAddresses (s : State) (la : Word) : List Nat :=
  match s.pdpte.select (laPdpteIndex la) with
  | none => []
  | some p =>
    if !entryP p then []
    else
      let aE := pdeAddr s.cfg p la
      let e := s.mem.readQuad aE.toNat
      if entryP e && !entryPS e && !rsvdPdePT s.cfg s.nxe e then [aE.toNat, (pteAddr s.cfg e la).toNat] else [aE.toNat]

/-! ## The invariant -/

/-- All four PDPTE registers are loaded, none with a bad entry (R81, R129). -/
def pdptesLoaded (s : State) : Bool :=
  [s.pdpte.p0, s.pdpte.p1, s.pdpte.p2, s.pdpte.p3].all fun r =>
    match r with
    | some e => !pdpteBad s.cfg e
    | none => false

/-- Every listed byte of memory is at an address that holds memory (R46). -/
def memoryInRam (s : State) : Bool := s.mem.all fun c => hasRam s.cfg c.1

/-- A walk is in progress in PAE paging only, and the page-directory entry it has passed lies in memory that
exists (it was read). -/
def walkOk (s : State) : Bool :=
  match s.walk with
  | none => true
  | some ⟨_, _, _, .table aE _ _⟩ => s.paeInUse && inRam s.cfg aE.toNat 8
  | some _ => s.paeInUse

/-- The invariant of the machine. -/
structure Inv (s : State) : Prop where
  /-- memory is canonical -/
  canonical : s.mem.wf = true
  /-- memory lies in RamRegions (R46) -/
  inRam : memoryInRam s = true
  /-- a walk in progress is one that PAE paging makes -/
  walking : walkOk s = true
  /-- paging implies protection (R17) -/
  protection : cr0PG s.cr0 = true → cr0PE s.cr0 = true
  /-- CR4 holds no flag the processor lacks (R7, R84) -/
  cr4Legal : cr4Illegal s.cfg s.cr4 = false
  /-- IA32_EFER holds no NXE the processor lacks (R7, R25) -/
  nxeLegal : s.cfg.nxSupported = false → eferNXE s.efer = false
  /-- IA32_EFER holds no LME the processor lacks (R7, R25) -/
  lmeLegal : s.cfg.lmSupported = false → eferLME s.efer = false
  /-- in PAE paging the four PDPTE registers are loaded with good entries (R27, R81, R129) -/
  loaded : s.paeInUse = true → pdptesLoaded s = true

/-! ## Launch premises (70_reset_and_hazards.md R129) -/

/-- The premises of a run that starts in `s` with paging already on; `atLoad` is memory as it was at the last
loading operation. -/
structure LaunchPremises (atLoad : Memory) (s : State) : Prop where
  /-- `PAEInUse()` -/
  pae : s.paeInUse = true
  /-- CR4.CET = 0 -/
  noCet : cr4CET s.cr4 = false
  /-- the registers equal the four entries at `PDPTBase()` as they were at the last loading operation -/
  registers : s.pdpte = tableRegisters { s with mem := atLoad } s.cr3
  /-- none of the entries is bad: with P = 1 and a reserved bit set, or by the parameter of R81 -/
  good : tableBad { s with mem := atLoad } s.cr3 = false
  /-- every address the walk can reach lies in RamRegions -/
  reach : ∀ la : Word, ∀ a ∈ pathAddresses s la, inRam s.cfg a 8 = true

/-! ## Runs -/

/-- The end of a run: nothing is left to do, or its first page fault or general-protection exception, after which
`step` does nothing more (70 R136). -/
def endOfRun (s : State) : Bool := (s.events.isEmpty && s.walk.isNone) || s.faulted

/-- A run that ended because its sequence did: "a faulted state is never final" (92 D19). -/
def completed (s : State) : Bool := s.events.isEmpty && s.walk.isNone && !s.faulted

/-! ## The premise on changed entries (70 R131)

Claims about runs in which software changes entries carry `KeepsPremise`, because this model has no translation
cache (log 14). A run is the list of the states it passes, in order. -/

/-- The linear addresses an operation translates (R89, R106). -/
def translated : Instr → List Word
  | .translate la _ _ => [la]
  | .linRead la n _ => (chunks la n).map Chunk.la
  | .linWrite la n _ _ => (chunks la n).map Chunk.la
  | .linFetch la n _ => (chunks la n).map Chunk.la
  | _ => []

/-- The linear addresses the next step translates: those of an operation, of the fetch of an instruction, of a walk
that begins and of one in progress. -/
def translatedByStep (s : State) : List Word :=
  if s.faulted then []
  else
    match s.walk, s.events with
    | none, .operation i :: _ => translated i
    | none, .runAt la :: _ => (chunks la 3).map Chunk.la
    | none, .beginWalk la _ _ :: _ => [la]
    | none, _ => []
    | some w, [] => [w.la]
    | some w, ev :: _ => if ev.external then [] else [w.la]

/-- The row of the table that machine code decodes to. -/
def codeInstr (bytes : List Byte) : Option Instr :=
  match decodeOne .code bytes with
  | .ok i _ => some i
  | .movToCR2 _ _ => none
  | .rejected _ => none

/-- The instruction or operation at the head of the queue, where the next step executes one. -/
def queuedInstr (s : State) : Option Instr :=
  if s.faulted then none
  else
    match s.walk, s.events with
    | none, .code bytes :: _ => codeInstr bytes
    | none, .operation i :: _ => some i
    | none, .runAt la :: rest =>
      match linLoad .fetch la 3 s.accessMode { s with events := rest } with
      | .done bytes _ => codeInstr bytes
      | _ => none
    | _, _ => none

/-- The step from `s` to `t` executes `MovToCR3`. -/
def reloadsCR3 (s t : State) : Bool :=
  match queuedInstr s with
  | some (.movToCR3 _) => !t.faulted
  | _ => false

/-- The entry at `a` was present in `s` and `t` holds another value there, in more than A and D newly set. (Who sets
A or D cannot be told from the two values, and an entry with more of them set translates alike: log 14.) -/
def changedEntry (s t : State) (a : Nat) : Bool :=
  let old := s.mem.readQuad a
  let new := t.mem.readQuad a
  entryP old && decide (old ||| (new &&& 0x60) ≠ new)

/-- The states of a run since its last `MovToCR3`, after those in `since`. -/
def sinceReload : List State → List State → List State
  | since, s :: t :: rest => sinceReload (if reloadsCR3 s t then [] else since ++ [s]) (t :: rest)
  | since, [s] => since ++ [s]
  | since, [] => since

/-- Since the last `MovToCR3` of the run a PDE or PTE of `la` has been changed from a present value. Its entries are
those on its path at any moment since then, so it does not matter whether the path led there when the change was
made. -/
def stale (la : Word) (run : List State) : Bool :=
  let since := sinceReload [] run
  let entries := since.flatMap fun s => pathAddresses s la
  (since.zip since.tail).any fun p => entries.any (changedEntry p.1 p.2)

/-- The pages a program keeps its page directories and its page tables in, by the numbers of the 4-KByte pages,
whether or not a register or an entry leads to them now. -/
structure Structures where
  directories : List Nat
  tables : List Nat
  deriving DecidableEq, Repr

/-- `a` is the address of a present final entry with G = 1: a PDE that maps a 2-MByte page, or a PTE (20_memory.md
R53). -/
def Structures.globalEntry (p : Structures) (s : State) (a : Nat) : Bool :=
  let e := s.mem.readQuad a
  decide (a % 8 = 0) && entryP e && entryG e &&
    ((p.directories.contains (a / 4096) && entryPS e) || p.tables.contains (a / 4096))

/-- The structures are where every translation of a run reads its entries. -/
def Structures.Hold (p : Structures) (run : List State) : Prop :=
  ∀ s ∈ run, ∀ la : Word,
    (∀ a, (pathAddresses s la)[0]? = some a → a / 4096 ∈ p.directories) ∧
    (∀ a, (pathAddresses s la)[1]? = some a → a / 4096 ∈ p.tables)

/-- A present global entry of the structures is changed while CR4.PGE = 1: `MovToCR3` does not mend it. -/
def Structures.ChangesGlobal (p : Structures) (s t : State) : Prop :=
  cr4PGE s.cr4 = true ∧ ∃ a, p.globalEntry s a = true ∧ changedEntry s t a = true

/-- The premise of R131, for a run of a program that keeps its paging structures in `p`. -/
structure KeepsPremise (p : Structures) (run : List State) : Prop where
  /-- `p` names every page directory and page table the run's translations read, and may name more -/
  structures : p.Hold run
  /-- no step accesses an address whose PDE or PTE was changed from a present value since the last `MovToCR3` -/
  fresh : ∀ pre s post, run = pre ++ s :: post → ∀ la ∈ translatedByStep s,
    stale la (pre ++ [s]) = false
  /-- no step changes a present global entry at all while CR4.PGE = 1, on a path of that moment or not -/
  keepsGlobal : ∀ pre s t post, run = pre ++ s :: t :: post → ¬p.ChangesGlobal s t

/-! ## Translation entry by entry -/

/-- The head of the queue is no input from outside, so a walk in progress makes its next move. -/
def noExternalFirst (s : State) : Bool :=
  match s.events with
  | [] => true
  | ev :: _ => !ev.external

/-- At most `n` further moves of the walk in progress. -/
def finishWalk : Nat → State → Host.Outcome State Fault Refusal
  | 0, s => .next s
  | n + 1, s =>
    match s.walk with
    | none => .next s
    | some _ =>
      match step s with
      | .next t => finishWalk n t
      | .fault r => .fault r
      | .refused r => .refused r

/-! ## Shapes of the next state that statements share -/

/-- `s` after `raise PageFault(ec, la)` with nothing else changed (R113). -/
def pageFaulted (s : State) (ec la : Word) : State := { s with cr2 := la, answer := .exception 14 ec }

/-- `s` after `raise GeneralProtection(0)` (R117). -/
def generalProtected (s : State) : State := { s with answer := .exception 13 0 }

/-- Total length of translated pieces. -/
def piecesLength (ps : List Piece) : Nat := (ps.map Piece.len).sum

/-- The address lies in the piece. -/
def Covers (p : Piece) (a : Nat) : Prop := p.pa.toNat ≤ a ∧ a < p.pa.toNat + p.len

/-- Every piece lies in memory that exists. -/
def piecesInRam (s : State) (ps : List Piece) : Bool := ps.all fun p => inRam s.cfg p.pa.toNat p.len

end Sys2Proof.Safety
end

