-- ==== Sys2Proof/Certificates/Slice0/Obligations.lean ====
section
/-! DEFINITION. Obligations: the statements about the machine, one `Obligations.<Name>` each; OBLIGATIONS.json
gives their rules. -/

open Sys2Proof Sys2Proof.Machine Sys2Proof.Safety

/-! ## Reset and paging modes -/

/-- R126: the registers after a hardware reset, the paging mode, the privilege level, and that every linear
address is its own physical address then. -/
def Obligations.ResetRegistersAndIdentity : Prop :=
  State.reset.cr0 = 0x60000010 ∧ State.reset.cr2 = 0 ∧ State.reset.cr3 = 0 ∧ State.reset.cr4 = 0 ∧
  State.reset.efer = 0 ∧ State.reset.eflags = 0x00000002 ∧
  State.reset.pagingMode = .none ∧ State.reset.cpl = 0 ∧
  ∀ (la : Word) (kind : AccessKind) (mode : AccessMode),
    exec (.translate la kind mode) State.reset =
      .next { State.reset with answer := .translation ⟨la.setWidth 64, none⟩ }

/-- R127: at reset no PDPTE register holds a value, and a translation that selects an unloaded register
faults instead of reading one. -/
def Obligations.UnloadedPdpteRegisterFaults : Prop :=
  State.reset.pdpte = ⟨none, none, none, none⟩ ∧
  ∀ (s : State) (la : Word) (kind : AccessKind) (mode : AccessMode),
    s.paeInUse = true → cr4CET s.cr4 = false → s.pdpte.select (laPdpteIndex la) = none →
    exec (.translate la kind mode) s = .fault .unloadedPdpte

/-- R35, with the bit numbers of R14, R20 and R25: the paging mode of every combination of CR0.PG, CR4.PAE,
IA32_EFER.LME and CR4.LA57. That PG = 1, PAE = 0, LME = 1 is `undescribed`, as R35's table has it, and not the
32-bit paging of its pseudocode is the model's choice (log 23). -/
def Obligations.PagingModeOfControlFlags : Prop :=
  ∀ s : State,
    (s.cr0.getLsbD 31 = false → s.pagingMode = .none) ∧
    (s.cr0.getLsbD 31 = true → s.cr4.getLsbD 5 = false → s.efer.getLsbD 8 = false →
      s.pagingMode = .paging32) ∧
    (s.cr0.getLsbD 31 = true → s.cr4.getLsbD 5 = false → s.efer.getLsbD 8 = true →
      s.pagingMode = .undescribed) ∧
    (s.cr0.getLsbD 31 = true → s.cr4.getLsbD 5 = true → s.efer.getLsbD 8 = false →
      s.pagingMode = .pae) ∧
    (s.cr0.getLsbD 31 = true → s.cr4.getLsbD 5 = true → s.efer.getLsbD 8 = true →
      s.cr4.getLsbD 12 = false → s.pagingMode = .level4) ∧
    (s.cr0.getLsbD 31 = true → s.cr4.getLsbD 5 = true → s.efer.getLsbD 8 = true →
      s.cr4.getLsbD 12 = true → s.pagingMode = .level5) ∧
    (s.paeInUse = true ↔ s.pagingMode = .pae)

/-- R34: with CR0.PG = 0, Translate is the identity, raises nothing and changes nothing but the outcome
handed over; only the first 4 GBytes are reached. -/
def Obligations.PagingOffTranslatesToItself : Prop :=
  ∀ (s : State) (la : Word) (kind : AccessKind) (mode : AccessMode),
    cr0PG s.cr0 = false →
    exec (.translate la kind mode) s =
      .next { s with answer := .translation ⟨la.setWidth 64, none⟩ } ∧
    (la.setWidth 64 : Quad).toNat = la.toNat ∧ (la.setWidth 64 : Quad).toNat < 2 ^ 32

/-- R36: an access in a paging mode other than none and PAE is refused by the mode's name; in PAE paging with
CR4.CET = 1 it is refused too. -/
def Obligations.OtherModesAndCetRefused : Prop :=
  ∀ (s : State) (la : Word) (kind : AccessKind) (mode : AccessMode) (n v : Nat), 1 ≤ n →
    (s.pagingMode ≠ .none → s.pagingMode ≠ .pae →
      exec (.translate la kind mode) s = .refused (.pagingMode s.pagingMode) ∧
      exec (.linRead la n mode) s = .refused (.pagingMode s.pagingMode) ∧
      exec (.linWrite la n v mode) s = .refused (.pagingMode s.pagingMode) ∧
      exec (.linFetch la n mode) s = .refused (.pagingMode s.pagingMode)) ∧
    (s.pagingMode = .pae → cr4CET s.cr4 = true →
      exec (.translate la kind mode) s = .refused .shadowStacks ∧
      exec (.linRead la n mode) s = .refused .shadowStacks ∧
      exec (.linWrite la n v mode) s = .refused .shadowStacks ∧
      exec (.linFetch la n mode) s = .refused .shadowStacks)

/-! ## Formats and address assembly -/

/-- R56, R57: the fields of a linear address: 2 + 9 + 9 + 12 bits from the top through a 4-KByte page, 2 + 9 + 21
through a 2-MByte page (handed over in `answer`: the model's choice, log 11). -/
def Obligations.LinearAddressFields : Prop :=
  ∀ (s : State) (la : Word),
    (∃ (i : BitVec 2) (d t : BitVec 9) (offset : BitVec 12),
      exec (.linearAddress4K la) s = .next { s with answer := .linear4K i d t offset } ∧
      i ++ d ++ t ++ offset = la) ∧
    (∃ (i : BitVec 2) (d : BitVec 9) (offset : BitVec 21),
      exec (.linearAddress2M la) s = .next { s with answer := .linear2M i d offset } ∧
      i ++ d ++ offset = la)

/-- R59: CR3 names the table base CR3[31:5] : 0b00000, which is CR3 & 0xFFFFFFE0; bits 4:0 play no part (log 11). -/
def Obligations.Cr3NamesTableBase : Prop :=
  ∀ (s : State) (v : Word),
    exec (.cr3Pae v) s =
      .next { s with answer := .pdptBase ((v.extractLsb' 5 27 ++ (0 : BitVec 5)).setWidth 64) } ∧
    ((v.extractLsb' 5 27 ++ (0 : BitVec 5)).setWidth 64 : Quad) = (v &&& 0xFFFFFFE0).setWidth 64

/-- R69, R70, R71: the address of PDPTE `i` in memory, CR3[31:5] : i[1:0] : 0b000; and of a PDE and of a PTE, bit
by bit, with the equivalent masked sum with AddrMask12. -/
def Obligations.EntryAddressAssembly : Prop :=
  (∀ (cr3 : Word) (i : BitVec 2),
    pdpteAddr cr3 i.toNat = (cr3.extractLsb' 5 27 ++ i ++ (0 : BitVec 3)).setWidth 64 ∧
    (pdpteAddr cr3 i.toNat).toNat = (pdptBase cr3).toNat + 8 * i.toNat) ∧
  (∀ (c : Config) (e : Quad) (la : Word) (j : Nat),
    (pdeAddr c e la).getLsbD j =
      (if j < 3 then false else if j < 12 then la.getLsbD (j + 18)
       else decide (j < c.maxPhyAddr) && e.getLsbD j) ∧
    (pteAddr c e la).getLsbD j =
      (if j < 3 then false else if j < 12 then la.getLsbD (j + 9)
       else decide (j < c.maxPhyAddr) && e.getLsbD j) ∧
    pdeAddr c e la =
      (e &&& (BitVec.ofNat 64 (2 ^ c.maxPhyAddr - 1) &&& ~~~(0xFFF : Quad))) +
        8 * (la.extractLsb' 21 9).setWidth 64 ∧
    pteAddr c e la =
      (e &&& (BitVec.ofNat 64 (2 ^ c.maxPhyAddr - 1) &&& ~~~(0xFFF : Quad))) +
        8 * (la.extractLsb' 12 9).setWidth 64)

/-- R72, R73: the final physical address through a 4-KByte page and through a 2-MByte page, bit by bit. -/
def Obligations.PageAddressAssembly : Prop :=
  ∀ (c : Config) (e : Quad) (la : Word) (j : Nat),
    (physAddr4K c e la).getLsbD j =
      (if j < 12 then la.getLsbD j else decide (j < c.maxPhyAddr) && e.getLsbD j) ∧
    (physAddr2M c e la).getLsbD j =
      (if j < 21 then la.getLsbD j else decide (j < c.maxPhyAddr) && e.getLsbD j)

/-- R38: every physical address a translation or the load of the PDPTE registers produces is below `2^M`. -/
def Obligations.PhysicalAddressesBelowM : Prop :=
  (∀ (s t : State) (la : Word) (kind : AccessKind) (mode : AccessMode) (tr : Translation),
    exec (.translate la kind mode) s = .next t → t.answer = .translation tr →
    tr.pa.toNat < 2 ^ s.cfg.maxPhyAddr) ∧
  (∀ (c : Config) (e : Quad) (la : Word),
    (pdeAddr c e la).toNat < 2 ^ c.maxPhyAddr ∧ (pteAddr c e la).toNat < 2 ^ c.maxPhyAddr) ∧
  (∀ (c : Config) (cr3 : Word) (i : Nat), i < 4 → (pdpteAddr cr3 i).toNat < 2 ^ c.maxPhyAddr)

/-- R41: byte `k` of an entry read at `a` is the byte of memory at `a + k`, bits 8k+7 to 8k. -/
def Obligations.EntriesAreLittleEndian : Prop :=
  ∀ (s : State) (a : Quad) (e : Quad), readEntry s a = some e →
    ∀ k, k < 8 → e.extractLsb' (8 * k) 8 = s.mem.read (a.toNat + k)

/-! ## Reserved bits -/

/-- R65: the reserved bits of a present PDE that maps a 2-MByte page, of a present PDE that references a page
table and of a present PTE, bit by bit. -/
def Obligations.ReservedBitsOfEntries : Prop :=
  ∀ (c : Config) (nxe : Bool) (e : Quad),
    (rsvdPde2M c nxe e = true ↔
      (∃ j, c.maxPhyAddr ≤ j ∧ j ≤ 62 ∧ e.getLsbD j = true) ∨
      (∃ j, 13 ≤ j ∧ j ≤ 20 ∧ e.getLsbD j = true) ∨
      (nxe = false ∧ e.getLsbD 63 = true) ∨ (c.patSupported = false ∧ e.getLsbD 12 = true)) ∧
    (rsvdPdePT c nxe e = true ↔
      (∃ j, c.maxPhyAddr ≤ j ∧ j ≤ 62 ∧ e.getLsbD j = true) ∨
      (nxe = false ∧ e.getLsbD 63 = true)) ∧
    (rsvdPte c nxe e = true ↔
      (∃ j, c.maxPhyAddr ≤ j ∧ j ≤ 62 ∧ e.getLsbD j = true) ∨
      (nxe = false ∧ e.getLsbD 63 = true) ∨ (c.patSupported = false ∧ e.getLsbD 7 = true))

/-- R60, R81: a PDPTE is bad at load time when bits 2:1, 8:5 or 63:M are set and P is 1, or P does not matter
by the parameter. -/
def Obligations.BadPdpteBits : Prop :=
  ∀ (c : Config) (e : Quad),
    pdpteBad c e = true ↔
      ((∃ j, 1 ≤ j ∧ j ≤ 2 ∧ e.getLsbD j = true) ∨ (∃ j, 5 ≤ j ∧ j ≤ 8 ∧ e.getLsbD j = true) ∨
        (∃ j, c.maxPhyAddr ≤ j ∧ j ≤ 63 ∧ e.getLsbD j = true)) ∧
      (e.getLsbD 0 = true ∨ c.pdpteRsvdCheckIfNotPresent = true)

/-! ## Loading the PDPTE registers -/

/-- R79, R80, R81, R117: LoadPDPTEs copies all four 8-byte entries of the table at CR3 & 0xFFFFFFE0, bit for bit,
and changes nothing else; a bad entry makes it raise general protection with error code 0, and none of the
registers is loaded. That it does so at every privilege level is the model's choice (log 26): R80 is silent on it. -/
def Obligations.LoadPdptesAllOrNothing : Prop :=
  ∀ s : State, tableInRam s s.cr3 = true →
    (tableBad s s.cr3 = false →
      exec .loadPDPTEs s = .next { s with pdpte := tableRegisters s s.cr3, answer := .done }) ∧
    (tableBad s s.cr3 = true → exec .loadPDPTEs s = .next (generalProtected s))

/-- R82: MOV to CR3 at privilege level 0. In PAE paging the registers are loaded from the new CR3, on every
execution; a bad table leaves CR3 and the registers as they were; otherwise only CR3 changes. -/
def Obligations.MovToCR3Reloads : Prop :=
  ∀ (s : State) (src : Source) (v : Word), s.cpl = 0 → sourceValue s src = v →
    (s.paeInUse = true → tableInRam s v = true → tableBad s v = false →
      exec (.movToCR3 src) s =
        .next { s with cr3 := v, pdpte := tableRegisters s v, answer := .done }) ∧
    (s.paeInUse = true → tableInRam s v = true → tableBad s v = true →
      exec (.movToCR3 src) s = .next (generalProtected s)) ∧
    (s.paeInUse = false →
      exec (.movToCR3 src) s = .next { s with cr3 := v, answer := .done })

/-- R83: MOV to CR0 at privilege level 0. PG = 1 with PE = 0 raises general protection; a change of CD, NW or PG
with PAE paging in use afterwards reloads from CR3; a bad table leaves everything as it was; any other write
only stores the value. -/
def Obligations.MovToCR0Reloads : Prop :=
  ∀ (s : State) (src : Source) (v : Word), s.cpl = 0 → sourceValue s src = v →
    (v.getLsbD 31 = true → v.getLsbD 0 = false →
      exec (.movToCR0 src) s = .next (generalProtected s)) ∧
    (¬(v.getLsbD 31 = true ∧ v.getLsbD 0 = false) →
      (pagingModeOf v s.cr4 s.efer = .pae →
        (s.cr0.getLsbD 30 ≠ v.getLsbD 30 ∨ s.cr0.getLsbD 29 ≠ v.getLsbD 29 ∨
          s.cr0.getLsbD 31 ≠ v.getLsbD 31) →
        tableInRam s s.cr3 = true →
        (tableBad s s.cr3 = false →
          exec (.movToCR0 src) s =
            .next { s with cr0 := v, pdpte := tableRegisters s s.cr3, answer := .done }) ∧
        (tableBad s s.cr3 = true → exec (.movToCR0 src) s = .next (generalProtected s))) ∧
      (pagingModeOf v s.cr4 s.efer ≠ .pae ∨
        (s.cr0.getLsbD 30 = v.getLsbD 30 ∧ s.cr0.getLsbD 29 = v.getLsbD 29 ∧
          s.cr0.getLsbD 31 = v.getLsbD 31) →
        exec (.movToCR0 src) s = .next { s with cr0 := v, answer := .done }))

/-- R84: MOV to CR4 at privilege level 0. A flag of a feature the processor lacks, or a reserved bit, raises
general protection; a change of PAE, PGE, PSE or SMEP with PAE paging in use afterwards reloads; a bad table
leaves everything as it was; any other write, a change of SMAP among them, only stores the value. -/
def Obligations.MovToCR4Reloads : Prop :=
  ∀ (s : State) (src : Source) (v : Word), s.cpl = 0 → sourceValue s src = v →
    (((v.getLsbD 20 = true ∧ s.cfg.smepSupported = false) ∨
      (v.getLsbD 21 = true ∧ s.cfg.smapSupported = false) ∨
      (v.getLsbD 7 = true ∧ s.cfg.pgeSupported = false) ∨ v &&& s.cfg.cr4Reserved ≠ 0) →
      exec (.movToCR4 src) s = .next (generalProtected s)) ∧
    (cr4Illegal s.cfg v = false →
      (pagingModeOf s.cr0 v s.efer = .pae →
        (s.cr4.getLsbD 5 ≠ v.getLsbD 5 ∨ s.cr4.getLsbD 7 ≠ v.getLsbD 7 ∨
          s.cr4.getLsbD 4 ≠ v.getLsbD 4 ∨ s.cr4.getLsbD 20 ≠ v.getLsbD 20) →
        tableInRam s s.cr3 = true →
        (tableBad s s.cr3 = false →
          exec (.movToCR4 src) s =
            .next { s with cr4 := v, pdpte := tableRegisters s s.cr3, answer := .done }) ∧
        (tableBad s s.cr3 = true → exec (.movToCR4 src) s = .next (generalProtected s))) ∧
      (pagingModeOf s.cr0 v s.efer ≠ .pae ∨
        (s.cr4.getLsbD 5 = v.getLsbD 5 ∧ s.cr4.getLsbD 7 = v.getLsbD 7 ∧
          s.cr4.getLsbD 4 = v.getLsbD 4 ∧ s.cr4.getLsbD 20 = v.getLsbD 20) →
        exec (.movToCR4 src) s = .next { s with cr4 := v, answer := .done }))

/-- R85: the CR3 load of a task switch: a changed value in PAE paging loads from the new CR3; outside PAE
paging only CR3 changes; an equal value reloads or not (a draw: the statement holds for either); a bad table
is refused where it is loaded. That CR3 changes also with CR0.PG = 0, as in R85's pseudocode and against its remark
G14, is the model's choice (log 33). -/
def Obligations.TaskSwitchLoadsChangedCR3 : Prop :=
  ∀ (s : State) (v : Word),
    (s.paeInUse = false →
      exec (.taskSwitchCR3 v) s = .next { s with cr3 := v, answer := .done }) ∧
    (s.paeInUse = true → v ≠ s.cr3 → tableInRam s v = true → tableBad s v = false →
      exec (.taskSwitchCR3 v) s =
        .next { s with cr3 := v, pdpte := tableRegisters s v, answer := .done }) ∧
    (s.paeInUse = true → v ≠ s.cr3 → tableInRam s v = true → tableBad s v = true →
      exec (.taskSwitchCR3 v) s = .refused .taskSwitchFault) ∧
    (s.paeInUse = true → v = s.cr3 → tableInRam s v = true → tableBad s v = false →
      ∃ r : Pdptes, (r = tableRegisters s v ∨ r = s.pdpte) ∧
        exec (.taskSwitchCR3 v) s =
          .next { s with pdpte := r, draws := s.draws + 1, answer := .done }) ∧
    (s.paeInUse = true → v = s.cr3 → tableInRam s v = true → tableBad s v = true →
      exec (.taskSwitchCR3 v) s = .refused .taskSwitchFault ∨
      exec (.taskSwitchCR3 v) s = .next { s with draws := s.draws + 1, answer := .done })

/-- R86, R49: the PDPTE registers change only at the loading operations, under their conditions, and then hold
the four entries of the table in memory. -/
def Obligations.OnlyLoadsChangePdptes : Prop :=
  ∀ (i : Instr) (s t : State), exec i s = .next t →
    t.pdpte = s.pdpte ∨
    (t.pdpte = tableRegisters s t.cr3 ∧
      (i = .loadPDPTEs ∨
       ((∃ src, i = .movToCR3 src) ∧ t.paeInUse = true) ∨
       ((∃ src, i = .movToCR0 src) ∧ t.paeInUse = true ∧ cr0Reloads s.cr0 t.cr0 = true) ∨
       ((∃ src, i = .movToCR4 src) ∧ t.paeInUse = true ∧ cr4Reloads s.cr4 t.cr4 = true) ∨
       ((∃ v, i = .taskSwitchCR3 v) ∧ t.paeInUse = true)))

/-- R76: a move from a control register at privilege level 0 copies it to the general register and changes
nothing else; the other general registers keep their values. R75 with n = 2: `MOV CR2, r32` copies the general
register to CR2 and changes nothing else (no row of the table, log 27). -/
def Obligations.MovFromCopiesControlRegister : Prop :=
  ∀ (s : State) (r : Reg), s.cpl = 0 →
    (∃ g : Gprs, exec (.movFromCR0 r) s = .next { s with gpr := g, answer := .done } ∧
      g.read r = s.cr0 ∧ ∀ q, q ≠ r → g.read q = s.gpr.read q) ∧
    (∃ g : Gprs, exec (.movFromCR2 r) s = .next { s with gpr := g, answer := .done } ∧
      g.read r = s.cr2 ∧ ∀ q, q ≠ r → g.read q = s.gpr.read q) ∧
    (∃ g : Gprs, exec (.movFromCR3 r) s = .next { s with gpr := g, answer := .done } ∧
      g.read r = s.cr3 ∧ ∀ q, q ≠ r → g.read q = s.gpr.read q) ∧
    (∃ g : Gprs, exec (.movFromCR4 r) s = .next { s with gpr := g, answer := .done } ∧
      g.read r = s.cr4 ∧ ∀ q, q ≠ r → g.read q = s.gpr.read q) ∧
    execMovToCR2 r s = .next { s with cr2 := s.gpr.read r, answer := .done }

/-- R87: outside privilege level 0 every move to or from a control register raises general protection with
error code 0 and changes nothing. R122: so does SetEFER (that it is this exception is the model's choice, log 26). -/
def Obligations.MovesNeedPrivilegeLevelZero : Prop :=
  ∀ (s : State) (src : Source) (r : Reg) (v : Quad), s.cpl ≠ 0 →
    exec (.movToCR0 src) s = .next (generalProtected s) ∧
    execMovToCR2 r s = .next (generalProtected s) ∧
    exec (.movToCR3 src) s = .next (generalProtected s) ∧
    exec (.movToCR4 src) s = .next (generalProtected s) ∧
    exec (.movFromCR0 r) s = .next (generalProtected s) ∧
    exec (.movFromCR2 r) s = .next (generalProtected s) ∧
    exec (.movFromCR3 r) s = .next (generalProtected s) ∧
    exec (.movFromCR4 r) s = .next (generalProtected s) ∧
    exec (.setEFER v) s = .next (generalProtected s)

/-- R88: at privilege level 0 (log 26) SetEFER stores the value, and SetAC at every level the flag, and neither does
anything else; SetEFER changing LME while CR0.PG = 1 is refused. On a processor that lacks a feature its flag stays
0, and on one that lacks both nothing is stored (the model's choice, log 17). -/
def Obligations.SetEferAndSetAcStore : Prop :=
  ∀ (s : State) (v : Quad) (b : Bool),
    (s.cpl = 0 → ¬(cr0PG s.cr0 = true ∧ v.getLsbD 8 ≠ s.efer.getLsbD 8) →
      (s.cfg.nxSupported = true → s.cfg.lmSupported = true →
        exec (.setEFER v) s = .next { s with efer := v, answer := .done }) ∧
      (∃ w : Quad, exec (.setEFER v) s = .next { s with efer := w, answer := .done } ∧
        (s.cfg.nxSupported = true ∨ s.cfg.lmSupported = true →
          ∀ j, w.getLsbD j =
            (v.getLsbD j && !(decide (j = 11) && !s.cfg.nxSupported) &&
              !(decide (j = 8) && !s.cfg.lmSupported))) ∧
        (s.cfg.nxSupported = false → s.cfg.lmSupported = false → w = s.efer))) ∧
    (s.cpl = 0 → cr0PG s.cr0 = true → v.getLsbD 8 ≠ s.efer.getLsbD 8 →
      exec (.setEFER v) s = .refused .lmeChangeWhilePaging) ∧
    (∃ f : Word, exec (.setAC b) s = .next { s with eflags := f, answer := .done } ∧
      ∀ j, f.getLsbD j = if j = 18 then b else s.eflags.getLsbD j)

/-! ## Access rights and the error code -/

/-- R97 to R102: what an access may do, given the combined U/S, R/W and XD: in user mode CR0.WP, CR4.SMEP, CR4.SMAP
and EFLAGS.AC play no part; in supervisor mode they do, by bit number. -/
def Obligations.AccessRights : Prop :=
  ∀ (s : State) (us rw xd : Bool),
    (rights s .read .user us rw xd = true ↔ us = true) ∧
    (rights s .write .user us rw xd = true ↔ us = true ∧ rw = true) ∧
    (rights s .fetch .user us rw xd = true ↔ us = true ∧ xd = false) ∧
    (rights s .read .supervisor us rw xd = true ↔
      (us = true → s.cr4.getLsbD 21 = true → s.eflags.getLsbD 18 = true)) ∧
    (rights s .write .supervisor us rw xd = true ↔
      (us = true → s.cr4.getLsbD 21 = true → s.eflags.getLsbD 18 = true) ∧
      (rw = true ∨ s.cr0.getLsbD 16 = false)) ∧
    (rights s .fetch .supervisor us rw xd = true ↔
      xd = false ∧ ¬(us = true ∧ s.cr4.getLsbD 20 = true))

/-- R112: the page-fault error code, bit by bit. -/
def Obligations.PageFaultErrorCodeBits : Prop :=
  ∀ (s : State) (p rsvd : Bool) (kind : AccessKind) (mode : AccessMode) (j : Nat),
    (pageFaultErrorCode s p kind mode rsvd).getLsbD j =
      if j = 0 then p
      else if j = 1 then decide (kind = .write)
      else if j = 2 then decide (mode = .user)
      else if j = 3 then rsvd
      else if j = 4 then
        decide (kind = .fetch) && (s.cr4.getLsbD 20 || s.efer.getLsbD 11)
      else false

/-! ## Translation -/

/-- R93, R94, R96: a translation through a page table, both entries present and without reserved bits and the
access allowed by the combined rights, is done: the address of the PTE's page, the flags of the PTE, A set in
both entries and D in the PTE for a write. -/
def Obligations.TranslateThrough4KPage : Prop :=
  ∀ (s : State) (la : Word) (kind : AccessKind) (mode : AccessMode) (p e t : Quad),
    s.paeInUse = true → cr4CET s.cr4 = false →
    s.pdpte.select (laPdpteIndex la) = some p → p.getLsbD 0 = true →
    readEntry s (pdeAddr s.cfg p la) = some e → e.getLsbD 0 = true → e.getLsbD 7 = false →
    rsvdPdePT s.cfg (s.efer.getLsbD 11) e = false →
    readEntry s (pteAddr s.cfg e la) = some t → t.getLsbD 0 = true →
    rsvdPte s.cfg (s.efer.getLsbD 11) t = false →
    rights s kind mode (e.getLsbD 2 && t.getLsbD 2) (e.getLsbD 1 && t.getLsbD 1)
      (s.efer.getLsbD 11 && (e.getLsbD 63 || t.getLsbD 63)) = true →
    exec (.translate la kind mode) s =
      .next { s with
        mem := (s.mem.setAD (pdeAddr s.cfg p la).toNat false).setAD (pteAddr s.cfg e la).toNat
          (decide (kind = .write))
        answer := .translation
          { pa := physAddr4K s.cfg t la
            page := some
              { size := .page4K, pat := t.getLsbD 7, pcd := t.getLsbD 4, pwt := t.getLsbD 3,
                g := t.getLsbD 8 } } }

/-- R92, R94: a translation through a PDE that maps a 2-MByte page, present and without reserved bits and the
access allowed, is done: the walk ends at the PDE, whose A flag is set, and D for a write. -/
def Obligations.TranslateThrough2MPage : Prop :=
  ∀ (s : State) (la : Word) (kind : AccessKind) (mode : AccessMode) (p e : Quad),
    s.paeInUse = true → cr4CET s.cr4 = false →
    s.pdpte.select (laPdpteIndex la) = some p → p.getLsbD 0 = true →
    readEntry s (pdeAddr s.cfg p la) = some e → e.getLsbD 0 = true → e.getLsbD 7 = true →
    rsvdPde2M s.cfg (s.efer.getLsbD 11) e = false →
    rights s kind mode (e.getLsbD 2) (e.getLsbD 1) (s.efer.getLsbD 11 && e.getLsbD 63) = true →
    exec (.translate la kind mode) s =
      .next { s with
        mem := s.mem.setAD (pdeAddr s.cfg p la).toNat (decide (kind = .write))
        answer := .translation
          { pa := physAddr2M s.cfg e la
            page := some
              { size := .page2M, pat := e.getLsbD 12, pcd := e.getLsbD 4, pwt := e.getLsbD 3,
                g := e.getLsbD 8 } } }

/-- R114, R115: the page faults detected before a page-table-referencing PDE is passed: at the PDPTE register,
at the PDE not present, at a reserved bit of either form of PDE, and the rights violation of a 2-MByte page. CR2
takes the linear address and nothing else changes (R113). -/
def Obligations.PageFaultsAtRegisterAndDirectory : Prop :=
  ∀ (s : State) (la : Word) (kind : AccessKind) (mode : AccessMode) (p : Quad),
    s.paeInUse = true → cr4CET s.cr4 = false →
    s.pdpte.select (laPdpteIndex la) = some p →
    (p.getLsbD 0 = false →
      exec (.translate la kind mode) s =
        .next (pageFaulted s (pageFaultErrorCode s false kind mode false) la)) ∧
    (∀ e : Quad, p.getLsbD 0 = true → readEntry s (pdeAddr s.cfg p la) = some e →
      (e.getLsbD 0 = false →
        exec (.translate la kind mode) s =
          .next (pageFaulted s (pageFaultErrorCode s false kind mode false) la)) ∧
      (e.getLsbD 0 = true →
        (if e.getLsbD 7 = true then rsvdPde2M s.cfg s.nxe e else rsvdPdePT s.cfg s.nxe e) = true →
        exec (.translate la kind mode) s =
          .next (pageFaulted s (pageFaultErrorCode s true kind mode true) la)) ∧
      (e.getLsbD 0 = true → e.getLsbD 7 = true → rsvdPde2M s.cfg s.nxe e = false →
        rights s kind mode (e.getLsbD 2) (e.getLsbD 1) (s.nxe && e.getLsbD 63) = false →
        exec (.translate la kind mode) s =
          .next (pageFaulted s (pageFaultErrorCode s true kind mode false) la)))

/-- R114, R115, R104: the page faults detected after a page-table-referencing PDE was passed: PTE not present,
reserved bit of the PTE, rights. CR2 takes the linear address; the A flag of the PDE passed is set or not (a
draw: the statement holds for either) and nothing else changes. -/
def Obligations.PageFaultsAtPageTable : Prop :=
  ∀ (s : State) (la : Word) (kind : AccessKind) (mode : AccessMode) (p e t : Quad),
    s.paeInUse = true → cr4CET s.cr4 = false →
    s.pdpte.select (laPdpteIndex la) = some p → p.getLsbD 0 = true →
    readEntry s (pdeAddr s.cfg p la) = some e → e.getLsbD 0 = true → e.getLsbD 7 = false →
    rsvdPdePT s.cfg s.nxe e = false →
    readEntry s (pteAddr s.cfg e la) = some t →
    ∃ m : Memory, (m = s.mem ∨ m = s.mem.setAD (pdeAddr s.cfg p la).toNat false) ∧
      (t.getLsbD 0 = false →
        exec (.translate la kind mode) s =
          .next (pageFaulted { s with mem := m, draws := s.draws + 1 }
            (pageFaultErrorCode s false kind mode false) la)) ∧
      (t.getLsbD 0 = true → rsvdPte s.cfg s.nxe t = true →
        exec (.translate la kind mode) s =
          .next (pageFaulted { s with mem := m, draws := s.draws + 1 }
            (pageFaultErrorCode s true kind mode true) la)) ∧
      (t.getLsbD 0 = true → rsvdPte s.cfg s.nxe t = false →
        rights s kind mode (e.getLsbD 2 && t.getLsbD 2) (e.getLsbD 1 && t.getLsbD 1)
          (s.nxe && (e.getLsbD 63 || t.getLsbD 63)) = false →
        exec (.translate la kind mode) s =
          .next (pageFaulted { s with mem := m, draws := s.draws + 1 }
            (pageFaultErrorCode s true kind mode false) la))

/-- R104, R105, R66: after a translation through a page table, the PTE holds its old value with A set, and D for
a write, and the PDE its old value with A set (where the two are not one entry); no other bit of either changes. -/
def Obligations.AccessedAndDirtyFlagsSet : Prop :=
  ∀ (s t : State) (la : Word) (kind : AccessKind) (mode : AccessMode) (tr : Translation) (p : Quad),
    s.mem.wf = true → s.paeInUse = true →
    s.pdpte.select (laPdpteIndex la) = some p →
    exec (.translate la kind mode) s = .next t → t.answer = .translation tr →
    (∀ a, tr.page = some a → a.size = .page2M →
      t.mem.readQuad (pdeAddr s.cfg p la).toNat =
        s.mem.readQuad (pdeAddr s.cfg p la).toNat ||| 0x20 |||
          (if kind = .write then 0x40 else 0)) ∧
    (∀ a, tr.page = some a → a.size = .page4K →
      t.mem.readQuad (pteAddr s.cfg (s.mem.readQuad (pdeAddr s.cfg p la).toNat) la).toNat =
        s.mem.readQuad (pteAddr s.cfg (s.mem.readQuad (pdeAddr s.cfg p la).toNat) la).toNat |||
          0x20 ||| (if kind = .write then 0x40 else 0) ∧
      (pdeAddr s.cfg p la ≠ pteAddr s.cfg (s.mem.readQuad (pdeAddr s.cfg p la).toNat) la →
        t.mem.readQuad (pdeAddr s.cfg p la).toNat =
          s.mem.readQuad (pdeAddr s.cfg p la).toNat ||| 0x20))

/-- R45, R54: the frame of a translation, done or faulted. It changes no register but CR2, and CR2 only with a
page fault; every byte of memory but the first byte of the entries it reads is unchanged, and those change in bits
5 and 6 only. -/
def Obligations.TranslateFrame : Prop :=
  ∀ (s t : State) (la : Word) (kind : AccessKind) (mode : AccessMode), s.mem.wf = true →
    exec (.translate la kind mode) s = .next t →
    t = { s with cr2 := t.cr2, mem := t.mem, draws := t.draws, answer := t.answer } ∧
    (t.cr2 = s.cr2 ∨ (t.cr2 = la ∧ ∃ ec, t.answer = .exception 14 ec)) ∧
    t.mem.wf = true ∧
    (∀ a, a ∉ pathAddresses s la → t.mem.read a = s.mem.read a) ∧
    (∀ a, t.mem.read a ||| 0x60 = s.mem.read a ||| 0x60)

/-- R45: a translation is idempotent after its first use: repeated, a successful translation gives the same
result and changes nothing. -/
def Obligations.TranslateIdempotent : Prop :=
  ∀ (s t : State) (la : Word) (kind : AccessKind) (mode : AccessMode) (tr : Translation),
    s.mem.wf = true →
    exec (.translate la kind mode) s = .next t → t.answer = .translation tr →
    exec (.translate la kind mode) t = .next t

/-- R54, R86, R53, of the outcome and CR2 where the translation has a next state: two states that agree on the
configuration, on CR0.PG and WP, CR4.PAE, SMEP, SMAP, CET and LA57, IA32_EFER.LME and NXE, EFLAGS.AC, the PDPTE
registers and the entries on the path translate alike, whatever CR3, the table in memory, CR4.PGE and everything
else hold. -/
def Obligations.TranslateReadsOnlyItsPath : Prop :=
  ∀ (s u t : State) (la : Word) (kind : AccessKind) (mode : AccessMode),
    u.cfg = s.cfg → cr0PG u.cr0 = cr0PG s.cr0 → cr0WP u.cr0 = cr0WP s.cr0 →
    cr4PAE u.cr4 = cr4PAE s.cr4 → cr4SMEP u.cr4 = cr4SMEP s.cr4 → cr4SMAP u.cr4 = cr4SMAP s.cr4 →
    cr4CET u.cr4 = cr4CET s.cr4 → cr4LA57 u.cr4 = cr4LA57 s.cr4 →
    eferLME u.efer = eferLME s.efer → eferNXE u.efer = eferNXE s.efer →
    eflagsAC u.eflags = eflagsAC s.eflags → u.pdpte = s.pdpte →
    (∀ a ∈ pathAddresses s la, u.mem.readQuad a = s.mem.readQuad a) →
    exec (.translate la kind mode) s = .next t →
    ∃ t', exec (.translate la kind mode) u = .next t' ∧ t'.answer = t.answer ∧
      (∀ ec, t.answer = .exception 14 ec → t'.cr2 = la) ∧
      ((∀ ec, t.answer ≠ .exception 14 ec) → t'.cr2 = u.cr2)

/-- R90 to R94: making a translation entry by entry (the model's choice, log 10), each entry read at its place,
decoded by the table and executed as its row, with no input from outside between the moves, comes to exactly the
outcome of Translate. -/
def Obligations.EntryByEntryWalkIsTranslate : Prop :=
  ∀ (s : State) (la : Word) (kind : AccessKind) (mode : AccessMode),
    s.faulted = false → noExternalFirst s = true →
    s.walk = none → s.paeInUse = true → cr4CET s.cr4 = false →
    finishWalk 3 { s with walk := some ⟨la, kind, mode, .pdptr⟩ } =
      exec (.translate la kind mode) s

/-- R46: an address outside RamRegions is refused by name: the PDE's and the PTE's on the path of a translation,
the data's of an access inside one 4-KByte range, and the table's at every load of the PDPTE registers (LoadPDPTEs at
every privilege level: log 26). -/
def Obligations.OutsideRamRefused : Prop :=
  (∀ (s : State) (la : Word) (kind : AccessKind) (mode : AccessMode) (p : Quad),
    s.paeInUse = true → cr4CET s.cr4 = false →
    s.pdpte.select (laPdpteIndex la) = some p → p.getLsbD 0 = true →
    (readEntry s (pdeAddr s.cfg p la) = none →
      exec (.translate la kind mode) s = .refused (.noMemory (pdeAddr s.cfg p la).toNat)) ∧
    (∀ e, readEntry s (pdeAddr s.cfg p la) = some e → e.getLsbD 0 = true → e.getLsbD 7 = false →
      rsvdPdePT s.cfg s.nxe e = false → readEntry s (pteAddr s.cfg e la) = none →
      exec (.translate la kind mode) s = .refused (.noMemory (pteAddr s.cfg e la).toNat))) ∧
  (∀ (s s1 : State) (la : Word) (n v : Nat) (mode : AccessMode) (tr : Translation),
    1 ≤ n → la.toNat % 4096 + n ≤ 4096 → s1.answer = .translation tr →
    inRam s.cfg tr.pa.toNat n = false →
    (exec (.translate la .read mode) s = .next s1 →
      exec (.linRead la n mode) s = .refused (.noMemory tr.pa.toNat)) ∧
    (exec (.translate la .write mode) s = .next s1 →
      exec (.linWrite la n v mode) s = .refused (.noMemory tr.pa.toNat)) ∧
    (exec (.translate la .fetch mode) s = .next s1 →
      exec (.linFetch la n mode) s = .refused (.noMemory tr.pa.toNat))) ∧
  (∀ (s : State) (src : Source), tableInRam s s.cr3 = false →
    exec .loadPDPTEs s = .refused (.noMemory (s.cr3 &&& 0xFFFFFFE0).toNat) ∧
    (s.cpl = 0 → cr0Illegal (sourceValue s src) = false → pagingModeOf (sourceValue s src) s.cr4 s.efer = .pae →
      cr0Reloads s.cr0 (sourceValue s src) = true →
      exec (.movToCR0 src) s = .refused (.noMemory (s.cr3 &&& 0xFFFFFFE0).toNat)) ∧
    (s.cpl = 0 → cr4Illegal s.cfg (sourceValue s src) = false →
      pagingModeOf s.cr0 (sourceValue s src) s.efer = .pae → cr4Reloads s.cr4 (sourceValue s src) = true →
      exec (.movToCR4 src) s = .refused (.noMemory (s.cr3 &&& 0xFFFFFFE0).toNat))) ∧
  (∀ (s : State) (src : Source) (v : Word), sourceValue s src = v → tableInRam s v = false →
    s.paeInUse = true →
    (s.cpl = 0 → exec (.movToCR3 src) s = .refused (.noMemory (v &&& 0xFFFFFFE0).toNat)) ∧
    (v ≠ s.cr3 →
      exec (.taskSwitchCR3 v) s = .refused (.noMemory (v &&& 0xFFFFFFE0).toNat)))

/-! ## The entry rows in the walk that reads them -/

/-- R90, R91: the rows of the first two levels in their walk (log 10): a PDPTE register goes on to the page
directory, a page-table-referencing PDE to the page table; a not-present entry of either is a page fault with
P = 0, a reserved bit of the PDE one with RSVD = 1. -/
def Obligations.RegisterAndDirectoryRowsInWalk : Prop :=
  ∀ (s : State) (la : Word) (kind : AccessKind) (mode : AccessMode) (e aE : Quad),
    (s.walk = some ⟨la, kind, mode, .pdptr⟩ →
      exec (.pdpte e) s =
        .next { s with walk := some ⟨la, kind, mode, .directory (pdeAddr s.cfg e la)⟩ } ∧
      exec (.pdpteNotPresent e) s =
        .next (pageFaulted { s with walk := none }
          (pageFaultErrorCode s false kind mode false) la)) ∧
    (s.walk = some ⟨la, kind, mode, .directory aE⟩ →
      (rsvdPdePT s.cfg s.nxe e = false →
        exec (.pdePT e) s =
          .next { s with walk := some ⟨la, kind, mode, .table aE e (pteAddr s.cfg e la)⟩ }) ∧
      (rsvdPdePT s.cfg s.nxe e = true →
        exec (.pdePT e) s =
          .next (pageFaulted { s with walk := none }
            (pageFaultErrorCode s true kind mode true) la)) ∧
      exec (.pdeNotPresent e) s =
        .next (pageFaulted { s with walk := none }
          (pageFaultErrorCode s false kind mode false) la))

/-- R92, R93: the rows that end a walk, in their walk (log 10). PDE_2M and PTE_4K: a reserved bit is a page fault
with RSVD = 1, an access that is not allowed one with P = 1, and otherwise the translation is answered and the
flags set. A not-present PTE is a page fault with P = 0. At a page fault past a PDE its A flag is set or not (a
draw: the statement holds for either). -/
def Obligations.FinalRowsInWalk : Prop :=
  ∀ (s : State) (la : Word) (kind : AccessKind) (mode : AccessMode) (aE e aT t : Quad),
    (s.walk = some ⟨la, kind, mode, .directory aE⟩ →
      (rsvdPde2M s.cfg s.nxe e = true →
        exec (.pde2M e) s =
          .next (pageFaulted { s with walk := none }
            (pageFaultErrorCode s true kind mode true) la)) ∧
      (rsvdPde2M s.cfg s.nxe e = false →
        rights s kind mode (e.getLsbD 2) (e.getLsbD 1) (s.nxe && e.getLsbD 63) = false →
        exec (.pde2M e) s =
          .next (pageFaulted { s with walk := none }
            (pageFaultErrorCode s true kind mode false) la)) ∧
      (rsvdPde2M s.cfg s.nxe e = false →
        rights s kind mode (e.getLsbD 2) (e.getLsbD 1) (s.nxe && e.getLsbD 63) = true →
        exec (.pde2M e) s =
          .next { s with
            walk := none
            mem := s.mem.setAD aE.toNat (decide (kind = .write))
            answer := .translation
              { pa := physAddr2M s.cfg e la
                page := some
                  { size := .page2M, pat := e.getLsbD 12, pcd := e.getLsbD 4, pwt := e.getLsbD 3,
                    g := e.getLsbD 8 } } })) ∧
    (s.walk = some ⟨la, kind, mode, .table aE e aT⟩ →
      (rsvdPte s.cfg s.nxe t = false →
        rights s kind mode (e.getLsbD 2 && t.getLsbD 2) (e.getLsbD 1 && t.getLsbD 1)
          (s.nxe && (e.getLsbD 63 || t.getLsbD 63)) = true →
        exec (.pte4K t) s =
          .next { s with
            walk := none
            mem := (s.mem.setAD aE.toNat false).setAD aT.toNat (decide (kind = .write))
            answer := .translation
              { pa := physAddr4K s.cfg t la
                page := some
                  { size := .page4K, pat := t.getLsbD 7, pcd := t.getLsbD 4, pwt := t.getLsbD 3,
                    g := t.getLsbD 8 } } }) ∧
      ∃ m : Memory, (m = s.mem ∨ m = s.mem.setAD aE.toNat false) ∧
        exec (.pteNotPresent t) s =
          .next (pageFaulted { s with walk := none, mem := m, draws := s.draws + 1 }
            (pageFaultErrorCode s false kind mode false) la) ∧
        (rsvdPte s.cfg s.nxe t = true →
          exec (.pte4K t) s =
            .next (pageFaulted { s with walk := none, mem := m, draws := s.draws + 1 }
              (pageFaultErrorCode s true kind mode true) la)) ∧
        (rsvdPte s.cfg s.nxe t = false →
          rights s kind mode (e.getLsbD 2 && t.getLsbD 2) (e.getLsbD 1 && t.getLsbD 1)
            (s.nxe && (e.getLsbD 63 || t.getLsbD 63)) = false →
          exec (.pte4K t) s =
            .next (pageFaulted { s with walk := none, mem := m, draws := s.draws + 1 }
              (pageFaultErrorCode s true kind mode false) la)))

/-- The model's choice (log 10): a structure-entry row that no walk is reading, at the place of that row, changes
nothing. -/
def Obligations.EntryRowsOutsideTheirWalk : Prop :=
  ∀ (s : State) (e : Quad),
    ((∀ la kind mode, s.walk ≠ some ⟨la, kind, mode, .pdptr⟩) →
      exec (.pdpte e) s = .next s ∧ exec (.pdpteNotPresent e) s = .next s) ∧
    ((∀ la kind mode a, s.walk ≠ some ⟨la, kind, mode, .directory a⟩) →
      exec (.pdeNotPresent e) s = .next s ∧ exec (.pde2M e) s = .next s ∧
      exec (.pdePT e) s = .next s) ∧
    ((∀ la kind mode aE p a, s.walk ≠ some ⟨la, kind, mode, .table aE p a⟩) →
      exec (.pteNotPresent e) s = .next s ∧ exec (.pte4K e) s = .next s)

/-! ## Accesses through translation -/

/-- R43, R106: the chunks of an access cover its bytes in ascending order, modulo `2^32`; each is of at least
one byte and inside one 4-KByte range, and all but the first begin at a multiple of 4096. -/
def Obligations.ChunksCoverTheAccess : Prop :=
  ∀ (la : Word) (n : Nat),
    ((chunks la n).flatMap fun c =>
      (List.range c.len).map fun k => c.la + BitVec.ofNat 32 k) =
      (List.range n).map (fun k => la + BitVec.ofNat 32 k) ∧
    (∀ c ∈ chunks la n, 1 ≤ c.len ∧ c.la.toNat % 4096 + c.len ≤ 4096) ∧
    (∀ c ∈ (chunks la n).tail, c.la.toNat % 4096 = 0)

/-- R106, R108: a read or fetch whose chunks all translate to memory that exists is done: the value has the
bytes of the pieces, lowest address in the low bits, read after all the translations. -/
def Obligations.LinReadAndLinFetchValue : Prop :=
  ∀ (s s1 : State) (la : Word) (n : Nat) (mode : AccessMode) (ps : List Piece), 1 ≤ n →
    (translateChunks .read mode (chunks la n) s = .done ps s1 → piecesInRam s1 ps = true →
      exec (.linRead la n mode) s =
        .next { s1 with
          answer := .value n (leNat (ps.flatMap fun p => s1.mem.readBytes p.pa.toNat p.len)) }) ∧
    (translateChunks .fetch mode (chunks la n) s = .done ps s1 → piecesInRam s1 ps = true →
      exec (.linFetch la n mode) s =
        .next { s1 with
          answer := .value n (leNat (ps.flatMap fun p => s1.mem.readBytes p.pa.toNat p.len)) })

/-- R106, R108: a read or fetch inside one 4-KByte range whose translation is done is done: it answers the `n`
bytes from the physical address, lowest address in the low bits, and changes what the translation changes. -/
def Obligations.LinReadAndLinFetchInOnePage : Prop :=
  ∀ (s s1 : State) (la : Word) (n : Nat) (mode : AccessMode) (tr : Translation),
    1 ≤ n → la.toNat % 4096 + n ≤ 4096 → s1.answer = .translation tr →
    inRam s.cfg tr.pa.toNat n = true →
    (exec (.translate la .read mode) s = .next s1 →
      ∃ v, exec (.linRead la n mode) s = .next { s1 with answer := .value n v } ∧
        v < 256 ^ n ∧ ∀ k, k < n → BitVec.ofNat 8 (v / 256 ^ k) = s1.mem.read (tr.pa.toNat + k)) ∧
    (exec (.translate la .fetch mode) s = .next s1 →
      ∃ v, exec (.linFetch la n mode) s = .next { s1 with answer := .value n v } ∧
        v < 256 ^ n ∧ ∀ k, k < n → BitVec.ofNat 8 (v / 256 ^ k) = s1.mem.read (tr.pa.toNat + k))

/-- R106, R107, R108, R34: with paging off, an access of any length to memory that exists is done at the linear
address itself, byte by byte modulo `2^32`, across any number of chunks; a write stores its bytes (an address
written twice by a wrapping access keeps its last byte) and leaves every other byte. -/
def Obligations.AccessesWithPagingOff : Prop :=
  ∀ (s : State) (la : Word) (n v : Nat) (mode : AccessMode),
    1 ≤ n → cr0PG s.cr0 = false → s.mem.wf = true →
    (∀ k, k < n → hasRam s.cfg (la + BitVec.ofNat 32 k).toNat = true) →
    (∃ w, exec (.linRead la n mode) s = .next { s with answer := .value n w } ∧
      exec (.linFetch la n mode) s = .next { s with answer := .value n w } ∧
      w < 256 ^ n ∧
      ∀ k, k < n → BitVec.ofNat 8 (w / 256 ^ k) = s.mem.read (la + BitVec.ofNat 32 k).toNat) ∧
    (∃ m : Memory, exec (.linWrite la n v mode) s = .next { s with mem := m, answer := .done } ∧
      (∀ k, k < n → n ≤ k + 2 ^ 32 →
        m.read (la + BitVec.ofNat 32 k).toNat = BitVec.ofNat 8 (v / 256 ^ k)) ∧
      (∀ a, (∀ k, k < n → a ≠ (la + BitVec.ofNat 32 k).toNat) → m.read a = s.mem.read a))

/-- R107: a write inside one 4-KByte range whose translation is done is done: byte `k` of the value is stored
at the physical address plus `k`, and every other byte of memory is as the translation left it. -/
def Obligations.LinWriteInOnePage : Prop :=
  ∀ (s s1 : State) (la : Word) (n v : Nat) (mode : AccessMode) (tr : Translation),
    s.mem.wf = true → 1 ≤ n → la.toNat % 4096 + n ≤ 4096 →
    exec (.translate la .write mode) s = .next s1 → s1.answer = .translation tr →
    inRam s.cfg tr.pa.toNat n = true →
    ∃ m : Memory, exec (.linWrite la n v mode) s = .next { s1 with mem := m, answer := .done } ∧
      m.wf = true ∧
      (∀ k, k < n → m.read (tr.pa.toNat + k) = BitVec.ofNat 8 (v / 256 ^ k)) ∧
      (∀ a, a < tr.pa.toNat ∨ tr.pa.toNat + n ≤ a → m.read a = s1.mem.read a)

/-- R94, R106, R107, R108: a read, a fetch and a write inside one 4-KByte range, through a page table whose entries
are present and without reserved bits and allow the access, complete: the flags are set as by the translation, the
bytes are those at the page's address, lowest in the low bits, and a write changes no other byte. -/
def Obligations.AccessesThrough4KPage : Prop :=
  ∀ (s : State) (la : Word) (kind : AccessKind) (n v : Nat) (mode : AccessMode) (p e t : Quad) (m : Memory),
    s.mem.wf = true → 1 ≤ n → la.toNat % 4096 + n ≤ 4096 →
    s.paeInUse = true → cr4CET s.cr4 = false →
    s.pdpte.select (laPdpteIndex la) = some p → p.getLsbD 0 = true →
    readEntry s (pdeAddr s.cfg p la) = some e → e.getLsbD 0 = true → e.getLsbD 7 = false →
    rsvdPdePT s.cfg (s.efer.getLsbD 11) e = false →
    readEntry s (pteAddr s.cfg e la) = some t → t.getLsbD 0 = true →
    rsvdPte s.cfg (s.efer.getLsbD 11) t = false →
    rights s kind mode (e.getLsbD 2 && t.getLsbD 2) (e.getLsbD 1 && t.getLsbD 1)
      (s.efer.getLsbD 11 && (e.getLsbD 63 || t.getLsbD 63)) = true →
    inRam s.cfg (physAddr4K s.cfg t la).toNat n = true →
    m = (s.mem.setAD (pdeAddr s.cfg p la).toNat false).setAD (pteAddr s.cfg e la).toNat
      (decide (kind = .write)) →
    (kind = .read → ∃ w, exec (.linRead la n mode) s = .next { s with mem := m, answer := .value n w } ∧
      w < 256 ^ n ∧
      ∀ k, k < n → BitVec.ofNat 8 (w / 256 ^ k) = m.read ((physAddr4K s.cfg t la).toNat + k)) ∧
    (kind = .fetch → ∃ w, exec (.linFetch la n mode) s = .next { s with mem := m, answer := .value n w } ∧
      w < 256 ^ n ∧
      ∀ k, k < n → BitVec.ofNat 8 (w / 256 ^ k) = m.read ((physAddr4K s.cfg t la).toNat + k)) ∧
    (kind = .write → ∃ m' : Memory,
      exec (.linWrite la n v mode) s = .next { s with mem := m', answer := .done } ∧ m'.wf = true ∧
      (∀ k, k < n → m'.read ((physAddr4K s.cfg t la).toNat + k) = BitVec.ofNat 8 (v / 256 ^ k)) ∧
      ∀ a, a < (physAddr4K s.cfg t la).toNat ∨ (physAddr4K s.cfg t la).toNat + n ≤ a →
        m'.read a = m.read a)

/-- R107: a write of any number of chunks, all translated to memory that exists, is done: each piece holds its
bytes of the value (where pieces overlap, the later one's), and every byte outside the pieces is as the
translations left it. -/
def Obligations.LinWriteStoresItsBytes : Prop :=
  ∀ (s s1 : State) (la : Word) (n v : Nat) (mode : AccessMode) (ps : List Piece),
    s.mem.wf = true → 1 ≤ n →
    translateChunks .write mode (chunks la n) s = .done ps s1 → piecesInRam s1 ps = true →
    ∃ m : Memory, exec (.linWrite la n v mode) s = .next { s1 with mem := m, answer := .done } ∧
      m.wf = true ∧
      (∀ (pre post : List Piece) (p : Piece) (k : Nat), ps = pre ++ p :: post → k < p.len →
        (∀ q ∈ post, ¬Covers q (p.pa.toNat + k)) →
        m.read (p.pa.toNat + k) = BitVec.ofNat 8 (v / 256 ^ (piecesLength pre + k))) ∧
      (∀ a, (∀ p ∈ ps, ¬Covers p a) → m.read a = s1.mem.read a)

/-- R106, R107, R116: an access that crosses one 4-KByte boundary translates its lower chunk first, and a page
fault of the upper chunk is taken in the state the lower chunk's flags are set in, with the upper chunk's first
address in CR2; a page fault of the lower chunk is reported with the access's own address. -/
def Obligations.CrossPageFaultReportsItsChunk : Prop :=
  ∀ (s s1 t : State) (la : Word) (n v : Nat) (mode : AccessMode) (tr : Translation) (ec : Word),
    bytesToBoundary la < n → n ≤ bytesToBoundary la + 4096 → t.answer = .exception 14 ec →
    (∀ kind, exec (.translate la kind mode) s = .next t →
      (kind = .read → exec (.linRead la n mode) s = .next t) ∧
      (kind = .write → exec (.linWrite la n v mode) s = .next t) ∧
      (kind = .fetch → exec (.linFetch la n mode) s = .next t)) ∧
    (∀ kind, exec (.translate la kind mode) s = .next s1 → s1.answer = .translation tr →
      exec (.translate (la + BitVec.ofNat 32 (bytesToBoundary la)) kind mode) s1 = .next t →
      t.cr2 = la + BitVec.ofNat 32 (bytesToBoundary la) ∧
      (kind = .read → exec (.linRead la n mode) s = .next t) ∧
      (kind = .write → exec (.linWrite la n v mode) s = .next t) ∧
      (kind = .fetch → exec (.linFetch la n mode) s = .next t))

/-- R45, R107: reads and fetches, and a write that ends in a page fault, change no register but CR2, no byte of memory
but the first byte of the entries that the translations of their chunks read, and those in bits 5 and 6 only (a
data byte of a faulting write is never stored). -/
def Obligations.FaultingWritesAndReadsStoreNothing : Prop :=
  ∀ (s t : State) (la : Word) (n v : Nat) (mode : AccessMode), s.mem.wf = true →
    (exec (.linRead la n mode) s = .next t ∨ exec (.linFetch la n mode) s = .next t ∨
      (exec (.linWrite la n v mode) s = .next t ∧ t.answer ≠ .done)) →
    t = { s with cr2 := t.cr2, mem := t.mem, draws := t.draws, answer := t.answer } ∧
    (t.cr2 = s.cr2 ∨ ∃ ec, t.answer = .exception 14 ec) ∧
    (∀ a, (∀ c ∈ chunks la n, a ∉ pathAddresses s c.la) → t.mem.read a = s.mem.read a) ∧
    (∀ a, t.mem.read a ||| 0x60 = s.mem.read a ||| 0x60)

/-! ## Who writes what -/

/-- R13 (column "who writes it"), R113: over the rows of the table, CR2 changes only with a page fault, the control
registers, IA32_EFER, EFLAGS and the general registers only by their own writers, and the configuration, the
privilege level and the queue by no instruction. `MOV CR2, r32`, which has no row (R75, log 27), changes CR2 alone. -/
def Obligations.WritersOfEachRegister : Prop :=
  (∀ (i : Instr) (s t : State), exec i s = .next t →
    (t.cr0 = s.cr0 ∨ ∃ src, i = .movToCR0 src) ∧
    (t.cr2 = s.cr2 ∨ ∃ ec, t.answer = .exception 14 ec) ∧
    (t.cr3 = s.cr3 ∨ (∃ src, i = .movToCR3 src) ∨ ∃ v, i = .taskSwitchCR3 v) ∧
    (t.cr4 = s.cr4 ∨ ∃ src, i = .movToCR4 src) ∧
    (t.efer = s.efer ∨ ∃ v, i = .setEFER v) ∧
    (t.eflags = s.eflags ∨ ∃ b, i = .setAC b) ∧
    (t.gpr = s.gpr ∨ ∃ r, i = .movFromCR0 r ∨ i = .movFromCR2 r ∨ i = .movFromCR3 r ∨ i = .movFromCR4 r) ∧
    t.cfg = s.cfg ∧ t.cpl = s.cpl ∧ t.events = s.events) ∧
  (∀ (r : Reg) (s t : State), execMovToCR2 r s = .next t → t = { s with cr2 := t.cr2, answer := t.answer })

/-- R122, R87: outside privilege level 0 no row of the table but TaskSwitchCR3, the event of R85, changes CR0, CR3, CR4
or IA32_EFER, and none but it and LoadPDPTEs, the internal operation of R80, changes a PDPTE register. That SetEFER is
denied there, and that the two excepted check no level, is the model's choice (log 26). -/
def Obligations.UserModeKeepsPagingControl : Prop :=
  ∀ (i : Instr) (s t : State), s.cpl ≠ 0 → (∀ v, i ≠ .taskSwitchCR3 v) → exec i s = .next t →
    t.cr0 = s.cr0 ∧ t.cr3 = s.cr3 ∧ t.cr4 = s.cr4 ∧ t.efer = s.efer ∧
    (i ≠ .loadPDPTEs → t.pdpte = s.pdpte)

/-- R117: a general-protection exception has error code 0 and changes no state: every register and all of memory
are as before. -/
def Obligations.GeneralProtectionChangesNothing : Prop :=
  ∀ (i : Instr) (s t : State) (ec : Word), exec i s = .next t → t.answer = .exception 13 ec →
    s.answer = .done → ec = 0 ∧ t = { s with answer := .exception 13 0 }

/-! ## The step -/

/-- A step of a run that has not ended runs the instruction its input decodes to (log 1, 10): code bytes at the head
of the queue (`MOV CR2, r32` among them, log 27), an operation there, the three bytes fetched at an address the
surrounding model names, and the next entry of a walk in progress, which an input from outside comes before; with
nothing to do it is idle. R136: after a page fault or a general-protection exception it does nothing more (log 9). -/
def Obligations.StepRunsDecodedInstruction : Prop :=
  (∀ s : State, s.faulted = true → step s = .next s) ∧
  ∀ (s : State) (i : Instr) (rest : List Event), s.faulted = false →
    (∀ bs, s.walk = none → s.events = .code bs :: rest → decode .code bs = .ok i [] →
      step s = exec i { s with events := rest }) ∧
    (∀ bs r, s.walk = none → s.events = .code bs :: rest → decode .code bs = .movToCR2 r [] →
      step s = execMovToCR2 r { s with events := rest }) ∧
    (s.walk = none → s.events = .operation i :: rest → i.wf = true →
      step s = exec i { s with events := rest }) ∧
    (∀ la bs s1, s.walk = none → s.events = .runAt la :: rest →
      linLoad .fetch la 3 s.accessMode { s with events := rest } = .done bs s1 →
      (decode .code bs = .ok i [] → step s = exec i s1) ∧
      (∀ r, decode .code bs = .movToCR2 r [] → step s = execMovToCR2 r s1)) ∧
    (noExternalFirst s = true →
      (∀ la kind mode p, s.walk = some ⟨la, kind, mode, .pdptr⟩ →
        s.pdpte.select (laPdpteIndex la) = some p →
        decode .pdpteRegister (leBytes 8 p.toNat) = .ok i [] → step s = exec i s) ∧
      (∀ la kind mode a, s.walk = some ⟨la, kind, mode, .directory a⟩ →
        inRam s.cfg a.toNat 8 = true →
        decode .pageDirectory (s.mem.readBytes a.toNat 8) = .ok i [] → step s = exec i s) ∧
      (∀ la kind mode aE e a, s.walk = some ⟨la, kind, mode, .table aE e a⟩ →
        inRam s.cfg a.toNat 8 = true →
        decode .pageTable (s.mem.readBytes a.toNat 8) = .ok i [] → step s = exec i s)) ∧
    (∀ ev, s.events = ev :: rest → ev.external = true → step s = runEvent ev { s with events := rest }) ∧
    (s.walk = none → s.events = [] → step s = .next s)

/-- R132 (as an event, log 15): a speculative walk of `la`, at any step of a run that has not ended, changes nothing
but the A flag of one present entry on the path of `la`, which it sets; D is never set, and no byte changes in more
than bit 5. -/
def Obligations.SpeculationSetsOnlyAccessedFlags : Prop :=
  ∀ (s : State) (la : Word) (table : Bool) (rest : List Event), s.faulted = false →
    s.events = .speculate la table :: rest →
    ∃ m : Memory, step s = .next { s with events := rest, mem := m } ∧
      (m = s.mem ∨ ∃ a ∈ pathAddresses s la, inRam s.cfg a 8 = true ∧
        entryP (s.mem.readQuad a) = true ∧ m = s.mem.setAD a false) ∧
      (s.mem.wf = true → m.wf = true ∧ ∀ a, m.read a ||| 0x20 = s.mem.read a ||| 0x20) ∧
      (s.paeInUse = true → cr4CET s.cr4 = false → ∀ a, (pathAddresses s la)[if table then 1 else 0]? = some a →
        (∀ a' ∈ pathAddresses s la, inRam s.cfg a' 8 = true) → entryP (s.mem.readQuad a) = true →
        m = s.mem.setAD a false)

/-- R125 (as an event, log 16): another agent's write, at any step of a run that has not ended, changes the bytes it
writes and nothing else; no PDPTE register changes. -/
def Obligations.OtherAgentsWriteMemoryOnly : Prop :=
  ∀ (s : State) (pa : Nat) (bs : List Byte) (rest : List Event), s.mem.wf = true → s.faulted = false →
    s.events = .agentWrite pa bs :: rest → inRam s.cfg pa bs.length = true →
    ∃ m : Memory, step s = .next { s with events := rest, mem := m } ∧ m.wf = true ∧
      (∀ k, k < bs.length → some (m.read (pa + k)) = bs[k]?) ∧
      (∀ a, a < pa ∨ pa + bs.length ≤ a → m.read a = s.mem.read a)

/-- The invariant holds at reset, and in a state with paging already on that meets the launch premises of R129, whose
memory is canonical and in RAM, with no walk in progress and no flag the processor lacks. -/
def Obligations.InvariantAtReset : Prop :=
  Inv State.reset ∧
  ∀ (atLoad : Memory) (s : State), LaunchPremises atLoad s →
    s.mem.wf = true → memoryInRam s = true → s.walk = none → cr0PE s.cr0 = true →
    cr4Illegal s.cfg s.cr4 = false → (s.cfg.nxSupported = false → eferNXE s.efer = false) →
    (s.cfg.lmSupported = false → eferLME s.efer = false) → Inv s

/-- Every step keeps the invariant, from every state that has it: memory stays canonical and in RAM, paging
implies protection, CR4 and IA32_EFER hold no unsupported flag, and in PAE paging the PDPTE registers are loaded
with entries that have no reserved bit set (R17, R27, R35, R46, R81, R84, R127). -/
def Obligations.StepKeepsInvariant : Prop :=
  ∀ s t : State, Inv s → step s = .next t → Inv t

/-- R127: from every state with the invariant, no step reads an unloaded PDPTE register. R129: under the launch
premises every translation comes to an end: a physical address or a page fault. -/
def Obligations.NoUnloadedRegisterIsRead : Prop :=
  (∀ s : State, Inv s → step s ≠ .fault .unloadedPdpte) ∧
  ∀ (atLoad : Memory) (s : State) (la : Word) (kind : AccessKind) (mode : AccessMode),
    LaunchPremises atLoad s →
    ∃ t, exec (.translate la kind mode) s = .next t ∧
      ((∃ tr, t.answer = .translation tr) ∨ (∃ ec, t.answer = .exception 14 ec ∧ t.cr2 = la))

/-- R86, R49: a step changes the PDPTE registers only to the table in memory that CR3 names after it. -/
def Obligations.StepReloadsFromCurrentTable : Prop :=
  ∀ s t : State, step s = .next t → t.pdpte = s.pdpte ∨ t.pdpte = tableRegisters t t.cr3

/-! ## Encoding -/

/-- R60 to R64, R56, R57, R59, R75, R76: decoding the encoding of a well-formed instruction, at its place and with
anything after it, gives it back and leaves the rest; so does that of `MOV CR2, r32`, which has no row (log 27). -/
def Obligations.DecodeEncodeRoundTrip : Prop :=
  (∀ (i : Instr) (bs rest : List Byte), i.wf = true → encode i = some bs →
    ∃ p, i.place = some p ∧ decode p (bs ++ rest) = .ok i rest) ∧
  (∀ (r : Reg) (rest : List Byte), decode .code (encodeMovToCR2 r ++ rest) = .movToCR2 r rest)

/-- R68, R74: whatever the decoder reads is a well-formed row of that place, and outside machine code its bytes
are the encoding of it; in machine code they differ from it at most in the ignored mod bits (R75), and so do those
of `MOV CR2, r32` (log 27). -/
def Obligations.DecodedBytesAreTheEncoding : Prop :=
  (∀ (p : Place) (bs rest : List Byte) (i : Instr), decode p bs = .ok i rest →
    i.wf = true ∧ i.place = some p ∧
    (p ≠ .code → ∃ own, encode i = some own ∧ bs = own ++ rest) ∧
    (p = .code → ∃ b0 b1 m m', encode i = some [b0, b1, m] ∧ bs = b0 :: b1 :: m' :: rest ∧
      m = m' ||| 0xC0)) ∧
  (∀ (p : Place) (bs rest : List Byte) (r : Reg), decode p bs = .movToCR2 r rest →
    p = .code ∧ ∃ b0 b1 m m', encodeMovToCR2 r = [b0, b1, m] ∧ bs = b0 :: b1 :: m' :: rest ∧
      m = m' ||| 0xC0)

/-- R74: the mask and match of each structure-entry row decide the row, and every 64-bit value at each of the
three places decodes (R68). -/
def Obligations.EntryDecoderMasks : Prop :=
  ∀ e : Quad,
    (e &&& 0x1 = 0x0 → decodePdpte e = .pdpteNotPresent e) ∧
    (e &&& 0x1 = 0x1 → decodePdpte e = .pdpte e) ∧
    (e &&& 0x1 = 0x0 → decodePde e = .pdeNotPresent e) ∧
    (e &&& 0x81 = 0x81 → decodePde e = .pde2M e) ∧
    (e &&& 0x81 = 0x01 → decodePde e = .pdePT e) ∧
    (e &&& 0x1 = 0x0 → decodePte e = .pteNotPresent e) ∧
    (e &&& 0x1 = 0x1 → decodePte e = .pte4K e)

/-- R75, R76 and the worked entries of 95_test_vectors.md section 2: a few words written out decode to the row they
stand for; `0F 22 D0`, written from R75 with n = 2, has no row and decodes to `MOV CR2, r32` (the model's choice,
log 27). -/
def Obligations.SampleWordsDecode : Prop :=
  decode .code [0x0F, 0x22, 0xC0] = .ok (.movToCR0 (.reg .eax)) [] ∧
  decode .code [0x0F, 0x22, 0xD8] = .ok (.movToCR3 (.reg .eax)) [] ∧
  decode .code [0x0F, 0x22, 0xD9] = .ok (.movToCR3 (.reg .ecx)) [] ∧
  decode .code [0x0F, 0x22, 0xE0] = .ok (.movToCR4 (.reg .eax)) [] ∧
  decode .code [0x0F, 0x22, 0xD0] = .movToCR2 .eax [] ∧
  decode .code [0x0F, 0x20, 0xD8] = .ok (.movFromCR3 .eax) [] ∧
  decode .pageDirectory [0x07, 0x40, 0x10, 0, 0, 0, 0, 0] = .ok (.pdePT 0x104007) [] ∧
  decode .pageDirectory [0xE1, 0, 0x60, 0xC0, 0, 0, 0, 0x80] = .ok (.pde2M 0x80000000C06000E1) [] ∧
  decode .pageTable [0x07, 0x50, 0xDE, 0xBC, 0x0A, 0, 0, 0] = .ok (.pte4K 0xABCDE5007) []
end

