-- ==== Sys2Proof/Laws/Bits.lean ====
section
/-! SUPPORT. Bits: a slice bit by bit, and bytes and numbers as inverses of each other. -/

namespace Sys2Proof

theorem getLsbD_slice {w : Nat} (hi lo : Nat) (v : BitVec w) (j : Nat) (hlo : lo ≤ hi) :
    (slice hi lo v).getLsbD j = (decide (j + lo ≤ hi) && v.getLsbD (j + lo)) := by
  unfold slice
  simp only [BitVec.getLsbD_and, BitVec.getLsbD_ushiftRight, BitVec.getLsbD_ofNat,
    Nat.testBit_two_pow_sub_one]
  rw [Nat.add_comm lo j]
  by_cases hv : v.getLsbD (j + lo) = true
  · have hw : j + lo < w := BitVec.lt_of_getLsbD hv
    have h1 : (decide (j < w)) = true := by simp; omega
    have h2 : (decide (j < hi + 1 - lo)) = decide (j + lo ≤ hi) := by
      apply decide_eq_decide.mpr; omega
    rw [hv, h1, h2]; simp
  · simp at hv; simp [hv]

theorem slice_ne_zero_iff {w : Nat} (hi lo : Nat) (v : BitVec w) (hlo : lo ≤ hi) :
    slice hi lo v ≠ 0 ↔ ∃ j, lo ≤ j ∧ j ≤ hi ∧ v.getLsbD j = true := by
  constructor
  · intro h
    by_contra hc
    apply h
    apply BitVec.eq_of_getLsbD_eq
    intro j _
    rw [getLsbD_slice hi lo v j hlo]
    by_cases hj : j + lo ≤ hi
    · have : v.getLsbD (j + lo) = false := by
        by_contra hv
        exact hc ⟨j + lo, by omega, hj, by simpa using hv⟩
      simp [this]
    · simp [hj]
  · rintro ⟨j, h1, h2, hv⟩ h
    have := congrArg (fun x => x.getLsbD (j - lo)) h
    simp only [getLsbD_slice hi lo v (j - lo) hlo] at this
    rw [show j - lo + lo = j by omega] at this
    simp [h2, hv] at this

theorem length_leBytes (n v : Nat) : (leBytes n v).length = n := by
  induction n generalizing v with
  | zero => rfl
  | succ n ih => simp [leBytes, ih]

theorem leNat_leBytes (n v : Nat) : leNat (leBytes n v) = v % 256 ^ n := by
  induction n generalizing v with
  | zero => simp [leBytes, leNat, Nat.mod_one]
  | succ n ih =>
    simp only [leBytes, leNat, ih, BitVec.toNat_ofNat]
    rw [show 256 ^ (n + 1) = 256 * 256 ^ n from Nat.pow_succ', Nat.mod_mul]

theorem leNat_lt (bs : List Byte) : leNat bs < 256 ^ bs.length := by
  induction bs with
  | nil => simp [leNat]
  | cons b bs ih =>
    simp only [leNat, List.length_cons, Nat.pow_succ]
    have := b.isLt
    omega

theorem leBytes_leNat (bs : List Byte) : leBytes bs.length (leNat bs) = bs := by
  induction bs with
  | nil => rfl
  | cons b bs ih =>
    have hb := b.isLt
    simp only [List.length_cons, leBytes, leNat]
    rw [show (b.toNat + 256 * leNat bs) / 256 = leNat bs by omega, ih]
    congr 1
    apply BitVec.eq_of_toNat_eq
    simp only [BitVec.toNat_ofNat]
    omega

theorem leNat_append (as bs : List Byte) :
    leNat (as ++ bs) = leNat as + 256 ^ as.length * leNat bs := by
  induction as with
  | nil => simp [leNat]
  | cons a as ih =>
    simp only [List.cons_append, leNat, ih, List.length_cons, Nat.pow_succ]
    ring

/-- Byte `k` of a number spelled by bytes. -/
theorem leBytes_getElem? (n v k : Nat) (h : k < n) :
    (leBytes n v)[k]? = some (BitVec.ofNat 8 (v / 256 ^ k)) := by
  induction n generalizing v k with
  | zero => omega
  | succ n ih =>
    cases k with
    | zero => simp [leBytes]
    | succ k =>
      simp only [leBytes, List.getElem?_cons_succ]
      rw [ih _ _ (by omega), Nat.div_div_eq_div_mul, Nat.pow_succ, Nat.mul_comm]

/-- Eight bytes of a quad spell it again. -/
theorem ofNat_leNat_leBytes_quad (q : Quad) : BitVec.ofNat 64 (leNat (leBytes 8 q.toNat)) = q := by
  rw [leNat_leBytes, Nat.mod_eq_of_lt (by have := q.isLt; omega), BitVec.ofNat_toNat,
    BitVec.setWidth_eq]

theorem ofNat_leNat_leBytes_word (v : Word) : BitVec.ofNat 32 (leNat (leBytes 4 v.toNat)) = v := by
  rw [leNat_leBytes, Nat.mod_eq_of_lt (by have := v.isLt; omega), BitVec.ofNat_toNat,
    BitVec.setWidth_eq]

theorem Reg.ofBits_toBits (r : Reg) : Reg.ofBits r.toBits = r := by cases r <;> rfl

theorem Reg.toBits_ofBits (n : BitVec 3) : (Reg.ofBits n).toBits = n := by
  revert n; decide

end Sys2Proof
end

