-- ==== Sys2Proof/Laws/Memory.lean ====
section
/-! SUPPORT. Memory: read after write, frames, and that every memory operation keeps the canonical form. -/

namespace Sys2Proof.Machine

namespace Memory

/-! ## The canonical form -/

theorem wfFrom_mono {lo lo' : Nat} {m : Memory} (h : lo' ≤ lo) (hm : wfFrom lo m = true) :
    wfFrom lo' m = true := by
  cases m with
  | nil => rfl
  | cons c m =>
    simp only [wfFrom, Bool.and_eq_true, decide_eq_true_eq] at hm ⊢
    exact ⟨⟨by omega, hm.1.2⟩, hm.2⟩

theorem wfFrom_write {lo a : Nat} {m : Memory} {v : Byte} (hm : wfFrom lo m = true) (ha : lo ≤ a) :
    wfFrom lo (m.write a v) = true := by
  induction m generalizing lo with
  | nil =>
    simp only [write]
    split
    · rfl
    · rename_i h
      simp [wfFrom, ha, h]
  | cons c m ih =>
    obtain ⟨k, b⟩ := c
    simp only [wfFrom, Bool.and_eq_true, decide_eq_true_eq] at hm
    obtain ⟨⟨hk, hb⟩, hrest⟩ := hm
    simp only [write]
    split
    · split
      · simp [wfFrom, hk, hb, hrest]
      · rename_i hak hv
        simp only [wfFrom, Bool.and_eq_true, decide_eq_true_eq]
        exact ⟨⟨ha, hv⟩, ⟨by omega, hb⟩, hrest⟩
    · split
      · rename_i _ hak
        subst hak
        split
        · exact wfFrom_mono (by omega) hrest
        · rename_i hv
          simp only [wfFrom, Bool.and_eq_true, decide_eq_true_eq]
          exact ⟨⟨ha, hv⟩, hrest⟩
      · simp only [wfFrom, Bool.and_eq_true, decide_eq_true_eq]
        exact ⟨⟨hk, hb⟩, ih hrest (by omega)⟩

theorem wf_write {m : Memory} (hm : m.wf = true) (a : Nat) (v : Byte) : (m.write a v).wf = true :=
  wfFrom_write hm (Nat.zero_le a)

theorem wf_writeBytes {m : Memory} (hm : m.wf = true) (a : Nat) (bs : List Byte) :
    (m.writeBytes a bs).wf = true := by
  induction bs generalizing m a with
  | nil => exact hm
  | cons b bs ih => exact ih (wf_write hm a b) (a + 1)

theorem wf_writeQuad {m : Memory} (hm : m.wf = true) (a : Nat) (v : Quad) :
    (m.writeQuad a v).wf = true := wf_writeBytes hm a _

theorem wf_setAD {m : Memory} (hm : m.wf = true) (a : Nat) (d : Bool) : (m.setAD a d).wf = true := by
  unfold setAD
  simp only
  split
  · exact hm
  · exact wf_writeQuad hm a _

/-! ## Read after write -/

theorem read_of_wfFrom_lt {lo a : Nat} {m : Memory} (hm : wfFrom lo m = true) (ha : a < lo) :
    m.read a = unlisted := by
  induction m generalizing lo with
  | nil => rfl
  | cons c m ih =>
    obtain ⟨k, b⟩ := c
    simp only [wfFrom, Bool.and_eq_true, decide_eq_true_eq] at hm
    simp only [read]
    rw [if_neg (by omega)]
    exact ih hm.2 (by omega)

theorem read_write_same {m : Memory} (hm : m.wf = true) (a : Nat) (v : Byte) :
    (m.write a v).read a = v := by
  have key : ∀ {lo : Nat} {m : Memory}, wfFrom lo m = true → (m.write a v).read a = v := by
    intro lo m hm
    induction m generalizing lo with
    | nil =>
      simp only [write]
      split
      · rename_i h; simp [read, h]
      · simp [read]
    | cons c m ih =>
      obtain ⟨k, b⟩ := c
      simp only [wfFrom, Bool.and_eq_true, decide_eq_true_eq] at hm
      simp only [write]
      split
      · split
        · rename_i hak hv
          simp only [read]
          rw [if_neg (by omega), read_of_wfFrom_lt hm.2 (by omega), hv]
        · simp [read]
      · split
        · rename_i _ hak
          split
          · rename_i hv
            rw [read_of_wfFrom_lt hm.2 (by omega), hv]
          · simp [read]
        · simp only [read]
          rw [if_neg (by omega)]
          exact ih hm.2
  exact key hm

/-- A write leaves every other address alone, in any memory. -/
theorem read_write_other (m : Memory) {a b : Nat} (v : Byte) (h : b ≠ a) :
    (m.write a v).read b = m.read b := by
  induction m with
  | nil =>
    simp only [write]
    split
    · rfl
    · simp [read, Ne.symm h]
  | cons c m ih =>
    obtain ⟨k, w⟩ := c
    simp only [write]
    split
    · split
      · rfl
      · simp [read, Ne.symm h]
    · split
      · rename_i _ hak
        subst hak
        split
        · simp [read, Ne.symm h]
        · simp [read, Ne.symm h]
      · simp only [read]
        split
        · rfl
        · exact ih

theorem read_writeBytes_outside (m : Memory) (a : Nat) (bs : List Byte) (b : Nat)
    (h : b < a ∨ a + bs.length ≤ b) : (m.writeBytes a bs).read b = m.read b := by
  induction bs generalizing m a with
  | nil => rfl
  | cons x bs ih =>
    simp only [List.length_cons] at h
    simp only [writeBytes]
    rw [ih _ _ (by omega), read_write_other _ _ (by omega)]

theorem read_writeBytes_inside {m : Memory} (hm : m.wf = true) (a : Nat) (bs : List Byte) (k : Nat)
    (h : k < bs.length) : (m.writeBytes a bs).read (a + k) = bs[k] := by
  induction bs generalizing m a k with
  | nil => simp at h
  | cons x bs ih =>
    simp only [writeBytes]
    cases k with
    | zero =>
      rw [read_writeBytes_outside _ _ _ _ (by omega)]
      simpa using read_write_same hm a x
    | succ k =>
      have := ih (wf_write hm a x) (a + 1) k (by simpa using h)
      rw [show a + (k + 1) = a + 1 + k by omega, this]
      simp

/-! ## Blocks of bytes -/

theorem length_readBytes (m : Memory) (a n : Nat) : (m.readBytes a n).length = n := by
  induction n generalizing a with
  | zero => rfl
  | succ n ih => simp [readBytes, ih]

theorem getElem?_readBytes (m : Memory) (a n k : Nat) (h : k < n) :
    (m.readBytes a n)[k]? = some (m.read (a + k)) := by
  induction n generalizing a k with
  | zero => omega
  | succ n ih =>
    cases k with
    | zero => simp [readBytes]
    | succ k =>
      simp only [readBytes, List.getElem?_cons_succ]
      rw [ih (a + 1) k (by omega), show a + 1 + k = a + (k + 1) by omega]

theorem readBytes_congr {m m' : Memory} {a n : Nat}
    (h : ∀ b, a ≤ b → b < a + n → m.read b = m'.read b) : m.readBytes a n = m'.readBytes a n := by
  induction n generalizing a with
  | zero => rfl
  | succ n ih =>
    simp only [readBytes]
    rw [h a (by omega) (by omega), ih (fun b h1 h2 => h b (by omega) (by omega))]

theorem readBytes_writeBytes_same {m : Memory} (hm : m.wf = true) (a : Nat) (bs : List Byte) :
    (m.writeBytes a bs).readBytes a bs.length = bs := by
  apply List.ext_getElem?
  intro k
  by_cases hk : k < bs.length
  · rw [getElem?_readBytes _ _ _ _ hk, read_writeBytes_inside hm a bs k hk, List.getElem?_eq_getElem hk]
  · rw [List.getElem?_eq_none (by rw [length_readBytes]; omega),
      List.getElem?_eq_none (by omega)]

theorem readQuad_congr {m m' : Memory} {a : Nat}
    (h : ∀ b, a ≤ b → b < a + 8 → m.read b = m'.read b) : m.readQuad a = m'.readQuad a := by
  unfold readQuad
  rw [readBytes_congr h]

theorem readQuad_writeQuad_same {m : Memory} (hm : m.wf = true) (a : Nat) (v : Quad) :
    (m.writeQuad a v).readQuad a = v := by
  unfold readQuad writeQuad
  have h := readBytes_writeBytes_same hm a (leBytes 8 v.toNat)
  rw [length_leBytes] at h
  rw [h, ofNat_leNat_leBytes_quad]

theorem read_writeQuad_outside (m : Memory) (a : Nat) (v : Quad) (b : Nat)
    (h : b < a ∨ a + 8 ≤ b) : (m.writeQuad a v).read b = m.read b := by
  unfold writeQuad
  exact read_writeBytes_outside m a _ b (by rw [length_leBytes]; exact h)

theorem readQuad_writeQuad_outside (m : Memory) (a : Nat) (v : Quad) (b : Nat)
    (h : b + 8 ≤ a ∨ a + 8 ≤ b) : (m.writeQuad a v).readQuad b = m.readQuad b :=
  readQuad_congr fun x h1 h2 => read_writeQuad_outside m a v x (by omega)

/-- Byte `k` of an entry is the byte at its address plus `k` (R41). -/
theorem read_eq_readQuad (m : Memory) (a k : Nat) (h : k < 8) :
    m.read (a + k) = BitVec.ofNat 8 ((m.readQuad a).toNat / 256 ^ k) := by
  have h1 : leBytes 8 (m.readQuad a).toNat = m.readBytes a 8 := by
    unfold readQuad
    have hl := length_readBytes m a 8
    have hlt := leNat_lt (m.readBytes a 8)
    rw [hl] at hlt
    rw [BitVec.toNat_ofNat, Nat.mod_eq_of_lt (by omega)]
    have := leBytes_leNat (m.readBytes a 8)
    rwa [hl] at this
  have h2 := getElem?_readBytes m a 8 k h
  rw [← h1, leBytes_getElem? 8 _ k h] at h2
  exact (Option.some.inj h2).symm

/-! ## The flags of an entry -/

theorem setAD_of_eq {m : Memory} {a : Nat} {d : Bool} (h : withAD d (m.readQuad a) = m.readQuad a) :
    m.setAD a d = m := by
  unfold setAD
  simp [h]

theorem readQuad_setAD_same {m : Memory} (hm : m.wf = true) (a : Nat) (d : Bool) :
    (m.setAD a d).readQuad a = withAD d (m.readQuad a) := by
  unfold setAD
  simp only
  split
  · rename_i h; exact h.symm
  · exact readQuad_writeQuad_same hm a _

theorem readQuad_setAD_outside (m : Memory) (a b : Nat) (d : Bool) (h : b + 8 ≤ a ∨ a + 8 ≤ b) :
    (m.setAD a d).readQuad b = m.readQuad b := by
  unfold setAD
  simp only
  split
  · rfl
  · exact readQuad_writeQuad_outside m a _ b h

theorem getLsbD_withAD (d : Bool) (e : Quad) (j : Nat) :
    (withAD d e).getLsbD j = (e.getLsbD j || decide (j = 5) || (d && decide (j = 6))) := by
  have h5 : (0x20 : Quad).getLsbD j = decide (j = 5) := by
    by_cases hj : j < 64
    · have : ∀ j, j < 64 → (0x20 : Quad).getLsbD j = decide (j = 5) := by decide
      exact this j hj
    · rw [BitVec.getLsbD_of_ge _ _ (by omega)]; simp; omega
  have h6 : (0x40 : Quad).getLsbD j = decide (j = 6) := by
    by_cases hj : j < 64
    · have : ∀ j, j < 64 → (0x40 : Quad).getLsbD j = decide (j = 6) := by decide
      exact this j hj
    · rw [BitVec.getLsbD_of_ge _ _ (by omega)]; simp; omega
  unfold withAD
  cases d
  · simp only [BitVec.getLsbD_or, h5]; simp
  · simp only [BitVec.getLsbD_or, h5, if_true, h6, Bool.true_and]

/-- Setting A and D changes bits 5 and 6 of the first byte of the entry only (R104, R105). -/
theorem read_setAD {m : Memory} (hm : m.wf = true) (a b : Nat) (d : Bool) :
    (m.setAD a d).read b =
      if b = a then m.read a ||| 0x20 ||| (if d then 0x40 else 0) else m.read b := by
  by_cases hout : b < a ∨ a + 8 ≤ b
  · rw [if_neg (by omega)]
    unfold setAD
    simp only
    split
    · rfl
    · exact read_writeQuad_outside m a _ b hout
  · obtain ⟨k, hk, rfl⟩ : ∃ k, k < 8 ∧ b = a + k := ⟨b - a, by omega, by omega⟩
    have byte : ∀ (q : Quad) (j : Nat), j < 8 →
        (BitVec.ofNat 8 (q.toNat / 256 ^ k)).getLsbD j = q.getLsbD (8 * k + j) := by
      intro q j hj
      rw [BitVec.getLsbD_ofNat, show (256 : Nat) = 2 ^ 8 by rfl, ← Nat.pow_mul, Nat.testBit_div_two_pow,
        decide_eq_true hj, Bool.true_and, Nat.add_comm]
      rfl
    have h20 : ∀ j, j < 8 → (0x20 : Byte).getLsbD j = decide (j = 5) := by decide
    have h40 : ∀ j, j < 8 → (0x40 : Byte).getLsbD j = decide (j = 6) := by decide
    rw [read_eq_readQuad _ _ _ hk, readQuad_setAD_same hm]
    by_cases h0 : k = 0
    · rw [if_pos (by omega), show m.read a = m.read (a + k) by rw [h0]; rfl,
        read_eq_readQuad m a k hk]
      apply BitVec.eq_of_getLsbD_eq
      intro j hj
      rw [byte _ _ hj, getLsbD_withAD]
      cases d
      · simp only [BitVec.getLsbD_or, h20 j hj, h0]; simp [hj]
      · simp only [BitVec.getLsbD_or, h20 j hj, if_true, h40 j hj, h0]; simp [hj]
    · rw [if_neg (by omega), read_eq_readQuad m a k hk]
      apply BitVec.eq_of_getLsbD_eq
      intro j hj
      rw [byte _ _ hj, byte _ _ hj, getLsbD_withAD, decide_eq_false (by omega),
        decide_eq_false (by omega)]
      simp

end Memory

/-! ## RAM -/

theorem inRam_iff (c : Config) (a n : Nat) :
    inRam c a n = true ↔ ∀ b, a ≤ b → b < a + n → hasRam c b = true := by
  induction n generalizing a with
  | zero => simp [inRam]; omega
  | succ n ih =>
    simp only [inRam, Bool.and_eq_true, ih]
    constructor
    · rintro ⟨h0, h1⟩ b hb1 hb2
      rcases Nat.eq_or_lt_of_le hb1 with rfl | hlt
      · exact h0
      · exact h1 b hlt (by omega)
    · intro h
      exact ⟨h a (Nat.le_refl a) (by omega), fun b hb1 hb2 => h b (by omega) (by omega)⟩

/-- The addresses a write lists are the old ones and the one written. -/
theorem Memory.all_write {p : Nat → Bool} {m : Memory} {a : Nat} {v : Byte}
    (hm : m.all (fun c => p c.1) = true) (ha : p a = true) :
    (m.write a v).all (fun c => p c.1) = true := by
  induction m with
  | nil =>
    simp only [Memory.write]
    split <;> simp [ha]
  | cons c m ih =>
    obtain ⟨k, b⟩ := c
    simp only [List.all_cons, Bool.and_eq_true] at hm
    simp only [Memory.write]
    split
    · split <;> simp [ha, hm.1, hm.2]
    · split
      · split <;> simp [ha, hm.2]
      · simp [hm.1, ih hm.2]

theorem Memory.all_writeBytes {c : Config} {m : Memory} {a : Nat} {bs : List Byte}
    (hm : m.all (fun x => hasRam c x.1) = true) (ha : inRam c a bs.length = true) :
    (m.writeBytes a bs).all (fun x => hasRam c x.1) = true := by
  induction bs generalizing m a with
  | nil => exact hm
  | cons b bs ih =>
    simp only [List.length_cons, inRam, Bool.and_eq_true] at ha
    exact ih (Memory.all_write hm ha.1) ha.2

theorem Memory.all_setAD {c : Config} {m : Memory} {a : Nat} {d : Bool}
    (hm : m.all (fun x => hasRam c x.1) = true) (ha : inRam c a 8 = true) :
    (m.setAD a d).all (fun x => hasRam c x.1) = true := by
  unfold Memory.setAD
  simp only
  split
  · exact hm
  · exact Memory.all_writeBytes hm (by rw [length_leBytes]; exact ha)

end Sys2Proof.Machine
end

