-- ==== Sys2Proof/Laws/State.lean ====
section
/-! SUPPORT. State: what each named update of the state leaves in each field, and the general registers. -/

namespace Sys2Proof.Machine

variable (s : State)

/-! ## An exception is handed over -/

@[simp] theorem takeException_cfg (vector : Byte) (ec : Word) : (takeException vector ec s).cfg = s.cfg := rfl
@[simp] theorem takeException_gpr (vector : Byte) (ec : Word) : (takeException vector ec s).gpr = s.gpr := rfl
@[simp] theorem takeException_cr0 (vector : Byte) (ec : Word) : (takeException vector ec s).cr0 = s.cr0 := rfl
@[simp] theorem takeException_cr2 (vector : Byte) (ec : Word) : (takeException vector ec s).cr2 = s.cr2 := rfl
@[simp] theorem takeException_cr3 (vector : Byte) (ec : Word) : (takeException vector ec s).cr3 = s.cr3 := rfl
@[simp] theorem takeException_cr4 (vector : Byte) (ec : Word) : (takeException vector ec s).cr4 = s.cr4 := rfl
@[simp] theorem takeException_efer (vector : Byte) (ec : Word) : (takeException vector ec s).efer = s.efer := rfl
@[simp] theorem takeException_eflags (vector : Byte) (ec : Word) : (takeException vector ec s).eflags = s.eflags := rfl
@[simp] theorem takeException_cpl (vector : Byte) (ec : Word) : (takeException vector ec s).cpl = s.cpl := rfl
@[simp] theorem takeException_pdpte (vector : Byte) (ec : Word) : (takeException vector ec s).pdpte = s.pdpte := rfl
@[simp] theorem takeException_mem (vector : Byte) (ec : Word) : (takeException vector ec s).mem = s.mem := rfl
@[simp] theorem takeException_events (vector : Byte) (ec : Word) : (takeException vector ec s).events = s.events := rfl
@[simp] theorem takeException_walk (vector : Byte) (ec : Word) : (takeException vector ec s).walk = s.walk := rfl
@[simp] theorem takeException_draws (vector : Byte) (ec : Word) : (takeException vector ec s).draws = s.draws := rfl
@[simp] theorem takeException_answer (vector : Byte) (ec : Word) : (takeException vector ec s).answer = .exception vector ec := rfl

/-! ## A page fault is taken -/

@[simp] theorem takePageFault_cfg (ec la : Word) : (takePageFault ec la s).cfg = s.cfg := rfl
@[simp] theorem takePageFault_gpr (ec la : Word) : (takePageFault ec la s).gpr = s.gpr := rfl
@[simp] theorem takePageFault_cr0 (ec la : Word) : (takePageFault ec la s).cr0 = s.cr0 := rfl
@[simp] theorem takePageFault_cr2 (ec la : Word) : (takePageFault ec la s).cr2 = la := rfl
@[simp] theorem takePageFault_cr3 (ec la : Word) : (takePageFault ec la s).cr3 = s.cr3 := rfl
@[simp] theorem takePageFault_cr4 (ec la : Word) : (takePageFault ec la s).cr4 = s.cr4 := rfl
@[simp] theorem takePageFault_efer (ec la : Word) : (takePageFault ec la s).efer = s.efer := rfl
@[simp] theorem takePageFault_eflags (ec la : Word) : (takePageFault ec la s).eflags = s.eflags := rfl
@[simp] theorem takePageFault_cpl (ec la : Word) : (takePageFault ec la s).cpl = s.cpl := rfl
@[simp] theorem takePageFault_pdpte (ec la : Word) : (takePageFault ec la s).pdpte = s.pdpte := rfl
@[simp] theorem takePageFault_mem (ec la : Word) : (takePageFault ec la s).mem = s.mem := rfl
@[simp] theorem takePageFault_events (ec la : Word) : (takePageFault ec la s).events = s.events := rfl
@[simp] theorem takePageFault_walk (ec la : Word) : (takePageFault ec la s).walk = s.walk := rfl
@[simp] theorem takePageFault_draws (ec la : Word) : (takePageFault ec la s).draws = s.draws := rfl
@[simp] theorem takePageFault_answer (ec la : Word) : (takePageFault ec la s).answer = .exception 14 ec := rfl

/-! ## A general-protection exception is taken -/

@[simp] theorem takeGeneralProtection_cfg : (takeGeneralProtection s).cfg = s.cfg := rfl
@[simp] theorem takeGeneralProtection_gpr : (takeGeneralProtection s).gpr = s.gpr := rfl
@[simp] theorem takeGeneralProtection_cr0 : (takeGeneralProtection s).cr0 = s.cr0 := rfl
@[simp] theorem takeGeneralProtection_cr2 : (takeGeneralProtection s).cr2 = s.cr2 := rfl
@[simp] theorem takeGeneralProtection_cr3 : (takeGeneralProtection s).cr3 = s.cr3 := rfl
@[simp] theorem takeGeneralProtection_cr4 : (takeGeneralProtection s).cr4 = s.cr4 := rfl
@[simp] theorem takeGeneralProtection_efer : (takeGeneralProtection s).efer = s.efer := rfl
@[simp] theorem takeGeneralProtection_eflags : (takeGeneralProtection s).eflags = s.eflags := rfl
@[simp] theorem takeGeneralProtection_cpl : (takeGeneralProtection s).cpl = s.cpl := rfl
@[simp] theorem takeGeneralProtection_pdpte : (takeGeneralProtection s).pdpte = s.pdpte := rfl
@[simp] theorem takeGeneralProtection_mem : (takeGeneralProtection s).mem = s.mem := rfl
@[simp] theorem takeGeneralProtection_events : (takeGeneralProtection s).events = s.events := rfl
@[simp] theorem takeGeneralProtection_walk : (takeGeneralProtection s).walk = s.walk := rfl
@[simp] theorem takeGeneralProtection_draws : (takeGeneralProtection s).draws = s.draws := rfl
@[simp] theorem takeGeneralProtection_answer : (takeGeneralProtection s).answer = .exception 13 0 := rfl

/-! ## The flags of an entry are set -/

@[simp] theorem State.setAD_cfg (a : Quad) (dirty : Bool) : (s.setAD a dirty).cfg = s.cfg := rfl
@[simp] theorem State.setAD_gpr (a : Quad) (dirty : Bool) : (s.setAD a dirty).gpr = s.gpr := rfl
@[simp] theorem State.setAD_cr0 (a : Quad) (dirty : Bool) : (s.setAD a dirty).cr0 = s.cr0 := rfl
@[simp] theorem State.setAD_cr2 (a : Quad) (dirty : Bool) : (s.setAD a dirty).cr2 = s.cr2 := rfl
@[simp] theorem State.setAD_cr3 (a : Quad) (dirty : Bool) : (s.setAD a dirty).cr3 = s.cr3 := rfl
@[simp] theorem State.setAD_cr4 (a : Quad) (dirty : Bool) : (s.setAD a dirty).cr4 = s.cr4 := rfl
@[simp] theorem State.setAD_efer (a : Quad) (dirty : Bool) : (s.setAD a dirty).efer = s.efer := rfl
@[simp] theorem State.setAD_eflags (a : Quad) (dirty : Bool) : (s.setAD a dirty).eflags = s.eflags := rfl
@[simp] theorem State.setAD_cpl (a : Quad) (dirty : Bool) : (s.setAD a dirty).cpl = s.cpl := rfl
@[simp] theorem State.setAD_pdpte (a : Quad) (dirty : Bool) : (s.setAD a dirty).pdpte = s.pdpte := rfl
@[simp] theorem State.setAD_mem (a : Quad) (dirty : Bool) : (s.setAD a dirty).mem = s.mem.setAD a.toNat dirty := rfl
@[simp] theorem State.setAD_events (a : Quad) (dirty : Bool) : (s.setAD a dirty).events = s.events := rfl
@[simp] theorem State.setAD_walk (a : Quad) (dirty : Bool) : (s.setAD a dirty).walk = s.walk := rfl
@[simp] theorem State.setAD_draws (a : Quad) (dirty : Bool) : (s.setAD a dirty).draws = s.draws := rfl
@[simp] theorem State.setAD_answer (a : Quad) (dirty : Bool) : (s.setAD a dirty).answer = s.answer := rfl

/-! ## The draw of a passed entry -/

@[simp] theorem State.drawAccessed_cfg (a : Quad) : (s.drawAccessed a).cfg = s.cfg := rfl
@[simp] theorem State.drawAccessed_gpr (a : Quad) : (s.drawAccessed a).gpr = s.gpr := rfl
@[simp] theorem State.drawAccessed_cr0 (a : Quad) : (s.drawAccessed a).cr0 = s.cr0 := rfl
@[simp] theorem State.drawAccessed_cr2 (a : Quad) : (s.drawAccessed a).cr2 = s.cr2 := rfl
@[simp] theorem State.drawAccessed_cr3 (a : Quad) : (s.drawAccessed a).cr3 = s.cr3 := rfl
@[simp] theorem State.drawAccessed_cr4 (a : Quad) : (s.drawAccessed a).cr4 = s.cr4 := rfl
@[simp] theorem State.drawAccessed_efer (a : Quad) : (s.drawAccessed a).efer = s.efer := rfl
@[simp] theorem State.drawAccessed_eflags (a : Quad) : (s.drawAccessed a).eflags = s.eflags := rfl
@[simp] theorem State.drawAccessed_cpl (a : Quad) : (s.drawAccessed a).cpl = s.cpl := rfl
@[simp] theorem State.drawAccessed_pdpte (a : Quad) : (s.drawAccessed a).pdpte = s.pdpte := rfl
@[simp] theorem State.drawAccessed_mem (a : Quad) : (s.drawAccessed a).mem = (if Config.freeBit s.draws then s.mem.setAD a.toNat false else s.mem) := rfl
@[simp] theorem State.drawAccessed_events (a : Quad) : (s.drawAccessed a).events = s.events := rfl
@[simp] theorem State.drawAccessed_walk (a : Quad) : (s.drawAccessed a).walk = s.walk := rfl
@[simp] theorem State.drawAccessed_draws (a : Quad) : (s.drawAccessed a).draws = s.draws + 1 := rfl
@[simp] theorem State.drawAccessed_answer (a : Quad) : (s.drawAccessed a).answer = s.answer := rfl

/-! ## Derived readings under a change of memory -/

@[simp] theorem State.setAD_nxe (a : Quad) (dirty : Bool) : (s.setAD a dirty).nxe = s.nxe := rfl
@[simp] theorem State.drawAccessed_nxe (a : Quad) : (s.drawAccessed a).nxe = s.nxe := rfl
@[simp] theorem State.setAD_paeInUse (a : Quad) (dirty : Bool) :
    (s.setAD a dirty).paeInUse = s.paeInUse := rfl
@[simp] theorem State.drawAccessed_paeInUse (a : Quad) :
    (s.drawAccessed a).paeInUse = s.paeInUse := rfl
@[simp] theorem takePageFault_paeInUse (ec la : Word) :
    (takePageFault ec la s).paeInUse = s.paeInUse := rfl
@[simp] theorem takeGeneralProtection_paeInUse :
    (takeGeneralProtection s).paeInUse = s.paeInUse := rfl

/-! ## General registers -/

@[simp] theorem Gprs.read_write_same (g : Gprs) (r : Reg) (v : Word) : (g.write r v).read r = v := by
  cases r <;> rfl

theorem Gprs.read_write_other (g : Gprs) {r q : Reg} (v : Word) (h : q ≠ r) :
    (g.write r v).read q = g.read q := by
  cases r <;> cases q <;> first | rfl | exact absurd rfl h

end Sys2Proof.Machine
end

