-- ==== Sys2Proof/Laws/Ops.lean ====
section
/-! SUPPORT. Ops: for each shared operation, once, everything it can do: the two ends of a translation, the
flags-only change of memory and its closure over the chunks of an access, the load of the PDPTE registers, the end
of a move, and the end of an operation. -/

namespace Sys2Proof.Machine

open Sys2Proof.Safety

/-! ## The end of an operation -/

theorem Access.finish_eq_next {α : Type} {x : Access α} {f : α → Answer} {t : State}
    (h : x.finish f = .next t) :
    (∃ a s, x = .done a s ∧ t = { s with answer := f a }) ∨
    (∃ ec la s, x = .pageFault ec la s ∧ t = takePageFault ec la s) := by
  cases x with
  | done a s => exact .inl ⟨a, s, rfl, by simpa [Access.finish] using h.symm⟩
  | pageFault ec la s => exact .inr ⟨ec, la, s, rfl, by simpa [Access.finish] using h.symm⟩
  | stuck e => simp [Access.finish] at h
  | refused r => simp [Access.finish] at h

theorem Access.bind_eq_done {α β : Type} {x : Access α} {f : α → State → Access β} {b : β} {t : State}
    (h : x.bind f = .done b t) : ∃ a s, x = .done a s ∧ f a s = .done b t := by
  cases x with
  | done a s => exact ⟨a, s, rfl, h⟩
  | pageFault ec la s => simp [Access.bind] at h
  | stuck e => simp [Access.bind] at h
  | refused r => simp [Access.bind] at h

theorem Access.bind_eq_pageFault {α β : Type} {x : Access α} {f : α → State → Access β}
    {ec la : Word} {t : State} (h : x.bind f = .pageFault ec la t) :
    x = .pageFault ec la t ∨ ∃ a s, x = .done a s ∧ f a s = .pageFault ec la t := by
  cases x with
  | done a s => exact .inr ⟨a, s, rfl, h⟩
  | pageFault ec la s => exact .inl (by simpa [Access.bind] using h)
  | stuck e => simp [Access.bind] at h
  | refused r => simp [Access.bind] at h

/-! ## Entries -/

theorem readEntry_eq_some {s : State} {a e : Quad} (h : readEntry s a = some e) :
    inRam s.cfg a.toNat 8 = true ∧ e = s.mem.readQuad a.toNat := by
  unfold readEntry at h
  split at h
  · rename_i hr; exact ⟨hr, by simpa using h.symm⟩
  · simp at h

theorem readEntry_of_inRam {s : State} {a : Quad} (h : inRam s.cfg a.toNat 8 = true) :
    readEntry s a = some (s.mem.readQuad a.toNat) := by simp [readEntry, h]

/-! ## The paging mode -/

/-- PAE paging is in use when CR0.PG = 1, CR4.PAE = 1 and IA32_EFER.LME = 0 (R35). -/
theorem paeInUse_iff (s : State) :
    s.paeInUse = true ↔ cr0PG s.cr0 = true ∧ cr4PAE s.cr4 = true ∧ eferLME s.efer = false := by
  unfold State.paeInUse State.pagingMode pagingModeOf
  rw [decide_eq_true_eq]
  cases cr0PG s.cr0 <;> cases cr4PAE s.cr4 <;> cases eferLME s.efer <;> cases cr4LA57 s.cr4 <;>
    simp

theorem cr0PG_of_paeInUse {s : State} (h : s.paeInUse = true) : cr0PG s.cr0 = true :=
  ((paeInUse_iff s).mp h).1

/-! ## Translation -/

/-- What a successful translation through a 2-MByte page found and left. -/
def Done2M (s : State) (la : Word) (kind : AccessKind) (mode : AccessMode) (aE e : Quad)
    (tr : Translation) (t : State) : Prop :=
  entryPS e = true ∧ rsvdPde2M s.cfg s.nxe e = false ∧
  rights s kind mode (entryUS e) (entryRW e) (s.nxe && entryXD e) = true ∧
  tr = ⟨physAddr2M s.cfg e la, some ⟨.page2M, pde2mPAT e, entryPCD e, entryPWT e, entryG e⟩⟩ ∧
  t = s.setAD aE (decide (kind = .write))

/-- What a successful translation through a 4-KByte page found and left. -/
def Done4K (s : State) (la : Word) (kind : AccessKind) (mode : AccessMode) (aE e q : Quad)
    (tr : Translation) (t : State) : Prop :=
  entryPS e = false ∧ rsvdPdePT s.cfg s.nxe e = false ∧
  readEntry s (pteAddr s.cfg e la) = some q ∧ entryP q = true ∧ rsvdPte s.cfg s.nxe q = false ∧
  rights s kind mode (entryUS e && entryUS q) (entryRW e && entryRW q)
    (s.nxe && (entryXD e || entryXD q)) = true ∧
  tr = ⟨physAddr4K s.cfg q la, some ⟨.page4K, ptePAT q, entryPCD q, entryPWT q, entryG q⟩⟩ ∧
  t = (s.setAD aE false).setAD (pteAddr s.cfg e la) (decide (kind = .write))

/-- A translation that is done is the identity with paging off, or ended at one of the two page sizes (R94). -/
theorem translate_eq_done {la : Word} {kind : AccessKind} {mode : AccessMode} {s t : State}
    {tr : Translation} (h : linTranslate la kind mode s = .done tr t) :
    (cr0PG s.cr0 = false ∧ tr = ⟨la.setWidth 64, none⟩ ∧ t = s) ∨
    (cr0PG s.cr0 = true ∧ s.paeInUse = true ∧ cr4CET s.cr4 = false ∧
      ∃ p, s.pdpte.select (laPdpteIndex la) = some p ∧ entryP p = true ∧
      ∃ e, readEntry s (pdeAddr s.cfg p la) = some e ∧ entryP e = true ∧
        (Done2M s la kind mode (pdeAddr s.cfg p la) e tr t ∨
         ∃ q, Done4K s la kind mode (pdeAddr s.cfg p la) e q tr t)) := by
  unfold linTranslate at h
  split at h
  · rename_i hpg
    simp only [Access.done.injEq] at h
    exact .inl ⟨by simpa using hpg, h.1.symm, h.2.symm⟩
  rename_i hpg
  split at h
  · simp at h
  rename_i hpae
  split at h
  · simp at h
  rename_i hcet
  refine .inr ⟨by simpa using hpg, by simpa using hpae, by simpa using hcet, ?_⟩
  unfold walkRegister at h
  split at h
  · simp at h
  rename_i p hp
  split at h
  · simp [walkFault] at h
  rename_i hpp
  refine ⟨p, hp, by simpa using hpp, ?_⟩
  unfold walkDirectory at h
  simp only at h
  split at h
  · simp at h
  rename_i e he
  split at h
  · simp [walkFault] at h
  rename_i hep
  refine ⟨e, he, by simpa using hep, ?_⟩
  split at h
  · rename_i hps
    unfold use2M at h
    split at h
    · simp [walkFault] at h
    rename_i hr
    split at h
    · simp [walkFault] at h
    rename_i hrt
    simp only [Access.done.injEq] at h
    exact .inl ⟨hps, by simpa using hr, by simpa using hrt, h.1.symm, h.2.symm⟩
  · rename_i hps
    split at h
    · simp [walkFault] at h
    rename_i hr
    unfold walkTable at h
    simp only at h
    split at h
    · simp at h
    rename_i q hq
    split at h
    · simp [walkFaultPast] at h
    rename_i hqp
    unfold use4K at h
    split at h
    · simp [walkFaultPast] at h
    rename_i hqr
    split at h
    · simp [walkFaultPast] at h
    rename_i hrt
    simp only [Access.done.injEq] at h
    exact .inr ⟨q, by simpa using hps, by simpa using hr, hq, by simpa using hqp,
      by simpa using hqr, by simpa using hrt, h.1.symm, h.2.symm⟩

/-- A page fault of a translation reports its own address and an error code of R112, in the state as it was or
with the draw of R104 at the page-directory entry on the path (R113). -/
theorem translate_eq_pageFault {la f ec : Word} {kind : AccessKind} {mode : AccessMode}
    {s t : State} (h : linTranslate la kind mode s = .pageFault ec f t) :
    f = la ∧ s.paeInUse = true ∧ cr4CET s.cr4 = false ∧
    (∃ p rsvd, ec = pageFaultErrorCode s p kind mode rsvd) ∧
    (t = s ∨ ∃ p e, s.pdpte.select (laPdpteIndex la) = some p ∧ entryP p = true ∧
      readEntry s (pdeAddr s.cfg p la) = some e ∧ entryP e = true ∧ entryPS e = false ∧
      t = s.drawAccessed (pdeAddr s.cfg p la)) := by
  unfold linTranslate at h
  split at h
  · simp at h
  split at h
  · simp at h
  rename_i hpae
  split at h
  · simp at h
  rename_i hcet
  refine ⟨?_, by simpa using hpae, by simpa using hcet, ?_⟩ <;>
  · unfold walkRegister at h
    split at h
    · simp at h
    rename_i p hp
    split at h
    · simp only [walkFault, Access.pageFault.injEq] at h
      first | exact h.2.1.symm | exact ⟨⟨_, _, h.1.symm⟩, .inl h.2.2.symm⟩
    rename_i hpp
    unfold walkDirectory at h
    simp only at h
    split at h
    · simp at h
    rename_i e he
    split at h
    · simp only [walkFault, Access.pageFault.injEq] at h
      first | exact h.2.1.symm | exact ⟨⟨_, _, h.1.symm⟩, .inl h.2.2.symm⟩
    rename_i hep
    split at h
    · unfold use2M at h
      split at h
      · simp only [walkFault, Access.pageFault.injEq] at h
        first | exact h.2.1.symm | exact ⟨⟨_, _, h.1.symm⟩, .inl h.2.2.symm⟩
      split at h
      · simp only [walkFault, Access.pageFault.injEq] at h
        first | exact h.2.1.symm | exact ⟨⟨_, _, h.1.symm⟩, .inl h.2.2.symm⟩
      · simp at h
    rename_i hps
    split at h
    · simp only [walkFault, Access.pageFault.injEq] at h
      first | exact h.2.1.symm | exact ⟨⟨_, _, h.1.symm⟩, .inl h.2.2.symm⟩
    unfold walkTable at h
    simp only at h
    split at h
    · simp at h
    split at h
    · simp only [walkFaultPast, Access.pageFault.injEq] at h
      first
        | exact h.2.1.symm
        | exact ⟨⟨_, _, h.1.symm⟩, .inr ⟨p, e, hp, by simpa using hpp, he, by simpa using hep,
            by simpa using hps, h.2.2.symm⟩⟩
    unfold use4K at h
    split at h
    · simp only [walkFaultPast, Access.pageFault.injEq] at h
      first
        | exact h.2.1.symm
        | exact ⟨⟨_, _, h.1.symm⟩, .inr ⟨p, e, hp, by simpa using hpp, he, by simpa using hep,
            by simpa using hps, h.2.2.symm⟩⟩
    split at h
    · simp only [walkFaultPast, Access.pageFault.injEq] at h
      first
        | exact h.2.1.symm
        | exact ⟨⟨_, _, h.1.symm⟩, .inr ⟨p, e, hp, by simpa using hpp, he, by simpa using hep,
            by simpa using hps, h.2.2.symm⟩⟩
    · simp at h

/-- A translation stops only at an unloaded register (R127). -/
theorem translate_eq_stuck {la : Word} {kind : AccessKind} {mode : AccessMode} {s : State} {f : Fault}
    (h : linTranslate la kind mode s = .stuck f) :
    f = .unloadedPdpte ∧ s.paeInUse = true ∧ s.pdpte.select (laPdpteIndex la) = none := by
  unfold linTranslate at h
  split at h
  · simp at h
  split at h
  · simp at h
  rename_i hpae
  split at h
  · simp at h
  unfold walkRegister at h
  split at h
  · rename_i hp
    cases f
    exact ⟨rfl, by simpa using hpae, hp⟩
  split at h
  · simp [walkFault] at h
  unfold walkDirectory at h
  simp only at h
  split at h
  · simp at h
  split at h
  · simp [walkFault] at h
  split at h
  · unfold use2M at h
    split at h
    · simp [walkFault] at h
    split at h <;> simp [walkFault] at h
  split at h
  · simp [walkFault] at h
  unfold walkTable at h
  simp only at h
  split at h
  · simp at h
  split at h
  · simp [walkFaultPast] at h
  unfold use4K at h
  split at h
  · simp [walkFaultPast] at h
  split at h <;> simp [walkFaultPast] at h

/-! ## Only flags of entries change -/

/-- `t` is `s` but for memory and the draw counter, and memory has changed in RAM only and kept its form. -/
def FlagsOnly (s t : State) : Prop :=
  t = { s with mem := t.mem, draws := t.draws } ∧
  (s.mem.wf = true → t.mem.wf = true) ∧
  (memoryInRam s = true → memoryInRam t = true)

theorem FlagsOnly.refl (s : State) : FlagsOnly s s := ⟨rfl, id, id⟩

theorem FlagsOnly.trans {s t u : State} (h : FlagsOnly s t) (h' : FlagsOnly t u) : FlagsOnly s u := by
  refine ⟨?_, fun hw => h'.2.1 (h.2.1 hw), fun hr => h'.2.2 (h.2.2 hr)⟩
  rw [h'.1, h.1]

theorem FlagsOnly.cfg {s t : State} (h : FlagsOnly s t) : t.cfg = s.cfg := by rw [h.1]
theorem FlagsOnly.pdpte {s t : State} (h : FlagsOnly s t) : t.pdpte = s.pdpte := by rw [h.1]
theorem FlagsOnly.paeInUse {s t : State} (h : FlagsOnly s t) : t.paeInUse = s.paeInUse := by rw [h.1]; rfl

theorem flagsOnly_setAD (s : State) {a : Quad} (d : Bool) (ha : inRam s.cfg a.toNat 8 = true) :
    FlagsOnly s (s.setAD a d) :=
  ⟨rfl, fun hw => Memory.wf_setAD hw a.toNat d, fun hr => Memory.all_setAD hr ha⟩

theorem flagsOnly_drawAccessed (s : State) {a : Quad} (ha : inRam s.cfg a.toNat 8 = true) :
    FlagsOnly s (s.drawAccessed a) := by
  refine ⟨rfl, fun hw => ?_, fun hr => ?_⟩
  · simp only [State.drawAccessed_mem]
    split
    · exact Memory.wf_setAD hw a.toNat false
    · exact hw
  · simp only [memoryInRam, State.drawAccessed_mem, State.drawAccessed_cfg]
    split
    · exact Memory.all_setAD hr ha
    · exact hr

theorem translate_done_flagsOnly {la : Word} {kind : AccessKind} {mode : AccessMode} {s t : State}
    {tr : Translation} (h : linTranslate la kind mode s = .done tr t) : FlagsOnly s t := by
  rcases translate_eq_done h with ⟨_, _, rfl⟩ |
    ⟨_, _, _, p, _, _, e, he, _, ⟨_, _, _, _, rfl⟩ | ⟨q, _, _, hq, _, _, _, _, rfl⟩⟩
  · exact FlagsOnly.refl t
  · exact flagsOnly_setAD s _ (readEntry_eq_some he).1
  · exact (flagsOnly_setAD s _ (readEntry_eq_some he).1).trans
      (flagsOnly_setAD _ _ (readEntry_eq_some hq).1)

theorem translate_pageFault_flagsOnly {la f ec : Word} {kind : AccessKind} {mode : AccessMode}
    {s t : State} (h : linTranslate la kind mode s = .pageFault ec f t) : FlagsOnly s t := by
  obtain ⟨_, _, _, _, rfl | ⟨p, e, _, _, he, _, _, rfl⟩⟩ := translate_eq_pageFault h
  · exact FlagsOnly.refl _
  · exact flagsOnly_drawAccessed s (readEntry_eq_some he).1

/-- The chunks of an access, all translated, have changed flags only. -/
theorem translateChunks_done_flagsOnly {kind : AccessKind} {mode : AccessMode} {cs : List Chunk}
    {s t : State} {ps : List Piece} (h : translateChunks kind mode cs s = .done ps t) :
    FlagsOnly s t := by
  induction cs generalizing s t ps with
  | nil =>
    simp only [translateChunks, Access.done.injEq] at h
    rw [h.2]
    exact FlagsOnly.refl t
  | cons c cs ih =>
    obtain ⟨tr, s1, h1, h⟩ := Access.bind_eq_done h
    obtain ⟨qs, s2, h2, h⟩ := Access.bind_eq_done h
    simp only [Access.done.injEq] at h
    rw [← h.2]
    exact (translate_done_flagsOnly h1).trans (ih h2)

theorem translateChunks_pageFault_flagsOnly {kind : AccessKind} {mode : AccessMode}
    {cs : List Chunk} {s t : State} {ec f : Word}
    (h : translateChunks kind mode cs s = .pageFault ec f t) : FlagsOnly s t := by
  induction cs generalizing s with
  | nil => simp [translateChunks] at h
  | cons c cs ih =>
    rcases Access.bind_eq_pageFault h with h1 | ⟨tr, s1, h1, h⟩
    · exact translate_pageFault_flagsOnly h1
    · rcases Access.bind_eq_pageFault h with h2 | ⟨qs, s2, _, h⟩
      · exact (translate_done_flagsOnly h1).trans (ih h2)
      · simp at h

/-! ## Pieces -/

/-- Reading pieces that lie in RAM answers their bytes and leaves the state alone. -/
theorem readPieces_of_inRam {ps : List Piece} {s : State} (h : piecesInRam s ps = true) :
    readPieces ps s = .done (ps.flatMap fun p => s.mem.readBytes p.pa.toNat p.len) s := by
  induction ps with
  | nil => rfl
  | cons p ps ih =>
    simp only [piecesInRam, List.all_cons, Bool.and_eq_true] at h
    simp only [readPieces, h.1, if_true, ih (by simpa [piecesInRam] using h.2), Access.bind,
      List.flatMap_cons]

theorem readPieces_eq_done {ps : List Piece} {s t : State} {bs : List Byte}
    (h : readPieces ps s = .done bs t) : t = s := by
  induction ps generalizing bs t with
  | nil => simp only [readPieces, Access.done.injEq] at h; exact h.2.symm
  | cons p ps ih =>
    unfold readPieces at h
    split at h
    · obtain ⟨cs, u, h1, h2⟩ := Access.bind_eq_done h
      have := ih h1
      simp only [Access.done.injEq] at h2
      rw [← h2.2, this]
    · simp at h

theorem readPieces_ne_pageFault {ps : List Piece} {s t : State} {ec f : Word} :
    readPieces ps s ≠ .pageFault ec f t := by
  induction ps with
  | nil => simp [readPieces]
  | cons p ps ih =>
    intro h
    unfold readPieces at h
    split at h
    · rcases Access.bind_eq_pageFault h with h1 | ⟨cs, u, _, h1⟩
      · exact ih h1
      · simp at h1
    · simp at h

/-- Storing over pieces: done in memory only, in RAM, keeping the canonical form; never a page fault. -/
theorem writePieces_eq_done {ps : List Piece} {bs : List Byte} {s t : State} {u : Unit}
    (h : writePieces ps bs s = .done u t) :
    t = { s with mem := t.mem } ∧ (s.mem.wf = true → t.mem.wf = true) ∧
    (memoryInRam s = true → memoryInRam t = true) := by
  induction ps generalizing bs s with
  | nil =>
    simp only [writePieces, Access.done.injEq] at h
    rw [← h.2]
    exact ⟨rfl, id, id⟩
  | cons p ps ih =>
    unfold writePieces at h
    split at h
    · rename_i hr
      obtain ⟨h1, h2, h3⟩ := ih h
      refine ⟨by rw [h1], fun hw => h2 (Memory.wf_writeBytes hw _ _), fun hm => h3 ?_⟩
      refine Memory.all_writeBytes hm ?_
      rw [inRam_iff] at hr ⊢
      intro b hb1 hb2
      refine hr b hb1 (lt_of_lt_of_le hb2 ?_)
      have := List.length_take_le p.len bs
      omega
    · simp at h

theorem writePieces_ne_pageFault {ps : List Piece} {bs : List Byte} {s t : State} {ec f : Word} :
    writePieces ps bs s ≠ .pageFault ec f t := by
  induction ps generalizing bs s with
  | nil => simp [writePieces]
  | cons p ps ih =>
    intro h
    unfold writePieces at h
    split at h
    · exact ih h
    · simp at h

/-! ## Loading the PDPTE registers -/

theorem pdpteAddr_toNat (cr3 : Word) {i : Nat} (hi : i < 4) :
    (pdpteAddr cr3 i).toNat = (cr3 &&& 0xFFFFFFE0).toNat + 8 * i := by
  have := (cr3 &&& 0xFFFFFFE0).isLt
  simp only [pdpteAddr, pdptBase, BitVec.toNat_add, BitVec.toNat_setWidth, BitVec.toNat_ofNat]
  omega

theorem pdptBase_toNat (cr3 : Word) : (pdptBase cr3).toNat = (cr3 &&& 0xFFFFFFE0).toNat := by
  have := (cr3 &&& 0xFFFFFFE0).isLt
  simp only [pdptBase, BitVec.toNat_setWidth]
  omega

theorem pdpteInMemory_eq (s : State) {i : Nat} (hi : i < 4) :
    pdpteInMemory s i = tableEntry s s.cr3 i := by
  simp only [pdpteInMemory, tableEntry, pdpteAddr_toNat _ hi]

/-- The load by the table CR3 names (R80, R81). -/
theorem loadPdptes_eq (s : State) :
    loadPdptes s =
      if tableInRam s s.cr3 then
        if tableBad s s.cr3 then .generalProtection else .loaded (tableRegisters s s.cr3)
      else .refused (.noMemory (s.cr3 &&& 0xFFFFFFE0).toNat) := by
  simp only [loadPdptes, tableInRam, pdptBase_toNat, tableBad, tableRegisters,
    pdpteInMemory_eq s (show 0 < 4 by omega), pdpteInMemory_eq s (show 1 < 4 by omega),
    pdpteInMemory_eq s (show 2 < 4 by omega), pdpteInMemory_eq s (show 3 < 4 by omega)]
  simp [List.range_succ, Bool.or_assoc]

theorem loadPdptes_eq_loaded {s : State} {r : Pdptes} (h : loadPdptes s = .loaded r) :
    tableBad s s.cr3 = false ∧ r = tableRegisters s s.cr3 := by
  rw [loadPdptes_eq] at h
  split at h
  · split at h
    · simp at h
    · rename_i hb
      exact ⟨by simpa using hb, by simpa using h.symm⟩
  · simp at h

/-- The three ways a move to a control register goes on (R82 to R84). -/
theorem finishMove_eq_next {old new t : State} {reload : Bool} (h : finishMove old new reload = .next t) :
    (reload = true ∧ tableBad new new.cr3 = false ∧
      t = { new with pdpte := tableRegisters new new.cr3, answer := .done }) ∨
    (reload = true ∧ t = takeGeneralProtection old) ∨
    (reload = false ∧ t = { new with answer := .done }) := by
  unfold finishMove at h
  split at h
  · rename_i hr
    split at h
    · rename_i r hl
      obtain ⟨hb, rfl⟩ := loadPdptes_eq_loaded hl
      exact .inl ⟨hr, hb, by simpa using h.symm⟩
    · exact .inr (.inl ⟨hr, by simpa using h.symm⟩)
    · simp at h
  · rename_i hr
    exact .inr (.inr ⟨by simpa using hr, by simpa using h.symm⟩)

theorem finishMove_ne_fault {old new : State} {reload : Bool} {f : Fault} :
    finishMove old new reload ≠ .fault f := by
  unfold finishMove
  split
  · split <;> simp
  · simp

/-- A privileged operation runs at level 0 and raises general protection elsewhere (R87). -/
theorem privileged_eq_next {s t : State} {act : State → Host.Outcome State Fault Refusal}
    (h : privileged s act = .next t) :
    (s.cpl = 0 ∧ act s = .next t) ∨ (s.cpl ≠ 0 ∧ t = takeGeneralProtection s) := by
  unfold privileged at h
  split at h
  · rename_i hc; exact .inl ⟨hc, h⟩
  · rename_i hc; exact .inr ⟨hc, by simpa using h.symm⟩

end Sys2Proof.Machine
end

