-- ==== Sys2Proof/Laws/Accesses.lean ====
section
/-! SUPPORT. Accesses: the chunks of an access, the pieces they translate to, and a store over pieces as one
sequence of byte writes (41_translation.md R106, R107). -/

namespace Sys2Proof.Machine

open Sys2Proof.Safety

/-! ## Chunks -/

theorem bytesToBoundary_pos (la : Word) : 1 ≤ bytesToBoundary la := by unfold bytesToBoundary; omega

/-- The address after the first boundary is aligned to 4 KBytes, modulo `2^32` too. -/
theorem add_bytesToBoundary_aligned (la : Word) :
    (la + BitVec.ofNat 32 (bytesToBoundary la)).toNat % 4096 = 0 := by
  have := la.isLt
  simp only [BitVec.toNat_add, BitVec.toNat_ofNat, bytesToBoundary]
  omega

theorem chunks_eq_one {la : Word} {n : Nat} (h1 : 1 ≤ n) (h2 : la.toNat % 4096 + n ≤ 4096) :
    chunks la n = [⟨la, n⟩] := by
  obtain ⟨k, rfl⟩ : ∃ k, n = k + 1 := ⟨n - 1, by omega⟩
  simp only [chunks, chunksFuel]
  rw [if_neg (by omega), if_pos (by unfold bytesToBoundary; omega)]

theorem chunks_eq_two {la : Word} {n : Nat} (h1 : bytesToBoundary la < n)
    (h2 : n ≤ bytesToBoundary la + 4096) :
    chunks la n = [⟨la, bytesToBoundary la⟩,
      ⟨la + BitVec.ofNat 32 (bytesToBoundary la), n - bytesToBoundary la⟩] := by
  have hb := bytesToBoundary_pos la
  obtain ⟨k, rfl⟩ : ∃ k, n = k + 2 := ⟨n - 2, by omega⟩
  have hz := add_bytesToBoundary_aligned la
  have hb2 : bytesToBoundary (la + BitVec.ofNat 32 (bytesToBoundary la)) = 4096 := by
    generalize la + BitVec.ofNat 32 (bytesToBoundary la) = x at hz
    unfold bytesToBoundary; omega
  simp only [chunks, chunksFuel]
  rw [if_neg (by omega), if_neg (by omega), if_neg (by omega), if_pos (by omega)]

theorem chunksFuel_lengths (fuel : Nat) (la : Word) (n : Nat) (h : n ≤ fuel) :
    ((chunksFuel fuel la n).map Chunk.len).sum = n := by
  induction fuel generalizing la n with
  | zero =>
    obtain rfl : n = 0 := by omega
    simp [chunksFuel]
  | succ fuel ih =>
    have hb := bytesToBoundary_pos la
    simp only [chunksFuel]
    split
    · rename_i h0; subst h0; simp
    split
    · simp
    · simp [ih _ (n - bytesToBoundary la) (by omega)]; omega

/-- The chunks of an access have its length in all. -/
theorem chunks_lengths (la : Word) (n : Nat) : ((chunks la n).map Chunk.len).sum = n :=
  chunksFuel_lengths n la n (Nat.le_refl n)

/-- Pieces have the lengths of their chunks. -/
theorem translateChunks_lengths {kind : AccessKind} {mode : AccessMode} {cs : List Chunk}
    {s t : State} {ps : List Piece} (h : translateChunks kind mode cs s = .done ps t) :
    ps.map Piece.len = cs.map Chunk.len := by
  induction cs generalizing s ps t with
  | nil =>
    simp only [translateChunks, Access.done.injEq] at h
    simp [← h.1]
  | cons c cs ih =>
    obtain ⟨tr, s1, h1, h⟩ := Access.bind_eq_done h
    obtain ⟨qs, s2, h2, h⟩ := Access.bind_eq_done h
    simp only [Access.done.injEq] at h
    rw [← h.1]
    simp [ih h2]

/-- With paging off every chunk translates to its own address (R34). -/
theorem translateChunks_pagingOff {s : State} (h : cr0PG s.cr0 = false) (kind : AccessKind)
    (mode : AccessMode) (cs : List Chunk) :
    translateChunks kind mode cs s = .done (cs.map fun c => ⟨c.la.setWidth 64, c.len⟩) s := by
  induction cs with
  | nil => rfl
  | cons c cs ih => simp [translateChunks, linTranslate, h, ih, Access.bind]

/-! ## Byte writes in sequence -/

/-- Write bytes at addresses, one after another. -/
def writeAll (m : Memory) (cells : List (Nat × Byte)) : Memory :=
  cells.foldl (fun m c => m.write c.1 c.2) m

theorem wf_writeAll {m : Memory} (h : m.wf = true) (cells : List (Nat × Byte)) :
    (writeAll m cells).wf = true := by
  induction cells generalizing m with
  | nil => exact h
  | cons c cells ih => exact ih (Memory.wf_write h _ _)

theorem writeAll_append (m : Memory) (xs ys : List (Nat × Byte)) :
    writeAll m (xs ++ ys) = writeAll (writeAll m xs) ys := by simp [writeAll]

theorem read_writeAll_other (m : Memory) (cells : List (Nat × Byte)) (a : Nat)
    (h : ∀ c ∈ cells, c.1 ≠ a) : (writeAll m cells).read a = m.read a := by
  induction cells generalizing m with
  | nil => rfl
  | cons c cells ih =>
    show (writeAll (m.write c.1 c.2) cells).read a = _
    rw [ih _ fun x hx => h x (List.mem_cons_of_mem _ hx),
      Memory.read_write_other _ _ (Ne.symm (h c (List.mem_cons_self ..)))]

/-- The last write to an address decides what it reads as. -/
theorem read_writeAll_last {m : Memory} (hm : m.wf = true) (cells : List (Nat × Byte)) (i a : Nat)
    (b : Byte) (h : cells[i]? = some (a, b))
    (hl : ∀ j c, i < j → cells[j]? = some c → c.1 ≠ a) : (writeAll m cells).read a = b := by
  induction cells generalizing m i with
  | nil => simp at h
  | cons c cells ih =>
    show (writeAll (m.write c.1 c.2) cells).read a = _
    cases i with
    | zero =>
      simp only [List.getElem?_cons_zero, Option.some.injEq] at h
      subst h
      rw [read_writeAll_other, Memory.read_write_same hm]
      intro x hx
      obtain ⟨j, hj⟩ := List.getElem?_of_mem hx
      exact hl (j + 1) x (by omega) (by simpa using hj)
    | succ i =>
      exact ih (Memory.wf_write hm _ _) i (by simpa using h)
        fun j c hj hc => hl (j + 1) c (by omega) (by simpa using hc)

theorem writeBytes_eq_writeAll (m : Memory) (a : Nat) (bs : List Byte) :
    m.writeBytes a bs = writeAll m (((List.range bs.length).map (a + ·)).zip bs) := by
  induction bs generalizing m a with
  | nil => rfl
  | cons b bs ih =>
    simp only [Memory.writeBytes, ih, List.length_cons, List.range_succ_eq_map, List.map_cons,
      List.map_map, List.zip_cons_cons]
    show _ = writeAll (m.write (a + 0) b) _
    have : (List.range bs.length).map (fun x => a + 1 + x) =
        (List.range bs.length).map ((fun x => a + x) ∘ Nat.succ) := by
      apply List.map_congr_left; intro k _; simp; omega
    rw [this]; rfl

/-- The addresses of the bytes of pieces, in order. -/
def pieceAddresses (ps : List Piece) : List Nat :=
  ps.flatMap fun p => (List.range p.len).map (p.pa.toNat + ·)

theorem length_pieceAddresses (ps : List Piece) : (pieceAddresses ps).length = piecesLength ps := by
  induction ps with
  | nil => rfl
  | cons p ps ih => simp [pieceAddresses, piecesLength] at *

theorem mem_pieceAddresses {ps : List Piece} {a : Nat} :
    a ∈ pieceAddresses ps ↔ ∃ p ∈ ps, Covers p a := by
  simp only [pieceAddresses, List.mem_flatMap, List.mem_map, List.mem_range, Covers]
  constructor
  · rintro ⟨p, hp, k, hk, rfl⟩; exact ⟨p, hp, by omega, by omega⟩
  · rintro ⟨p, hp, h1, h2⟩; exact ⟨p, hp, a - p.pa.toNat, by omega, by omega⟩

/-- A store over pieces that lie in RAM writes its bytes to their addresses, in order (R107). -/
theorem writePieces_of_inRam {ps : List Piece} {bs : List Byte} {s : State}
    (hr : piecesInRam s ps = true) (hl : bs.length = piecesLength ps) :
    writePieces ps bs s =
      .done () { s with mem := writeAll s.mem ((pieceAddresses ps).zip bs) } := by
  induction ps generalizing bs s with
  | nil => simp [writePieces, pieceAddresses, writeAll]
  | cons p ps ih =>
    simp only [piecesInRam, List.all_cons, Bool.and_eq_true] at hr
    simp [piecesLength] at hl
    simp only [writePieces, hr.1, if_true]
    rw [ih]
    · congr 2
      have e : pieceAddresses (p :: ps) =
          (List.range p.len).map (p.pa.toNat + ·) ++ pieceAddresses ps := rfl
      have e2 : bs = bs.take p.len ++ bs.drop p.len := (List.take_append_drop _ _).symm
      rw [e]
      conv_rhs => rw [e2]
      rw [List.zip_append (by rw [List.length_map, List.length_range, List.length_take]; omega),
        writeAll_append, writeBytes_eq_writeAll, List.length_take,
        show min p.len bs.length = p.len by omega]
    · simpa [piecesInRam] using hr.2
    · simp [piecesLength, hl]

end Sys2Proof.Machine
end

