-- ==== Sys2Proof/Laws/Entries.lean ====
section
/-! SUPPORT. Entries: what setting the accessed and dirty flags leaves in an entry (R104), and the alignment of
the addresses of entries (R42). -/

namespace Sys2Proof.Machine

variable (d : Bool) (e : Quad)

/-! ## Flags -/

@[simp] theorem entryP_withAD : entryP (withAD d e) = entryP e := by simp only [entryP, Memory.getLsbD_withAD]; simp
@[simp] theorem entryRW_withAD : entryRW (withAD d e) = entryRW e := by
  simp only [entryRW, Memory.getLsbD_withAD]; simp
@[simp] theorem entryUS_withAD : entryUS (withAD d e) = entryUS e := by
  simp only [entryUS, Memory.getLsbD_withAD]; simp
@[simp] theorem entryPWT_withAD : entryPWT (withAD d e) = entryPWT e := by
  simp only [entryPWT, Memory.getLsbD_withAD]; simp
@[simp] theorem entryPCD_withAD : entryPCD (withAD d e) = entryPCD e := by
  simp only [entryPCD, Memory.getLsbD_withAD]; simp
@[simp] theorem entryPS_withAD : entryPS (withAD d e) = entryPS e := by
  simp only [entryPS, Memory.getLsbD_withAD]; simp
@[simp] theorem entryG_withAD : entryG (withAD d e) = entryG e := by simp only [entryG, Memory.getLsbD_withAD]; simp
@[simp] theorem entryXD_withAD : entryXD (withAD d e) = entryXD e := by
  simp only [entryXD, Memory.getLsbD_withAD]; simp
@[simp] theorem ptePAT_withAD : ptePAT (withAD d e) = ptePAT e := by simp only [ptePAT, Memory.getLsbD_withAD]; simp
@[simp] theorem pde2mPAT_withAD : pde2mPAT (withAD d e) = pde2mPAT e := by
  simp only [pde2mPAT, Memory.getLsbD_withAD]; simp

/-- Setting flags that are set changes nothing. -/
theorem withAD_withAD {d d' : Bool} (e : Quad) (h : d' = true → d = true) :
    withAD d' (withAD d e) = withAD d e := by
  apply BitVec.eq_of_getLsbD_eq
  intro j _
  simp only [Memory.getLsbD_withAD]
  cases d <;> cases d' <;> simp at h ⊢
  all_goals cases e.getLsbD j <;> by_cases h5 : j = 5 <;> by_cases h6 : j = 6 <;> simp [h5, h6]

/-! ## Fields -/

theorem maxPhyAddr_bounds (c : Config) : 36 ≤ c.maxPhyAddr ∧ c.maxPhyAddr ≤ 52 := by
  unfold Config.maxPhyAddr; omega

theorem slice_withAD (hi lo : Nat) (hlo : 7 ≤ lo) (h : lo ≤ hi) :
    slice hi lo (withAD d e) = slice hi lo e := by
  apply BitVec.eq_of_getLsbD_eq
  intro j _
  rw [getLsbD_slice _ _ _ _ h, getLsbD_slice _ _ _ _ h, Memory.getLsbD_withAD,
    decide_eq_false (show ¬ j + lo = 5 by omega), decide_eq_false (show ¬ j + lo = 6 by omega)]
  simp

@[simp] theorem entryBase4K_withAD (c : Config) : entryBase4K c (withAD d e) = entryBase4K c e := by
  have := maxPhyAddr_bounds c
  simp only [entryBase4K, slice_withAD d e (c.maxPhyAddr - 1) 12 (by omega) (by omega)]

@[simp] theorem entryBase2M_withAD (c : Config) : entryBase2M c (withAD d e) = entryBase2M c e := by
  have := maxPhyAddr_bounds c
  simp only [entryBase2M, slice_withAD d e (c.maxPhyAddr - 1) 21 (by omega) (by omega)]

@[simp] theorem pteAddr_withAD (c : Config) (la : Word) : pteAddr c (withAD d e) la = pteAddr c e la := by
  simp [pteAddr]
@[simp] theorem physAddr4K_withAD (c : Config) (la : Word) :
    physAddr4K c (withAD d e) la = physAddr4K c e la := by simp [physAddr4K]
@[simp] theorem physAddr2M_withAD (c : Config) (la : Word) :
    physAddr2M c (withAD d e) la = physAddr2M c e la := by simp [physAddr2M]

@[simp] theorem highReserved_withAD (c : Config) : highReserved c (withAD d e) = highReserved c e := by
  have := maxPhyAddr_bounds c
  simp only [highReserved, slice_withAD d e 62 c.maxPhyAddr (by omega) (by omega)]
@[simp] theorem rsvdPde2M_withAD (c : Config) (x : Bool) :
    rsvdPde2M c x (withAD d e) = rsvdPde2M c x e := by
  simp [rsvdPde2M, slice_withAD d e 20 13 (by omega) (by omega)]
@[simp] theorem rsvdPdePT_withAD (c : Config) (x : Bool) :
    rsvdPdePT c x (withAD d e) = rsvdPdePT c x e := by simp [rsvdPdePT]
@[simp] theorem rsvdPte_withAD (c : Config) (x : Bool) : rsvdPte c x (withAD d e) = rsvdPte c x e := by
  simp [rsvdPte]

/-! ## Alignment -/

theorem getLsbD_entryBase4K (c : Config) (e : Quad) (j : Nat) :
    (entryBase4K c e).getLsbD j = (decide (12 ≤ j) && decide (j < c.maxPhyAddr) && e.getLsbD j) := by
  have hM := maxPhyAddr_bounds c
  unfold entryBase4K
  rw [BitVec.getLsbD_shiftLeft, getLsbD_slice _ _ _ _ (by omega)]
  by_cases h1 : 12 ≤ j
  · rw [show j - 12 + 12 = j by omega]
    by_cases h2 : j < c.maxPhyAddr
    · simp [h1, h2, show j < 64 by omega, show j ≤ c.maxPhyAddr - 1 by omega,
        show ¬ j < 12 by omega]
    · simp [h2, show ¬ j ≤ c.maxPhyAddr - 1 by omega]
  · simp [h1, show j < 12 by omega]

theorem getLsbD_entryIndex (x : BitVec 9) (j : Nat) :
    ((x.setWidth 64 : Quad) <<< 3).getLsbD j = (decide (3 ≤ j) && x.getLsbD (j - 3)) := by
  rw [BitVec.getLsbD_shiftLeft, BitVec.getLsbD_setWidth]
  by_cases h : j < 3
  · simp [h]
  · by_cases h2 : j < 64
    · simp [h, h2, show j - 3 < 64 by omega, show 3 ≤ j by omega]
    · simp only [h2, decide_false, Bool.false_and]
      rw [BitVec.getLsbD_of_ge x _ (by omega)]; simp

theorem toNat_mod_eight {a : Quad} (h : ∀ j, j < 3 → a.getLsbD j = false) : a.toNat % 8 = 0 := by
  apply Nat.eq_of_testBit_eq
  intro j
  rw [show (8 : Nat) = 2 ^ 3 by rfl, Nat.testBit_mod_two_pow, Nat.zero_testBit]
  by_cases hj : j < 3
  · rw [show a.toNat.testBit j = a.getLsbD j from rfl, h j hj]; simp
  · simp [hj]

/-- Entries lie at multiples of 8 (R42), so that two of them are one or do not overlap. -/
theorem pdeAddr_aligned (c : Config) (p : Quad) (la : Word) : (pdeAddr c p la).toNat % 8 = 0 :=
  toNat_mod_eight fun j hj => by
    rw [pdeAddr, BitVec.getLsbD_or, getLsbD_entryBase4K, getLsbD_entryIndex,
      decide_eq_false (show ¬ 12 ≤ j by omega), decide_eq_false (show ¬ 3 ≤ j by omega)]
    simp

theorem pteAddr_aligned (c : Config) (p : Quad) (la : Word) : (pteAddr c p la).toNat % 8 = 0 :=
  toNat_mod_eight fun j hj => by
    rw [pteAddr, BitVec.getLsbD_or, getLsbD_entryBase4K, getLsbD_entryIndex,
      decide_eq_false (show ¬ 12 ≤ j by omega), decide_eq_false (show ¬ 3 ≤ j by omega)]
    simp

theorem pde_pte_apart {c : Config} {p e : Quad} {la : Word} (h : pdeAddr c p la ≠ pteAddr c e la) :
    (pdeAddr c p la).toNat + 8 ≤ (pteAddr c e la).toNat ∨
    (pteAddr c e la).toNat + 8 ≤ (pdeAddr c p la).toNat := by
  have h1 := pdeAddr_aligned c p la
  have h2 := pteAddr_aligned c e la
  have h3 : (pdeAddr c p la).toNat ≠ (pteAddr c e la).toNat := fun hc => h (BitVec.eq_of_toNat_eq hc)
  omega

end Sys2Proof.Machine
end

