-- ==== Sys2Proof/Laws/Path.lean ====
section
/-! SUPPORT. Path: the entries a translation reads, and that setting flags of an entry moves no path. -/

namespace Sys2Proof.Machine

open Sys2Proof.Safety

/-- The path through a present PDPTE register (R91, R93, R95). -/
theorem pathAddresses_of_present {s : State} {la : Word} {p : Quad}
    (hp : s.pdpte.select (laPdpteIndex la) = some p) (hpp : entryP p = true) :
    pathAddresses s la =
      let a := (pdeAddr s.cfg p la).toNat
      let e := s.mem.readQuad a
      if entryP e && !entryPS e && !rsvdPdePT s.cfg s.nxe e then [a, (pteAddr s.cfg e la).toNat] else [a] := by
  simp [pathAddresses, hp, hpp]

/-- Of two entries, setting flags of one leaves the other as it was. -/
theorem readQuad_setAD_aligned {m : Memory} (hm : m.wf = true) {a b : Nat} (ha : a % 8 = 0) (hb : b % 8 = 0)
    (d : Bool) : (m.setAD a d).readQuad b = if b = a then withAD d (m.readQuad b) else m.readQuad b := by
  split
  · rename_i h
    rw [h, Memory.readQuad_setAD_same hm]
  · exact Memory.readQuad_setAD_outside m a b d (by omega)

/-- The path of an address turns on what the flags A and D of no entry say (R95, R104). -/
theorem pathAddresses_setAD {s : State} (hm : s.mem.wf = true) {a : Quad} (ha : a.toNat % 8 = 0) (d : Bool)
    (la : Word) : pathAddresses (s.setAD a d) la = pathAddresses s la := by
  unfold pathAddresses
  rcases hp : s.pdpte.select (laPdpteIndex la) with _ | p
  · rw [show (s.setAD a d).pdpte = s.pdpte from rfl, hp]
  · rw [show (s.setAD a d).pdpte = s.pdpte from rfl, show (s.setAD a d).cfg = s.cfg from rfl,
      show (s.setAD a d).nxe = s.nxe from rfl, hp]
    dsimp only [State.setAD]
    rw [readQuad_setAD_aligned hm ha (pdeAddr_aligned _ _ _)]
    by_cases h : (pdeAddr s.cfg p la).toNat = a.toNat
    · simp [h]
    · simp [h]

end Sys2Proof.Machine
end

