-- ==== Sys2Proof/Laws/Events.lean ====
section
/-! SUPPORT. Events: what one step comes to, and once, everything a speculative walk can do. -/

namespace Sys2Proof.Machine

open Sys2Proof.Safety

/-! ## The step (R136; log 9, 10) -/

theorem step_of_faulted {s : State} (h : s.faulted = true) : step s = .next s := by simp [step, h]

theorem step_of_not_faulted {s : State} (h : s.faulted = false) : step s = runStep s := by simp [step, h]

/-- The head of the queue runs when no walk is in progress, or when it is an input from outside. -/
theorem runStep_of_event {s : State} {ev : Event} {rest : List Event} (he : s.events = ev :: rest)
    (h : s.walk = none ∨ ev.external = true) : runStep s = runEvent ev { s with events := rest } := by
  unfold runStep
  rw [he]
  rcases hw : s.walk with _ | w
  · rfl
  · rcases h with h | h
    · simp [hw] at h
    · simp [h]

/-- A walk in progress makes its next move when no input from outside heads the queue. -/
theorem runStep_of_walk {s : State} {w : Walk} (hw : s.walk = some w) (h : noExternalFirst s = true) :
    runStep s = walkStep w s := by
  unfold runStep
  rw [hw]
  unfold noExternalFirst at h
  rcases he : s.events with _ | ⟨ev, rest⟩
  · rfl
  · rw [he] at h
    simp only [Bool.not_eq_true'] at h
    simp [h]

theorem runStep_of_idle {s : State} (hw : s.walk = none) (he : s.events = []) : runStep s = .next s := by
  unfold runStep
  rw [hw, he]

/-- Every step is one of the four. -/
theorem step_cases (s : State) :
    (s.faulted = true ∧ step s = .next s) ∨
    (s.faulted = false ∧
      ((s.walk = none ∧ s.events = [] ∧ step s = .next s) ∨
       (∃ w, s.walk = some w ∧ noExternalFirst s = true ∧ step s = walkStep w s) ∨
       (∃ ev rest, s.events = ev :: rest ∧ (s.walk = none ∨ ev.external = true) ∧
         step s = runEvent ev { s with events := rest }))) := by
  cases hf : s.faulted with
  | true => exact .inl ⟨rfl, step_of_faulted hf⟩
  | false =>
    refine .inr ⟨rfl, ?_⟩
    rw [step_of_not_faulted hf]
    by_cases hx : ∃ ev rest, s.events = ev :: rest ∧ (s.walk = none ∨ ev.external = true)
    · obtain ⟨ev, rest, he, h⟩ := hx
      exact .inr (.inr ⟨ev, rest, he, h, runStep_of_event he h⟩)
    · rcases hw : s.walk with _ | w
      · have he : s.events = [] := by
          rcases he : s.events with _ | ⟨ev, rest⟩
          · rfl
          · exact absurd ⟨ev, rest, he, .inl hw⟩ hx
        exact .inl ⟨rfl, he, runStep_of_idle hw he⟩
      · have h : noExternalFirst s = true := by
          unfold noExternalFirst
          rcases he : s.events with _ | ⟨ev, rest⟩
          · rfl
          · exact (Bool.not_eq_true' _).mpr ((Bool.not_eq_true _).mp fun h => hx ⟨ev, rest, he, .inr h⟩)
        exact .inr (.inl ⟨w, rfl, h, runStep_of_walk hw h⟩)

/-! ## Speculative walks (R132; log 15) -/

/-- A speculative walk changes nothing, or sets A in one present entry on the path, which lies in RAM. -/
theorem speculate_cases (s : State) (la : Word) (table : Bool) :
    s.speculate la table = s ∨
    ∃ a : Quad, a.toNat ∈ pathAddresses s la ∧ inRam s.cfg a.toNat 8 = true ∧
      entryP (s.mem.readQuad a.toNat) = true ∧ s.speculate la table = s.setAD a false := by
  unfold State.speculate
  split
  · exact .inl rfl
  split
  · exact .inl rfl
  rename_i p hp
  split
  · exact .inl rfl
  rename_i hpp
  simp only
  split
  · exact .inl rfl
  rename_i e he
  obtain ⟨hr, rfl⟩ := readEntry_eq_some he
  split
  · exact .inl rfl
  rename_i hep
  rw [Bool.not_eq_true', Bool.not_eq_false] at hpp hep
  split
  · refine .inr ⟨_, ?_, hr, hep, rfl⟩
    rw [pathAddresses_of_present hp hpp]
    dsimp only
    split <;> simp
  split
  · exact .inl rfl
  rename_i hps
  split
  · exact .inl rfl
  rename_i t ht
  obtain ⟨hrt, rfl⟩ := readEntry_eq_some ht
  split
  · exact .inl rfl
  rename_i htp
  rw [Bool.not_eq_true', Bool.not_eq_false] at htp
  rw [Bool.not_eq_true, Bool.or_eq_false_iff] at hps
  refine .inr ⟨_, ?_, hrt, htp, rfl⟩
  rw [pathAddresses_of_present hp hpp]
  simp [hep, hps.1, hps.2]

/-- A speculative walk changes flags only. -/
theorem flagsOnly_speculate (s : State) (la : Word) (table : Bool) : FlagsOnly s (s.speculate la table) := by
  rcases speculate_cases s la table with h | ⟨a, _, hr, _, h⟩
  · rw [h]; exact FlagsOnly.refl s
  · rw [h]; exact flagsOnly_setAD s false hr

end Sys2Proof.Machine
end

