-- ==== Sys2Proof/Laws/Frames.lean ====
section
/-! SUPPORT. Frames: once for each shape of instruction, what its next state can be: an access through
translation, a move to and from a control register, the CR3 load of a task switch, an entry row in its walk. -/

namespace Sys2Proof.Machine

open Sys2Proof.Safety

/-! ## Accesses through translation (R94, R106 to R108) -/

theorem execTranslate_eq_next {la : Word} {kind : AccessKind} {mode : AccessMode} {s t : State}
    (h : execTranslate la kind mode s = .next t) :
    ∃ u, FlagsOnly s u ∧
      ((∃ tr, linTranslate la kind mode s = .done tr u ∧ t = { u with answer := .translation tr }) ∨
       (∃ ec, linTranslate la kind mode s = .pageFault ec la u ∧ t = takePageFault ec la u)) := by
  rcases Access.finish_eq_next h with ⟨tr, u, h1, rfl⟩ | ⟨ec, f, u, h1, rfl⟩
  · exact ⟨u, translate_done_flagsOnly h1, .inl ⟨tr, h1, rfl⟩⟩
  · obtain ⟨rfl, -⟩ := translate_eq_pageFault h1
    exact ⟨u, translate_pageFault_flagsOnly h1, .inr ⟨ec, h1, rfl⟩⟩

/-- A read or fetch is done with its value after flag changes only, or ends in a page fault. -/
theorem linLoad_eq_next {kind : AccessKind} {la : Word} {n : Nat} {mode : AccessMode} {s t : State}
    (h : ((linLoad kind la n mode s).finish fun bs => .value n (leNat bs)) = .next t) :
    ∃ u, FlagsOnly s u ∧
      ((∃ bs, linLoad kind la n mode s = .done bs u ∧ t = { u with answer := .value n (leNat bs) }) ∨
       (∃ ec f, linLoad kind la n mode s = .pageFault ec f u ∧ t = takePageFault ec f u)) := by
  rcases Access.finish_eq_next h with ⟨bs, u, h1, rfl⟩ | ⟨ec, f, u, h1, rfl⟩
  · obtain ⟨ps, u', h2, h3⟩ := Access.bind_eq_done h1
    obtain rfl := readPieces_eq_done h3
    exact ⟨u, translateChunks_done_flagsOnly h2, .inl ⟨bs, h1, rfl⟩⟩
  · rcases Access.bind_eq_pageFault h1 with h2 | ⟨ps, u', _, h3⟩
    · exact ⟨u, translateChunks_pageFault_flagsOnly h2, .inr ⟨ec, f, h1, rfl⟩⟩
    · exact absurd h3 readPieces_ne_pageFault

/-- A write is done in memory only, after flag changes, or ends in a page fault with flag changes only. -/
theorem execLinWrite_eq_next {la : Word} {n v : Nat} {mode : AccessMode} {s t : State}
    (h : execLinWrite la n v mode s = .next t) :
    ∃ u, FlagsOnly s u ∧
      ((∃ ps w, translateChunks .write mode (chunks la n) s = .done ps u ∧
          writePieces ps (leBytes n v) u = .done () w ∧
          w = { u with mem := w.mem } ∧ (u.mem.wf = true → w.mem.wf = true) ∧
          (memoryInRam u = true → memoryInRam w = true) ∧ t = { w with answer := .done }) ∨
       (∃ ec f, translateChunks .write mode (chunks la n) s = .pageFault ec f u ∧
          t = takePageFault ec f u)) := by
  rcases Access.finish_eq_next h with ⟨⟨⟩, w, h1, rfl⟩ | ⟨ec, f, u, h1, rfl⟩
  · obtain ⟨ps, u, h2, h3⟩ := Access.bind_eq_done h1
    obtain ⟨e1, e2, e3⟩ := writePieces_eq_done h3
    exact ⟨u, translateChunks_done_flagsOnly h2, .inl ⟨ps, w, h2, h3, e1, e2, e3, rfl⟩⟩
  · rcases Access.bind_eq_pageFault h1 with h2 | ⟨ps, u', _, h3⟩
    · exact ⟨u, translateChunks_pageFault_flagsOnly h2, .inr ⟨ec, f, h2, rfl⟩⟩
    · exact absurd h3 writePieces_ne_pageFault

/-! ## Moves (R82 to R84, R87) -/

/-- A move to a control register ends in general protection with nothing changed, or with the register written
and, on a reload, the PDPTE registers loaded from the table CR3 then names. -/
theorem execMovToCR0_eq_next {src : Source} {s t : State} (h : execMovToCR0 src s = .next t) :
    t = takeGeneralProtection s ∨
    (s.cpl = 0 ∧ cr0Illegal (sourceValue s src) = false ∧
      ((t.paeInUse = true ∧ cr0Reloads s.cr0 (sourceValue s src) = true ∧ tableBad s s.cr3 = false ∧
        t = { s with cr0 := sourceValue s src, pdpte := tableRegisters s s.cr3, answer := .done }) ∨
       ((t.paeInUse && cr0Reloads s.cr0 (sourceValue s src)) = false ∧
        t = { s with cr0 := sourceValue s src, answer := .done }))) := by
  rcases privileged_eq_next h with ⟨hc, h⟩ | ⟨_, rfl⟩
  · unfold movToCR0 at h
    split at h
    · exact .inl (by simpa using h.symm)
    rename_i hi
    rcases finishMove_eq_next h with ⟨h1, h2, rfl⟩ | ⟨_, rfl⟩ | ⟨h1, rfl⟩
    · rw [Bool.and_eq_true] at h1
      exact .inr ⟨hc, by simpa using hi, .inl ⟨h1.1, h1.2, h2, rfl⟩⟩
    · exact .inl rfl
    · exact .inr ⟨hc, by simpa using hi, .inr ⟨h1, rfl⟩⟩
  · exact .inl rfl

theorem execMovToCR3_eq_next {src : Source} {s t : State} (h : execMovToCR3 src s = .next t) :
    t = takeGeneralProtection s ∨
    (s.cpl = 0 ∧
      ((t.paeInUse = true ∧ tableBad s (sourceValue s src) = false ∧
        t = { s with
          cr3 := sourceValue s src, pdpte := tableRegisters s (sourceValue s src), answer := .done }) ∨
       (t.paeInUse = false ∧ t = { s with cr3 := sourceValue s src, answer := .done }))) := by
  rcases privileged_eq_next h with ⟨hc, h⟩ | ⟨_, rfl⟩
  · unfold movToCR3 at h
    rcases finishMove_eq_next h with ⟨h1, h2, rfl⟩ | ⟨_, rfl⟩ | ⟨h1, rfl⟩
    · exact .inr ⟨hc, .inl ⟨h1, h2, rfl⟩⟩
    · exact .inl rfl
    · exact .inr ⟨hc, .inr ⟨h1, rfl⟩⟩
  · exact .inl rfl

theorem execMovToCR4_eq_next {src : Source} {s t : State} (h : execMovToCR4 src s = .next t) :
    t = takeGeneralProtection s ∨
    (s.cpl = 0 ∧ cr4Illegal s.cfg (sourceValue s src) = false ∧
      ((t.paeInUse = true ∧ cr4Reloads s.cr4 (sourceValue s src) = true ∧ tableBad s s.cr3 = false ∧
        t = { s with cr4 := sourceValue s src, pdpte := tableRegisters s s.cr3, answer := .done }) ∨
       ((t.paeInUse && cr4Reloads s.cr4 (sourceValue s src)) = false ∧
        t = { s with cr4 := sourceValue s src, answer := .done }))) := by
  rcases privileged_eq_next h with ⟨hc, h⟩ | ⟨_, rfl⟩
  · unfold movToCR4 at h
    split at h
    · exact .inl (by simpa using h.symm)
    rename_i hi
    rcases finishMove_eq_next h with ⟨h1, h2, rfl⟩ | ⟨_, rfl⟩ | ⟨h1, rfl⟩
    · rw [Bool.and_eq_true] at h1
      exact .inr ⟨hc, by simpa using hi, .inl ⟨h1.1, h1.2, h2, rfl⟩⟩
    · exact .inl rfl
    · exact .inr ⟨hc, by simpa using hi, .inr ⟨h1, rfl⟩⟩
  · exact .inl rfl

/-- A move from a control register writes one general register, or raises general protection. -/
theorem privileged_moveToGpr_eq_next {r : Reg} {v : Word} {s t : State}
    (h : privileged s (moveToGpr r v) = .next t) :
    t = takeGeneralProtection s ∨
    (s.cpl = 0 ∧ t = { s with gpr := s.gpr.write r v, answer := .done }) := by
  rcases privileged_eq_next h with ⟨hc, h⟩ | ⟨_, rfl⟩
  · exact .inr ⟨hc, by simpa [moveToGpr] using h.symm⟩
  · exact .inl rfl

/-! ## Loads of the PDPTE registers (R80, R85) -/

theorem execLoadPDPTEs_eq_next {s t : State} (h : execLoadPDPTEs s = .next t) :
    t = takeGeneralProtection s ∨
    (tableBad s s.cr3 = false ∧ t = { s with pdpte := tableRegisters s s.cr3, answer := .done }) := by
  rcases finishMove_eq_next h with ⟨_, h1, h2⟩ | ⟨_, h1⟩ | ⟨h1, _⟩
  · exact .inr ⟨h1, h2⟩
  · exact .inl h1
  · simp at h1

/-- SetEFER raises general protection with nothing changed, or writes IA32_EFER alone, at level 0 (R88, R122). -/
theorem execSetEFER_eq_next {v : Quad} {s t : State} (h : execSetEFER v s = .next t) :
    t = takeGeneralProtection s ∨
    (s.cpl = 0 ∧ (cr0PG s.cr0 && (eferLME v != eferLME s.efer)) = false ∧
      t = { s with efer := eferAfterWrite s.cfg s.efer v, answer := .done }) := by
  rcases privileged_eq_next h with ⟨hc, h⟩ | ⟨_, h1⟩
  · unfold storeEfer at h
    split at h
    · simp at h
    · rename_i hp
      exact .inr ⟨hc, by simpa using hp, by simpa using h.symm⟩
  · exact .inl h1

/-- `MOV CR2, r32` raises general protection with nothing changed, or writes CR2 alone, at level 0 (R75, R87). -/
theorem execMovToCR2_eq_next {r : Reg} {s t : State} (h : execMovToCR2 r s = .next t) :
    t = takeGeneralProtection s ∨
    (s.cpl = 0 ∧ t = { s with cr2 := s.gpr.read r, answer := .done }) := by
  rcases privileged_eq_next h with ⟨hc, h⟩ | ⟨_, h1⟩
  · exact .inr ⟨hc, by simpa using h.symm⟩
  · exact .inl h1

theorem switchLoad_eq_next {s t : State} (h : switchLoad s = .next t) :
    tableBad s s.cr3 = false ∧ t = { s with pdpte := tableRegisters s s.cr3, answer := .done } := by
  unfold switchLoad at h
  split at h
  · rename_i r hr
    obtain ⟨hb, rfl⟩ := loadPdptes_eq_loaded hr
    exact ⟨hb, by simpa using h.symm⟩
  · simp at h
  · simp at h

/-- A task switch writes CR3 and leaves or reloads the PDPTE registers (a draw where the value is the old one). -/
theorem execTaskSwitchCR3_eq_next {v : Word} {s t : State} (h : execTaskSwitchCR3 v s = .next t) :
    ∃ d, (s.paeInUse = true ∧ tableBad s v = false ∧
      t = { s with cr3 := v, pdpte := tableRegisters s v, draws := d, answer := .done }) ∨
      ((s.paeInUse = false ∨ v = s.cr3) ∧ t = { s with cr3 := v, draws := d, answer := .done }) := by
  unfold execTaskSwitchCR3 at h
  simp only at h
  split at h
  · rename_i hp
    exact ⟨s.draws, .inr ⟨.inl ((Bool.not_eq_true' _).mp hp), by simpa using h.symm⟩⟩
  rename_i hp
  have hpae : s.paeInUse = true := by
    rw [Bool.not_eq_true', Bool.not_eq_false] at hp
    exact hp
  split at h
  · obtain ⟨hb, rfl⟩ := switchLoad_eq_next h
    exact ⟨s.draws, .inl ⟨hpae, hb, rfl⟩⟩
  rename_i hv
  split at h
  · obtain ⟨hb, rfl⟩ := switchLoad_eq_next h
    exact ⟨s.draws + 1, .inl ⟨hpae, hb, rfl⟩⟩
  · exact ⟨s.draws + 1, .inr ⟨.inr (by simpa using hv), by simpa using h.symm⟩⟩

/-! ## The end of a walk (R92, R93) -/

theorem use2M_eq {s : State} {la : Word} {kind : AccessKind} {mode : AccessMode} {aE e : Quad} :
    (∃ tr, use2M s la kind mode aE e = .done tr (s.setAD aE (decide (kind = .write)))) ∨
    (∃ ec, use2M s la kind mode aE e = .pageFault ec la s) := by
  unfold use2M
  split
  · exact .inr ⟨_, rfl⟩
  split
  · exact .inr ⟨_, rfl⟩
  · exact .inl ⟨_, rfl⟩

theorem use4K_eq {s : State} {la : Word} {kind : AccessKind} {mode : AccessMode} {aE e aT q : Quad} :
    (∃ tr, use4K s la kind mode aE e aT q =
      .done tr ((s.setAD aE false).setAD aT (decide (kind = .write)))) ∨
    (∃ ec, use4K s la kind mode aE e aT q = .pageFault ec la (s.drawAccessed aE)) := by
  unfold use4K
  split
  · exact .inr ⟨_, rfl⟩
  split
  · exact .inr ⟨_, rfl⟩
  · exact .inl ⟨_, rfl⟩

end Sys2Proof.Machine
end

