-- ==== Sys2Proof/Laws/PerInstr.lean ====
section
/-! SUPPORT. PerInstr: statements proved instruction by instruction. `EncodedLength`: an instruction is encoded
exactly when it is read at a place, in as many bytes as the format of that place has (30_encoding.md R55, R75). -/

namespace Sys2Proof.Laws.EncodedLength

def Statement (i : Instr) : Prop := (encode i).map List.length = i.place.map Place.bytes

theorem pdpteNotPresent (e : Quad) : Statement (.pdpteNotPresent e) := by
  simp [Statement, encode, Instr.place, Place.bytes, length_leBytes]
theorem pdpte (e : Quad) : Statement (.pdpte e) := by
  simp [Statement, encode, Instr.place, Place.bytes, length_leBytes]
theorem pdeNotPresent (e : Quad) : Statement (.pdeNotPresent e) := by
  simp [Statement, encode, Instr.place, Place.bytes, length_leBytes]
theorem pde2M (e : Quad) : Statement (.pde2M e) := by
  simp [Statement, encode, Instr.place, Place.bytes, length_leBytes]
theorem pdePT (e : Quad) : Statement (.pdePT e) := by
  simp [Statement, encode, Instr.place, Place.bytes, length_leBytes]
theorem pteNotPresent (e : Quad) : Statement (.pteNotPresent e) := by
  simp [Statement, encode, Instr.place, Place.bytes, length_leBytes]
theorem pte4K (e : Quad) : Statement (.pte4K e) := by
  simp [Statement, encode, Instr.place, Place.bytes, length_leBytes]
theorem linearAddress4K (la : Word) : Statement (.linearAddress4K la) := by
  simp [Statement, encode, Instr.place, Place.bytes, length_leBytes]
theorem linearAddress2M (la : Word) : Statement (.linearAddress2M la) := by
  simp [Statement, encode, Instr.place, Place.bytes, length_leBytes]
theorem cr3Pae (v : Word) : Statement (.cr3Pae v) := by
  simp [Statement, encode, Instr.place, Place.bytes, length_leBytes]
theorem movToCR0 (src : Source) : Statement (.movToCR0 src) := by cases src <;> rfl
theorem movToCR3 (src : Source) : Statement (.movToCR3 src) := by cases src <;> rfl
theorem movToCR4 (src : Source) : Statement (.movToCR4 src) := by cases src <;> rfl
theorem movFromCR0 (dst : Reg) : Statement (.movFromCR0 dst) := rfl
theorem movFromCR2 (dst : Reg) : Statement (.movFromCR2 dst) := rfl
theorem movFromCR3 (dst : Reg) : Statement (.movFromCR3 dst) := rfl
theorem movFromCR4 (dst : Reg) : Statement (.movFromCR4 dst) := rfl
theorem loadPDPTEs : Statement (.loadPDPTEs) := rfl
theorem taskSwitchCR3 (v : Word) : Statement (.taskSwitchCR3 v) := rfl
theorem translate (la : Word) (kind : AccessKind) (mode : AccessMode) : Statement (.translate la kind mode) := rfl
theorem linRead (la : Word) (n : Nat) (mode : AccessMode) : Statement (.linRead la n mode) := rfl
theorem linWrite (la : Word) (n v : Nat) (mode : AccessMode) : Statement (.linWrite la n v mode) := rfl
theorem linFetch (la : Word) (n : Nat) (mode : AccessMode) : Statement (.linFetch la n mode) := rfl
theorem setEFER (v : Quad) : Statement (.setEFER v) := rfl
theorem setAC (b : Bool) : Statement (.setAC b) := rfl

end Sys2Proof.Laws.EncodedLength
end

