-- ==== Sys2Proof/Tests/Slice0.lean ====
section
/-! SUPPORT. Slice0: tests of decoding and of each row on words and entries of 95_test_vectors.md (the vector's
id stands before each), and a witness for the hypotheses of every obligation that has any. -/

namespace Sys2Proof.Tests

open Sys2Proof.Machine Sys2Proof.Safety

/-! ## Helpers -/

/-- The outcome is a next state with a property. -/
def nextIs (o : Host.Outcome State Fault Refusal) (p : State → Bool) : Bool :=
  match o with
  | .next t => p t
  | .fault _ => false
  | .refused _ => false

/-- The refusal of an outcome. -/
def refusal (o : Host.Outcome State Fault Refusal) : Option Refusal :=
  match o with
  | .refused r => some r
  | .next _ => none
  | .fault _ => none

theorem exists_next {o : Host.Outcome State Fault Refusal} {p : State → Bool} (h : nextIs o p = true) :
    ∃ t, o = .next t ∧ p t = true := by
  cases o with
  | next t => exact ⟨t, rfl, h⟩
  | fault r => cases h
  | refused r => cases h

/-- The value of an access that is done. -/
def accessIs {α : Type} (x : Access α) (p : α → State → Bool) : Bool :=
  match x with
  | .done a s => p a s
  | .pageFault _ _ _ => false
  | .stuck _ => false
  | .refused _ => false

theorem exists_done {α : Type} {x : Access α} {p : α → State → Bool} (h : accessIs x p = true) :
    ∃ a s, x = .done a s ∧ p a s = true := by
  cases x with
  | done a s => exact ⟨a, s, rfl, h⟩
  | pageFault ec la s => cases h
  | stuck f => cases h
  | refused r => cases h

/-- Memory with these 8-byte values. -/
def quads (l : List (Nat × Quad)) : Memory := l.foldl (fun m c => m.writeQuad c.1 c.2) []

/-- The control state of Image A. -/
def imageA (m : Memory) : State :=
  { State.reset with
    cr0 := 0x80010001
    cr3 := 0x0010001F
    cr4 := 0x20
    efer := 0x800
    pdpte := ⟨some 0x101001, some 0, some 0x102001, some 0x800103001⟩
    mem := m }

/-- A path of Image A through a page table: linear addresses 0x00401xxx and 0x00402xxx. -/
def pathA : Memory := quads [(0x101010, 0x104007), (0x104008, 0xABCDE5007), (0x104010, 0x200005)]

/-- A page of Image A of 2 MBytes: linear addresses 0x80Axxxxx and 0x80Bxxxxx. -/
def pageA : Memory := quads [(0x102028, 0xFFFE00087)]

/-- Table A, with PDPT[1] overwritten as in vector L2, and the bad table B. -/
def tablesAB : Memory :=
  quads [(0x100000, 0x101001), (0x100008, 0x102001), (0x100010, 0x102001), (0x100018, 0x800103001),
    (0x110000, 0x101001), (0x110008, 0x102007)]

/-- The registers after a load of that table. -/
def loadedA : Pdptes := ⟨some 0x101001, some 0x102001, some 0x102001, some 0x800103001⟩

/-- The exception of a state, if its latest outcome is one. -/
def raised (t : State) : Option (Byte × Word) :=
  match t.answer with
  | .exception v ec => some (v, ec)
  | _ => none

/-- A physical address with the page size, if the latest outcome is a translation. -/
def reached (t : State) : Option (Quad × Option PageSize) :=
  match t.answer with
  | .translation tr => some (tr.pa, tr.page.map PageAttrs.size)
  | _ => none

/-! ## Well-formedness: one ill-formed term for each check -/

theorem test_illFormed_pdpteNotPresent : (Instr.pdpteNotPresent 0x1).wf = false := by decide
theorem test_illFormed_pdpte : (Instr.pdpte 0x101000).wf = false := by decide
theorem test_illFormed_pdeNotPresent : (Instr.pdeNotPresent 0x1).wf = false := by decide
theorem test_illFormed_pde2M_notPresent : (Instr.pde2M 0x80).wf = false := by decide
theorem test_illFormed_pde2M_noPS : (Instr.pde2M 0x1).wf = false := by decide
theorem test_illFormed_pdePT_notPresent : (Instr.pdePT 0x0).wf = false := by decide
theorem test_illFormed_pdePT_PS : (Instr.pdePT 0x81).wf = false := by decide
theorem test_illFormed_pteNotPresent : (Instr.pteNotPresent 0x1).wf = false := by decide
theorem test_illFormed_pte4K : (Instr.pte4K 0x2).wf = false := by decide
theorem test_illFormed_linRead : (Instr.linRead 0 0 .user).wf = false := by decide
theorem test_illFormed_linWrite_empty : (Instr.linWrite 0 0 0 .user).wf = false := by decide
theorem test_illFormed_linWrite_wide : (Instr.linWrite 0 1 256 .user).wf = false := by decide
theorem test_illFormed_linFetch : (Instr.linFetch 0 0 .user).wf = false := by decide

/-! ## Decoding: bytes written from 30_encoding.md R74 to R76 and the entries of Image A -/

theorem test_decode_movToCR0 : decode .code [0x0F, 0x22, 0b11000000] = .ok (.movToCR0 (.reg .eax)) [] := by decide
theorem test_decode_movToCR3 : decode .code [0x0F, 0x22, 0b11011110] = .ok (.movToCR3 (.reg .esi)) [] := by decide
/-- modrm[7:6] is ignored (R75). -/
theorem test_decode_movToCR4 : decode .code [0x0F, 0x22, 0b00100111] = .ok (.movToCR4 (.reg .edi)) [] := by decide
theorem test_decode_movFromCR0 : decode .code [0x0F, 0x20, 0b11000011] = .ok (.movFromCR0 .ebx) [] := by decide
theorem test_decode_movFromCR2 : decode .code [0x0F, 0x20, 0b11010100] = .ok (.movFromCR2 .esp) [] := by decide
theorem test_decode_movFromCR3 : decode .code [0x0F, 0x20, 0b11011001] = .ok (.movFromCR3 .ecx) [] := by decide
theorem test_decode_movFromCR4 : decode .code [0x0F, 0x20, 0b11100101] = .ok (.movFromCR4 .ebp) [] := by decide
theorem test_decode_movToCR2 : decode .code [0x0F, 0x22, 0b11010001] = .movToCR2 .ecx [] := by decide
theorem test_decode_noSuchControlRegister : decode .code [0x0F, 0x20, 0b11101000] = .rejected .noSuchControlRegister := by decide
theorem test_decode_notMove : decode .code [0x0F, 0x21, 0xC0] = .rejected .notControlRegisterMove := by decide
theorem test_decode_truncated : decode .pageTable [1, 2, 3] = .rejected .truncated := by decide
theorem test_decode_pdpte :
    decode .pdpteRegister [0x01, 0x30, 0x10, 0x00, 0x08, 0, 0, 0] = .ok (.pdpte 0x800103001) [] := by decide
theorem test_decode_pdpteNotPresent :
    decode .pdpteRegister [0xE6, 0x01, 0, 0, 0, 0, 0, 0] = .ok (.pdpteNotPresent 0x1E6) [] := by decide
theorem test_decode_pdePT :
    decode .pageDirectory [0x07, 0x90, 0x10, 0, 0, 0, 0, 0x80] = .ok (.pdePT 0x8000000000109007) [] := by decide
theorem test_decode_pde2M :
    decode .pageDirectory [0x87, 0x00, 0xE0, 0xFF, 0x0F, 0, 0, 0] = .ok (.pde2M 0xFFFE00087) [] := by decide
theorem test_decode_pdeNotPresent :
    decode .pageDirectory [0x80, 0, 0, 0, 0, 0, 0, 0] = .ok (.pdeNotPresent 0x80) [] := by decide
theorem test_decode_pte4K :
    decode .pageTable [0x87, 0x30, 0x20, 0, 0, 0, 0, 0] = .ok (.pte4K 0x203087) [] := by decide
theorem test_decode_pteNotPresent :
    decode .pageTable [0xFE, 0, 0, 0, 0, 0, 0, 0xFF] = .ok (.pteNotPresent 0xFF000000000000FE) [] := by decide
theorem test_decode_formats :
    decode .linearAddress4K [0x34, 0x12, 0x40, 0] = .ok (.linearAddress4K 0x00401234) [] ∧
    decode .linearAddress2M [0x21, 0x43, 0x65, 0x80] = .ok (.linearAddress2M 0x80654321) [] ∧
    decode .cr3 [0x1F, 0, 0x10, 0] = .ok (.cr3Pae 0x0010001F) [] := by decide

/-! ## The table's numbering, and the first step after reset -/

theorem test_tableWord_movToCR3 : decodeTableWord 24 0x0F22D8 = some (.movToCR3 (.reg .eax)) := by decide
theorem test_tableWord_pde2M : decodeTableWord 64 0x81 = some (.pde2M 0x81) := by decide
theorem test_tableWord_linearAddress : decodeTableWord 32 0x00401234 = some (.linearAddress4K 0x00401234) := by decide
theorem test_fetchWord_movToCR0 :
    nextIs (step (State.reset.withFetchWord 24 0x0F22C0)) (fun t => t.cr0 == 0 && t.events.isEmpty) = true := by decide
theorem test_fetchWord_pde2M :
    nextIs (step (State.reset.withFetchWord 64 0x81)) (fun t => reached t == some (0, some .page2M)) = true := by decide
theorem test_fetchWord_notPresent :
    nextIs (step (State.reset.withFetchWord 64 0x0)) (fun t => raised t == some (14, 0)) = true := by decide
theorem test_fetchWord_linearAddress :
    nextIs (step (State.reset.withFetchWord 32 0x00401234))
      (fun t => t.answer == .linear4K 0 2 1 0x234) = true := by decide

/-! ## The rows -/

/-- A walk of Image A at a stage. -/
def walking (m : Memory) (la : Word) (kind : AccessKind) (mode : AccessMode) (st : Stage) : State :=
  { imageA m with walk := some ⟨la, kind, mode, st⟩ }

/-- 0x101000 + 8 * 2 (section 1). -/
theorem test_pdpte :
    nextIs (exec (.pdpte 0x101001) (walking [] 0x00401234 .read .user .pdptr))
      (fun t => t.walk == some ⟨0x00401234, .read, .user, .directory 0x101010⟩) = true := by decide
/-- T35 -/
theorem test_pdpteNotPresent :
    nextIs (exec (.pdpteNotPresent 0) (walking [] 0x40000000 .write .user .pdptr))
      (fun t => raised t == some (14, 0x06) && t.cr2 == 0x40000000 && t.walk.isNone) = true := by decide
/-- T23 -/
theorem test_pdeNotPresent :
    nextIs (exec (.pdeNotPresent 0) (walking [] 0x00A00000 .read .supervisor (.directory 0x101028)))
      (fun t => raised t == some (14, 0x00) && t.cr2 == 0x00A00000) = true := by decide
/-- T43 -/
theorem test_pde2M :
    nextIs (exec (.pde2M 0xFFFE00087) (walking pageA 0x80BFFFFF .write .user (.directory 0x102028)))
      (fun t => reached t == some (0xFFFFFFFFF, some .page2M) && t.mem.readQuad 0x102028 == 0xFFFE000E7) =
      true := by decide
/-- T41 -/
theorem test_pde2M_reserved :
    nextIs (exec (.pde2M 0xC08020E7) (walking [] 0x80800000 .read .supervisor (.directory 0x102020)))
      (fun t => raised t == some (14, 0x09)) = true := by decide
/-- 0x104000 + 8 * 1 (section 1). -/
theorem test_pdePT :
    nextIs (exec (.pdePT 0x104007) (walking [] 0x00401234 .read .user (.directory 0x101010)))
      (fun t => t.walk == some ⟨0x00401234, .read, .user, .table 0x101010 0x104007 0x104008⟩) = true := by decide
/-- T33 -/
theorem test_pdePT_reserved :
    nextIs (exec (.pdePT 0x1000000010A007) (walking [] 0x01000000 .read .supervisor (.directory 0x101040)))
      (fun t => raised t == some (14, 0x09)) = true := by decide
/-- T12 -/
theorem test_pteNotPresent :
    nextIs (exec (.pteNotPresent 0)
        (walking [] 0x00404000 .write .user (.table 0x101010 0x104007 0x104020)))
      (fun t => raised t == some (14, 0x06) && t.cr2 == 0x00404000) = true := by decide
/-- T2: A in both entries, D in the PTE only. -/
theorem test_pte4K :
    nextIs (exec (.pte4K 0xABCDE5007)
        (walking pathA 0x00401234 .write .user (.table 0x101010 0x104007 0x104008)))
      (fun t => reached t == some (0xABCDE5234, some .page4K) &&
        t.mem.readQuad 0x101010 == 0x104027 && t.mem.readQuad 0x104008 == 0xABCDE5067) = true := by decide
/-- T15: the reserved bit is reported before the rights violation. -/
theorem test_pte4K_reserved :
    nextIs (exec (.pte4K 0x1000202003)
        (walking [] 0x00405000 .write .user (.table 0x101010 0x104007 0x104028)))
      (fun t => raised t == some (14, 0x0F)) = true := by decide

/-- S3 -/
theorem test_linearAddress4K :
    nextIs (exec (.linearAddress4K 0x00401234) State.reset) (fun t => t.answer == .linear4K 0 2 1 0x234) =
      true := by decide
/-- 0x80654321: 31:30 = 2, 29:21 = 3 (T37). -/
theorem test_linearAddress2M :
    nextIs (exec (.linearAddress2M 0x80654321) State.reset) (fun t => t.answer == .linear2M 2 3 0x54321) =
      true := by decide
/-- Bits 4:0 of CR3 are ignored (section 2). -/
theorem test_cr3Pae :
    nextIs (exec (.cr3Pae 0x0010001F) State.reset) (fun t => t.answer == .pdptBase 0x100000) = true := by decide

/-- L3: CD changes, so the registers are loaded. -/
theorem test_movToCR0_reload :
    nextIs (exec (.movToCR0 (.value 0xC0010001)) (imageA tablesAB))
      (fun t => t.cr0 == 0xC0010001 && t.pdpte == loadedA) = true := by decide
/-- L2: WP does not reload. -/
theorem test_movToCR0_store :
    nextIs (exec (.movToCR0 (.value 0x80000001)) (imageA tablesAB))
      (fun t => t.cr0 == 0x80000001 && t.pdpte == (imageA tablesAB).pdpte) = true := by decide
/-- L7 -/
theorem test_movToCR3 :
    nextIs (exec (.movToCR3 (.value 0x0010001F)) (imageA tablesAB)) (fun t => t.pdpte == loadedA) = true := by
  decide
/-- L9 -/
theorem test_movToCR3_bad :
    nextIs (exec (.movToCR3 (.value 0x00110000)) (imageA tablesAB))
      (fun t => raised t == some (13, 0) && t.cr3 == 0x0010001F && t.pdpte == (imageA tablesAB).pdpte) =
      true := by decide
/-- L12 -/
theorem test_movToCR4_reload :
    nextIs (exec (.movToCR4 (.value 0x00100020)) (imageA tablesAB))
      (fun t => t.cr4 == 0x00100020 && t.pdpte == loadedA) = true := by decide
/-- L13: SMAP does not reload. -/
theorem test_movToCR4_store :
    nextIs (exec (.movToCR4 (.value 0x00200020)) (imageA tablesAB))
      (fun t => t.cr4 == 0x00200020 && t.pdpte == (imageA tablesAB).pdpte) = true := by decide
/-- R76, with the control registers of Image A. -/
theorem test_movFrom :
    nextIs (exec (.movFromCR0 .edi) (imageA [])) (fun t => t.gpr.edi == 0x80010001 && t.gpr.eax == 0) = true ∧
    nextIs (exec (.movFromCR2 .eax) { imageA [] with cr2 := 0x1234 }) (fun t => t.gpr.eax == 0x1234) = true ∧
    nextIs (exec (.movFromCR3 .ecx) (imageA [])) (fun t => t.gpr.ecx == 0x0010001F) = true ∧
    nextIs (exec (.movFromCR4 .esp) (imageA [])) (fun t => t.gpr.esp == 0x20) = true := by decide
/-- R87, at privilege level 3. -/
theorem test_movFrom_user :
    nextIs (exec (.movFromCR3 .eax) { imageA [] with cpl := 3 })
      (fun t => raised t == some (13, 0) && t.gpr.eax == 0) = true := by decide
/-- R75 with n = 2, as the next step: CR2 takes the register (log 27); at privilege level 3 it does not (R87). -/
theorem test_movToCR2 :
    let s := { imageA [] with gpr := { Gprs.zero with esi := 0x1234 }, events := [.code [0x0F, 0x22, 0b11010110]] }
    nextIs (step s) (fun t => t.cr2 == 0x1234 && t.answer == .done) = true ∧
    nextIs (step { s with cpl := 3 }) (fun t => raised t == some (13, 0) && t.cr2 == 0) = true := by decide
/-- R80 -/
theorem test_loadPDPTEs :
    nextIs (exec .loadPDPTEs (imageA tablesAB)) (fun t => t.pdpte == loadedA) = true := by decide
/-- R81, bit 36 of entry 0 with M = 36 (L10). -/
theorem test_loadPDPTEs_bad :
    nextIs (exec .loadPDPTEs { imageA (quads [(0x110040, 0x1000101001)]) with cr3 := 0x00110040 })
      (fun t => raised t == some (13, 0)) = true := by decide
/-- L19: entry 1 with P = 0 is not bad by the default parameter. -/
theorem test_taskSwitchCR3 :
    nextIs (exec (.taskSwitchCR3 0x00110020)
        (imageA (quads [(0x110020, 0x101001), (0x110028, 0x1E6), (0x110030, 0x102001)])))
      (fun t => t.cr3 == 0x00110020 && t.pdpte == ⟨some 0x101001, some 0x1E6, some 0x102001, some 0⟩) =
      true := by decide
/-- R85: the bad table B. -/
theorem test_taskSwitchCR3_bad :
    refusal (exec (.taskSwitchCR3 0x00110000) (imageA tablesAB)) = some .taskSwitchFault := by decide
/-- T1 -/
theorem test_translate :
    nextIs (exec (.translate 0x00401234 .read .user) (imageA pathA))
      (fun t => reached t == some (0xABCDE5234, some .page4K) &&
        t.mem.readQuad 0x101010 == 0x104027 && t.mem.readQuad 0x104008 == 0xABCDE5027) = true := by decide
/-- T5 -/
theorem test_translate_rights :
    nextIs (exec (.translate 0x00402ABC .write .user) (imageA pathA))
      (fun t => raised t == some (14, 0x07) && t.cr2 == 0x00402ABC) = true := by decide

/-- `pathA` with the data of Image A that crosses from page 0xABCDE5000 to page 0x200000. -/
def dataA : Memory := (pathA.writeBytes 0xABCDE5FFE [0x11, 0x22]).writeBytes 0x200000 [0x33, 0x44]

/-- A3 -/
theorem test_linRead :
    nextIs (exec (.linRead 0x00401FFE 4 .user) (imageA dataA)) (fun t => t.answer == .value 4 0x44332211) =
      true := by decide
/-- A2 -/
theorem test_linWrite :
    nextIs (exec (.linWrite 0x00401234 4 0x11223344 .user) (imageA pathA))
      (fun t => t.mem.readBytes 0xABCDE5234 4 == [0x44, 0x33, 0x22, 0x11] &&
        t.mem.readQuad 0x104008 == 0xABCDE5067) = true := by decide
/-- A6 -/
theorem test_linFetch_noExecute :
    nextIs (exec (.linFetch 0x00403000 1 .supervisor)
        (imageA (quads [(0x101010, 0x104007), (0x104018, 0x8000000000201003)])))
      (fun t => raised t == some (14, 0x11) && t.cr2 == 0x00403000) = true := by decide
/-- The fetch allowed by T3, of the data of Image A. -/
theorem test_linFetch :
    nextIs (exec (.linFetch 0x00401FFE 2 .user) (imageA dataA)) (fun t => t.answer == .value 2 0x2211) =
      true := by decide
/-- L21 -/
theorem test_setEFER :
    nextIs (exec (.setEFER 0) (imageA [])) (fun t => t.efer == 0 && t.pdpte == (imageA []).pdpte) = true := by
  decide
/-- R122: user mode does not change IA32_EFER; R80: LoadPDPTEs has no privilege condition. -/
theorem test_userMode :
    nextIs (exec (.setEFER 0) { imageA [] with cpl := 3 }) (fun t => raised t == some (13, 0) && t.efer == 0x800) =
      true ∧
    nextIs (exec .loadPDPTEs { imageA tablesAB with cpl := 3 }) (fun t => t.pdpte == loadedA) = true := by decide
/-- L22 -/
theorem test_setEFER_lme : refusal (exec (.setEFER 0x900) (imageA [])) = some .lmeChangeWhilePaging := by decide
/-- R88 -/
theorem test_setAC :
    nextIs (exec (.setAC true) State.reset) (fun t => t.eflags == 0x00040002) = true := by decide
/-- P1, step 2: a move spelled in code bytes at the address the surrounding model
names (identity fetch, paging off). -/
theorem test_runAt :
    nextIs (step { State.reset with
        mem := Memory.writeBytes [] 0x7C00 [0x0F, 0x22, 0xD8]
        gpr := { Gprs.zero with eax := 0x00100000 }
        events := [.runAt 0x7C00] })
      (fun t => t.cr3 == 0x00100000 && t.events.isEmpty) = true := by decide

/-- R132: A of a present PTE with a reserved bit (36) is set, and during a walk too, which stands still. -/
theorem test_speculate :
    let s := { imageA (quads [(0x101010, 0x104007), (0x104010, 0x1000200005)]) with
      events := [.speculate 0x00402000 true], walk := some ⟨0, .read, .user, .pdptr⟩ }
    nextIs (step s) (fun t => t.mem.readQuad 0x104010 == 0x1000200025 && t.mem.readQuad 0x101010 == 0x104007 &&
      t.walk == s.walk && t.events.isEmpty) = true := by decide

/-- R136: after a page fault the queue is run no further. -/
theorem test_runEnds :
    let s := { imageA [] with answer := .exception 14 0, events := [.operation (.setAC true)] }
    nextIs (step s) (fun t => t == s) = true ∧ endOfRun s = true ∧ completed s = false := by decide

/-- R131: the run that changes the present PTE of 0x00402000 must not use it before the next `MovToCR3`; a change
that only sets A is none. -/
theorem test_stale :
    let s0 := { imageA (pathA) with events := [.agentWrite 0x104010 [0x07]] }
    let s1 := { s0 with mem := s0.mem.writeBytes 0x104010 [0x07], events := [.operation (.movToCR3 (.value 0))] }
    let s2 := { s1 with events := [] }
    stale 0x00402000 [s0, s1] = true ∧
    stale 0x00401000 [s0, s1] = false ∧
    stale 0x00402000 [s0, s1, s2] = false ∧
    stale 0x00402000 [s0, { s1 with mem := s0.mem.writeBytes 0x104010 [0x25] }] = false ∧
    stale 0x00402000 [{ s2 with mem := s0.mem.writeBytes 0x104010 [0x25] }, s0] = true := by decide

/-- R131: with its PDE not present, a present PTE is changed; the path leads to it again one step later. With G = 1
(bit 8) the PTE is a global entry all the while. -/
theorem test_changedOffPath :
    let p : Structures := ⟨[0x101], [0x104]⟩
    let s0 := imageA (quads [(0x104010, 0x200105)])
    let s1 := { s0 with mem := quads [(0x104010, 0x201105)] }
    let s2 := { s0 with mem := quads [(0x101010, 0x104007), (0x104010, 0x201105)] }
    pathAddresses s0 0x00402000 = [0x101010] ∧ p.globalEntry s0 0x104010 = true ∧
    changedEntry s0 s1 0x104010 = true ∧ p.globalEntry s0 0x101010 = false ∧
    stale 0x00402000 [s0, s1] = false ∧ stale 0x00402000 [s0, s1, s2] = true := by decide

/-! ## Witnesses: states and operands that meet the hypotheses of the obligations -/

/-- Image A with both paths and its table. -/
def full : State := imageA (quads
  [(0x100000, 0x101001), (0x100010, 0x102001), (0x100018, 0x800103001),
   (0x101010, 0x104007), (0x102028, 0xFFFE00087), (0x104008, 0xABCDE5007), (0x104010, 0x200005)])

/-- The last linear address, with the registers unloaded. -/
theorem witness_UnloadedPdpteRegisterFaults :
    let s := { full with pdpte := Pdptes.unloaded }
    s.paeInUse = true ∧ cr4CET s.cr4 = false ∧ s.pdpte.select (laPdpteIndex 0xFFFFFFFF) = none := by decide

theorem witness_PagingModeOfControlFlags :
    State.reset.cr0.getLsbD 31 = false ∧
    (∃ cr0 cr4 : Word, ∃ efer : Quad,
      cr0.getLsbD 31 = true ∧ cr4.getLsbD 5 = false ∧ efer.getLsbD 8 = false) ∧
    (∃ cr0 cr4 : Word, ∃ efer : Quad,
      cr0.getLsbD 31 = true ∧ cr4.getLsbD 5 = false ∧ efer.getLsbD 8 = true) ∧
    (∃ cr0 cr4 : Word, ∃ efer : Quad,
      cr0.getLsbD 31 = true ∧ cr4.getLsbD 5 = true ∧ efer.getLsbD 8 = false) ∧
    (∃ cr0 cr4 : Word, ∃ efer : Quad,
      cr0.getLsbD 31 = true ∧ cr4.getLsbD 5 = true ∧ efer.getLsbD 8 = true ∧ cr4.getLsbD 12 = false) ∧
    (∃ cr0 cr4 : Word, ∃ efer : Quad,
      cr0.getLsbD 31 = true ∧ cr4.getLsbD 5 = true ∧ efer.getLsbD 8 = true ∧ cr4.getLsbD 12 = true) :=
  ⟨by decide, ⟨0x80000001, 0, 0, by decide⟩, ⟨0x80000001, 0, 0x100, by decide⟩,
    ⟨0x80000001, 0x20, 0, by decide⟩, ⟨0x80000001, 0x20, 0x100, by decide⟩,
    ⟨0x80000001, 0x1020, 0x100, by decide⟩⟩

theorem witness_PagingOffTranslatesToItself : cr0PG State.reset.cr0 = false := by decide

theorem witness_OtherModesAndCetRefused :
    1 ≤ 1 ∧
    ({ full with cr4 := 0 }.pagingMode ≠ .none ∧ { full with cr4 := 0 }.pagingMode ≠ .pae) ∧
    ({ full with efer := 0x100 }.pagingMode ≠ .none ∧ { full with efer := 0x100 }.pagingMode ≠ .pae) ∧
    ({ full with cr4 := 0x00800020 }.pagingMode = .pae ∧ cr4CET (0x00800020 : Word) = true) := by decide

/-- T43: the highest physical address of a 36-bit space. -/
theorem witness_PhysicalAddressesBelowM :
    ∃ t tr, exec (.translate 0x80BFFFFF .write .user) full = .next t ∧ t.answer = .translation tr ∧
      tr.pa = 0xFFFFFFFFF := by
  obtain ⟨t, ht, hp⟩ := exists_next (o := exec (.translate 0x80BFFFFF .write .user) full)
    (p := fun t => t.answer == .translation ⟨0xFFFFFFFFF, some ⟨.page2M, false, false, false, false⟩⟩)
    (by decide)
  exact ⟨t, _, ht, beq_iff_eq.mp hp, rfl⟩

theorem witness_EntriesAreLittleEndian : readEntry full 0x104008 = some 0xABCDE5007 := by decide

/-- Boundary bits of each clause: 36 and 62, 13 and 20, 63, 12, 7. -/
theorem witness_ReservedBitsOfEntries :
    rsvdPde2M Config.initial true 0x1000000081 = true ∧ rsvdPde2M Config.initial true 0x4000000000000081 = true ∧
    rsvdPde2M Config.initial true 0x2081 = true ∧ rsvdPde2M Config.initial true 0x100081 = true ∧
    rsvdPde2M Config.initial false 0x8000000000000081 = true ∧
    rsvdPde2M { Config.initial with patSupported := false } true 0x1081 = true ∧
    rsvdPde2M Config.initial true 0x8000000FFFE01FFF = false ∧
    rsvdPdePT Config.initial false 0x8000000000000001 = true ∧
    rsvdPdePT Config.initial true 0x8000000FFFFFFF7F = false ∧
    rsvdPte { Config.initial with patSupported := false } true 0x81 = true ∧
    rsvdPte Config.initial true 0x8000000FFFFFFFFF = false := by decide

/-- Boundary bits of each clause: 1, 2, 5, 8, 36, 63, and P = 0. -/
theorem witness_BadPdpteBits :
    pdpteBad Config.initial 0x3 = true ∧ pdpteBad Config.initial 0x5 = true ∧
    pdpteBad Config.initial 0x21 = true ∧ pdpteBad Config.initial 0x101 = true ∧
    pdpteBad Config.initial 0x1000000001 = true ∧ pdpteBad Config.initial 0x8000000000000001 = true ∧
    pdpteBad Config.initial 0x1E6 = false ∧ pdpteBad Config.initial 0xFFFFFFE19 = false ∧
    pdpteBad { Config.initial with pdpteRsvdCheckIfNotPresent := true } 0x1E6 = true := by decide

/-- Image A with tables A (PDPT[1] overwritten) and B. -/
def withB : State := imageA tablesAB

theorem witness_LoadPdptesAllOrNothing :
    let bad := { withB with cr3 := 0x00110000 }
    tableInRam withB withB.cr3 = true ∧ tableBad withB withB.cr3 = false ∧
    tableInRam bad bad.cr3 = true ∧ tableBad bad bad.cr3 = true := by decide

theorem witness_MovToCR3Reloads :
    withB.cpl = 0 ∧ sourceValue { withB with gpr := { Gprs.zero with eax := 0x00100000 } } (.reg .eax) = 0x00100000 ∧
    sourceValue withB (.value 0x00110000) = 0x00110000 ∧ withB.paeInUse = true ∧
    tableInRam withB 0x00100000 = true ∧ tableBad withB 0x00100000 = false ∧
    tableInRam withB 0x00110000 = true ∧ tableBad withB 0x00110000 = true ∧
    State.reset.paeInUse = false := by decide

theorem witness_MovToCR0Reloads :
    withB.cpl = 0 ∧ sourceValue withB (.value 0xC0010001) = 0xC0010001 ∧
    ((0x80000000 : Word).getLsbD 31 = true ∧ (0x80000000 : Word).getLsbD 0 = false) ∧
    ¬((0xC0010001 : Word).getLsbD 31 = true ∧ (0xC0010001 : Word).getLsbD 0 = false) ∧
    pagingModeOf 0xC0010001 withB.cr4 withB.efer = .pae ∧
    withB.cr0.getLsbD 30 ≠ (0xC0010001 : Word).getLsbD 30 ∧
    tableInRam withB withB.cr3 = true ∧ tableBad withB withB.cr3 = false ∧
    tableBad { withB with cr3 := 0x00110000 } 0x00110000 = true ∧
    pagingModeOf 0x00010001 withB.cr4 withB.efer ≠ .pae ∧
    (withB.cr0.getLsbD 30 = (0x80000001 : Word).getLsbD 30 ∧
      withB.cr0.getLsbD 29 = (0x80000001 : Word).getLsbD 29 ∧
      withB.cr0.getLsbD 31 = (0x80000001 : Word).getLsbD 31) := by decide

theorem witness_MovToCR4Reloads :
    withB.cpl = 0 ∧ sourceValue withB (.value 0x00100020) = 0x00100020 ∧
    ((0x00100020 : Word).getLsbD 20 = true ∧ { Config.initial with smepSupported := false }.smepSupported = false) ∧
    ((0x00200020 : Word).getLsbD 21 = true ∧ { Config.initial with smapSupported := false }.smapSupported = false) ∧
    ((0x000000A0 : Word).getLsbD 7 = true ∧ { Config.initial with pgeSupported := false }.pgeSupported = false) ∧
    ((0x80000000 : Word) &&& { Config.initial with cr4Reserved := 0x80000000 }.cr4Reserved ≠ 0) ∧
    cr4Illegal withB.cfg 0x00100020 = false ∧ pagingModeOf withB.cr0 0x00100020 withB.efer = .pae ∧
    withB.cr4.getLsbD 20 ≠ (0x00100020 : Word).getLsbD 20 ∧
    tableInRam withB withB.cr3 = true ∧ tableBad withB withB.cr3 = false ∧
    tableBad { withB with cr3 := 0x00110000 } 0x00110000 = true ∧
    pagingModeOf withB.cr0 0 withB.efer ≠ .pae ∧
    (withB.cr4.getLsbD 5 = (0x00200020 : Word).getLsbD 5 ∧ withB.cr4.getLsbD 7 = (0x00200020 : Word).getLsbD 7 ∧
      withB.cr4.getLsbD 4 = (0x00200020 : Word).getLsbD 4 ∧
      withB.cr4.getLsbD 20 = (0x00200020 : Word).getLsbD 20) := by decide

theorem witness_TaskSwitchLoadsChangedCR3 :
    State.reset.paeInUse = false ∧ withB.paeInUse = true ∧
    ((0x00100000 : Word) ≠ withB.cr3 ∧ tableInRam withB 0x00100000 = true ∧ tableBad withB 0x00100000 = false) ∧
    ((0x00110000 : Word) ≠ withB.cr3 ∧ tableInRam withB 0x00110000 = true ∧ tableBad withB 0x00110000 = true) ∧
    ((0x0010001F : Word) = withB.cr3 ∧ tableInRam withB 0x0010001F = true ∧ tableBad withB 0x0010001F = false) ∧
    { withB with cr3 := 0x00110000 }.paeInUse = true ∧ tableInRam withB 0x00110000 = true ∧
    tableBad withB 0x00110000 = true := by decide

/-- A load that changes a register (L7). -/
theorem witness_OnlyLoadsChangePdptes :
    ∃ t, exec (.movToCR3 (.value 0x0010001F)) withB = .next t ∧ t.pdpte ≠ withB.pdpte := by
  obtain ⟨t, ht, hp⟩ := exists_next (o := exec (.movToCR3 (.value 0x0010001F)) withB)
    (p := fun t => decide (t.pdpte ≠ withB.pdpte)) (by decide)
  exact ⟨t, ht, of_decide_eq_true hp⟩

theorem witness_MovFromCopiesControlRegister : full.cpl = 0 := by decide

theorem witness_MovesNeedPrivilegeLevelZero :
    { full with cpl := 1 }.cpl ≠ 0 ∧ { full with cpl := 3 }.cpl ≠ 0 := by decide

theorem witness_SetEferAndSetAcStore :
    full.cpl = 0 ∧ ¬(cr0PG full.cr0 = true ∧ (0x800 : Quad).getLsbD 8 ≠ full.efer.getLsbD 8) ∧
    { Config.initial with lmSupported := true }.nxSupported = true ∧
    { Config.initial with lmSupported := true }.lmSupported = true ∧
    (full.cfg.nxSupported = true ∨ full.cfg.lmSupported = true) ∧
    { Config.initial with nxSupported := false }.nxSupported = false ∧ Config.initial.lmSupported = false ∧
    (cr0PG full.cr0 = true ∧ (0x900 : Quad).getLsbD 8 ≠ full.efer.getLsbD 8) := by decide

/-- T2. -/
theorem witness_TranslateThrough4KPage :
    full.paeInUse = true ∧ cr4CET full.cr4 = false ∧
    full.pdpte.select (laPdpteIndex 0x00401234) = some 0x101001 ∧ (0x101001 : Quad).getLsbD 0 = true ∧
    readEntry full (pdeAddr full.cfg 0x101001 0x00401234) = some 0x104007 ∧
    (0x104007 : Quad).getLsbD 0 = true ∧ (0x104007 : Quad).getLsbD 7 = false ∧
    rsvdPdePT full.cfg (full.efer.getLsbD 11) 0x104007 = false ∧
    readEntry full (pteAddr full.cfg 0x104007 0x00401234) = some 0xABCDE5007 ∧
    (0xABCDE5007 : Quad).getLsbD 0 = true ∧ rsvdPte full.cfg (full.efer.getLsbD 11) 0xABCDE5007 = false ∧
    rights full .write .user ((0x104007 : Quad).getLsbD 2 && (0xABCDE5007 : Quad).getLsbD 2)
      ((0x104007 : Quad).getLsbD 1 && (0xABCDE5007 : Quad).getLsbD 1)
      (full.efer.getLsbD 11 && ((0x104007 : Quad).getLsbD 63 || (0xABCDE5007 : Quad).getLsbD 63)) = true := by
  decide

/-- T43. -/
theorem witness_TranslateThrough2MPage :
    full.paeInUse = true ∧ cr4CET full.cr4 = false ∧
    full.pdpte.select (laPdpteIndex 0x80BFFFFF) = some 0x102001 ∧ (0x102001 : Quad).getLsbD 0 = true ∧
    readEntry full (pdeAddr full.cfg 0x102001 0x80BFFFFF) = some 0xFFFE00087 ∧
    (0xFFFE00087 : Quad).getLsbD 0 = true ∧ (0xFFFE00087 : Quad).getLsbD 7 = true ∧
    rsvdPde2M full.cfg (full.efer.getLsbD 11) 0xFFFE00087 = false ∧
    rights full .write .user ((0xFFFE00087 : Quad).getLsbD 2) ((0xFFFE00087 : Quad).getLsbD 1)
      (full.efer.getLsbD 11 && (0xFFFE00087 : Quad).getLsbD 63) = true := by decide

/-- One page directory entry at 0x101000 + 8 * 4. -/
def withPde (e : Quad) : State := imageA (quads [(0x101020, e)])

/-- T34, T23, T41 and T33 (bits 13 and 52), T39 (a read-only page). -/
theorem witness_PageFaultsAtRegisterAndDirectory :
    full.paeInUse = true ∧ cr4CET full.cr4 = false ∧
    (full.pdpte.select (laPdpteIndex 0x40000000) = some 0 ∧ (0 : Quad).getLsbD 0 = false) ∧
    (full.pdpte.select (laPdpteIndex 0x00800000) = some 0x101001 ∧ (0x101001 : Quad).getLsbD 0 = true) ∧
    (readEntry (withPde 0) (pdeAddr full.cfg 0x101001 0x00800000) = some 0 ∧ (0 : Quad).getLsbD 0 = false) ∧
    (readEntry (withPde 0xC08020E7) (pdeAddr full.cfg 0x101001 0x00800000) = some 0xC08020E7 ∧
      (0xC08020E7 : Quad).getLsbD 0 = true ∧ (0xC08020E7 : Quad).getLsbD 7 = true ∧
      rsvdPde2M full.cfg full.nxe 0xC08020E7 = true) ∧
    (readEntry (withPde 0x1000000010A007) (pdeAddr full.cfg 0x101001 0x00800000) = some 0x1000000010A007 ∧
      (0x1000000010A007 : Quad).getLsbD 0 = true ∧ (0x1000000010A007 : Quad).getLsbD 7 = false ∧
      rsvdPdePT full.cfg full.nxe 0x1000000010A007 = true) ∧
    (readEntry (withPde 0x80000000C06000E1) (pdeAddr full.cfg 0x101001 0x00800000) = some 0x80000000C06000E1 ∧
      (0x80000000C06000E1 : Quad).getLsbD 0 = true ∧ (0x80000000C06000E1 : Quad).getLsbD 7 = true ∧
      rsvdPde2M full.cfg full.nxe 0x80000000C06000E1 = false ∧
      rights full .write .supervisor ((0x80000000C06000E1 : Quad).getLsbD 2)
        ((0x80000000C06000E1 : Quad).getLsbD 1) (full.nxe && (0x80000000C06000E1 : Quad).getLsbD 63) = false) := by
  decide

/-- The page-table entry of 0x00402ABC holds `t`. -/
def withPte (t : Quad) : State := imageA (quads [(0x101010, 0x104007), (0x104010, t)])

/-- T11, T14, T5. -/
theorem witness_PageFaultsAtPageTable :
    full.paeInUse = true ∧ cr4CET full.cr4 = false ∧
    full.pdpte.select (laPdpteIndex 0x00402ABC) = some 0x101001 ∧ (0x101001 : Quad).getLsbD 0 = true ∧
    readEntry (withPte 0) (pdeAddr full.cfg 0x101001 0x00402ABC) = some 0x104007 ∧
    (0x104007 : Quad).getLsbD 0 = true ∧ (0x104007 : Quad).getLsbD 7 = false ∧
    rsvdPdePT full.cfg full.nxe 0x104007 = false ∧
    (readEntry (withPte 0) (pteAddr full.cfg 0x104007 0x00402ABC) = some 0 ∧ (0 : Quad).getLsbD 0 = false) ∧
    (readEntry (withPte 0x1000202003) (pteAddr full.cfg 0x104007 0x00402ABC) = some 0x1000202003 ∧
      (0x1000202003 : Quad).getLsbD 0 = true ∧ rsvdPte full.cfg full.nxe 0x1000202003 = true) ∧
    (readEntry (withPte 0x200005) (pteAddr full.cfg 0x104007 0x00402ABC) = some 0x200005 ∧
      (0x200005 : Quad).getLsbD 0 = true ∧ rsvdPte full.cfg full.nxe 0x200005 = false ∧
      rights full .write .user ((0x104007 : Quad).getLsbD 2 && (0x200005 : Quad).getLsbD 2)
        ((0x104007 : Quad).getLsbD 1 && (0x200005 : Quad).getLsbD 1)
        (full.nxe && ((0x104007 : Quad).getLsbD 63 || (0x200005 : Quad).getLsbD 63)) = false) := by decide

/-- T43 and T2: both page sizes, with the entries apart. -/
theorem witness_AccessedAndDirtyFlagsSet :
    full.mem.wf = true ∧ full.paeInUse = true ∧
    full.pdpte.select (laPdpteIndex 0x80BFFFFF) = some 0x102001 ∧
    full.pdpte.select (laPdpteIndex 0x00401234) = some 0x101001 ∧
    (∃ t, exec (.translate 0x80BFFFFF .write .user) full = .next t ∧
      t.answer = .translation ⟨0xFFFFFFFFF, some ⟨.page2M, false, false, false, false⟩⟩) ∧
    (∃ t, exec (.translate 0x00401234 .write .user) full = .next t ∧
      t.answer = .translation ⟨0xABCDE5234, some ⟨.page4K, false, false, false, false⟩⟩) ∧
    pdeAddr full.cfg 0x101001 0x00401234 ≠ pteAddr full.cfg 0x104007 0x00401234 := by
  refine ⟨by decide, by decide, by decide, by decide, ?_, ?_, by decide⟩
  · obtain ⟨t, ht, hp⟩ := exists_next (o := exec (.translate 0x80BFFFFF .write .user) full)
      (p := fun t => t.answer == .translation ⟨0xFFFFFFFFF, some ⟨.page2M, false, false, false, false⟩⟩)
      (by decide)
    exact ⟨t, ht, beq_iff_eq.mp hp⟩
  · obtain ⟨t, ht, hp⟩ := exists_next (o := exec (.translate 0x00401234 .write .user) full)
      (p := fun t => t.answer == .translation ⟨0xABCDE5234, some ⟨.page4K, false, false, false, false⟩⟩)
      (by decide)
    exact ⟨t, ht, beq_iff_eq.mp hp⟩

/-- T2 done, and T5 faulted. -/
theorem witness_TranslateFrame :
    full.mem.wf = true ∧ (∃ t, exec (.translate 0x00401234 .write .user) full = .next t) ∧
    ∃ t, exec (.translate 0x00402ABC .write .user) full = .next t ∧ t.answer = .exception 14 0x07 := by
  refine ⟨by decide, ?_, ?_⟩
  · obtain ⟨t, ht, -⟩ := exists_next (o := exec (.translate 0x00401234 .write .user) full)
      (p := fun _ => true) (by decide)
    exact ⟨t, ht⟩
  · obtain ⟨t, ht, hp⟩ := exists_next (o := exec (.translate 0x00402ABC .write .user) full)
      (p := fun t => t.answer == .exception 14 0x07) (by decide)
    exact ⟨t, ht, beq_iff_eq.mp hp⟩

theorem witness_TranslateIdempotent :
    full.mem.wf = true ∧ ∃ t tr, exec (.translate 0x00401234 .write .user) full = .next t ∧
      t.answer = .translation tr := by
  obtain ⟨t, ht, hp⟩ := exists_next (o := exec (.translate 0x00401234 .write .user) full)
    (p := fun t => t.answer == .translation ⟨0xABCDE5234, some ⟨.page4K, false, false, false, false⟩⟩)
    (by decide)
  exact ⟨by decide, t, _, ht, beq_iff_eq.mp hp⟩

/-- States that differ in CR3, CR4.PGE and a byte that is no entry on the path, and the page fault of T5. -/
theorem witness_TranslateReadsOnlyItsPath :
    let u := { full with cr3 := 0, cr4 := 0xA0, cr2 := 7, mem := full.mem.write 0x5000 1 }
    u.cfg = full.cfg ∧ cr0PG u.cr0 = cr0PG full.cr0 ∧ cr0WP u.cr0 = cr0WP full.cr0 ∧
    cr4PAE u.cr4 = cr4PAE full.cr4 ∧ cr4SMEP u.cr4 = cr4SMEP full.cr4 ∧ cr4SMAP u.cr4 = cr4SMAP full.cr4 ∧
    cr4CET u.cr4 = cr4CET full.cr4 ∧ cr4LA57 u.cr4 = cr4LA57 full.cr4 ∧ eferLME u.efer = eferLME full.efer ∧
    eferNXE u.efer = eferNXE full.efer ∧ eflagsAC u.eflags = eflagsAC full.eflags ∧ u.pdpte = full.pdpte ∧
    (∀ a ∈ pathAddresses full 0x00402ABC, u.mem.readQuad a = full.mem.readQuad a) ∧
    (pathAddresses full 0x00402ABC ≠ []) ∧
    nextIs (exec (.translate 0x00402ABC .write .user) full) (fun t => raised t == some (14, 0x07)) = true ∧
    nextIs (exec (.translate 0x00402ABC .read .user) full) (fun t => (raised t).isNone) = true := by decide

theorem witness_EntryByEntryWalkIsTranslate :
    full.faulted = false ∧ noExternalFirst { full with events := [.runAt 0] } = true ∧
    full.walk = none ∧ full.paeInUse = true ∧ cr4CET full.cr4 = false := by decide

/-- Image A with one range of RAM only. -/
def ramAt (base size : Nat) : State := { full with cfg := { Config.initial with ramRegions := [⟨base, size⟩] } }

theorem witness_OutsideRamRefused_entries :
    full.paeInUse = true ∧ cr4CET full.cr4 = false ∧
    full.pdpte.select (laPdpteIndex 0x00401234) = some 0x101001 ∧ (0x101001 : Quad).getLsbD 0 = true ∧
    readEntry (ramAt 0x200000 0x1000) (pdeAddr Config.initial 0x101001 0x00401234) = none ∧
    readEntry (ramAt 0x101000 0x1000) (pdeAddr Config.initial 0x101001 0x00401234) = some 0x104007 ∧
    (0x104007 : Quad).getLsbD 0 = true ∧ (0x104007 : Quad).getLsbD 7 = false ∧
    rsvdPdePT full.cfg full.nxe 0x104007 = false ∧
    readEntry (ramAt 0x101000 0x1000) (pteAddr Config.initial 0x104007 0x00401234) = none := by decide

/-- The structures in RAM, the page 0xABCDE5000 not: all three kinds of access translate. -/
theorem witness_OutsideRamRefused_data (kind : AccessKind) :
    ∃ s1 tr, exec (.translate 0x00401FFC kind .user) (ramAt 0x100000 0x10000) = .next s1 ∧
      s1.answer = .translation tr ∧ inRam (ramAt 0x100000 0x10000).cfg tr.pa.toNat 4 = false ∧
      (0x00401FFC : Word).toNat % 4096 + 4 ≤ 4096 := by
  obtain ⟨t, ht, hp⟩ := exists_next (o := exec (.translate 0x00401FFC kind .user) (ramAt 0x100000 0x10000))
    (p := fun t => t.answer == .translation ⟨0xABCDE5FFC, some ⟨.page4K, false, false, false, false⟩⟩)
    (by cases kind <;> decide)
  exact ⟨t, _, ht, beq_iff_eq.mp hp, by decide, by decide⟩

theorem witness_OutsideRamRefused_tables :
    let s := ramAt 0x200000 0x1000
    tableInRam s s.cr3 = false ∧ s.cpl = 0 ∧
    cr0Illegal 0xC0010001 = false ∧ pagingModeOf 0xC0010001 s.cr4 s.efer = .pae ∧
    cr0Reloads s.cr0 0xC0010001 = true ∧
    cr4Illegal s.cfg 0x30 = false ∧ pagingModeOf s.cr0 0x30 s.efer = .pae ∧ cr4Reloads s.cr4 0x30 = true ∧
    tableInRam s 0x00110000 = false ∧ s.paeInUse = true ∧ (0x00110000 : Word) ≠ s.cr3 ∧
    sourceValue { s with gpr := { Gprs.zero with eax := 0xC0010001 } } (.reg .eax) = 0xC0010001 ∧
    sourceValue s (.value 0x30) = 0x30 := by decide

/-- T33: a reserved bit of a PDE; Image A otherwise. -/
theorem witness_RegisterAndDirectoryRowsInWalk :
    (walking [] 0x00401234 .read .user .pdptr).walk = some ⟨0x00401234, .read, .user, .pdptr⟩ ∧
    (walking [] 0x00401234 .read .user (.directory 0x101010)).walk =
      some ⟨0x00401234, .read, .user, .directory 0x101010⟩ ∧
    rsvdPdePT full.cfg full.nxe 0x104007 = false ∧ rsvdPdePT full.cfg full.nxe 0x1000000010A007 = true := by
  decide

/-- T41, T39, T43; T2, T14, T5. -/
theorem witness_FinalRowsInWalk :
    (walking [] 0x80800000 .write .user (.directory 0x102020)).walk =
      some ⟨0x80800000, .write, .user, .directory 0x102020⟩ ∧
    rsvdPde2M full.cfg full.nxe 0xC08020E7 = true ∧ rsvdPde2M full.cfg full.nxe 0x80000000C06000E1 = false ∧
    rights full .write .user ((0x80000000C06000E1 : Quad).getLsbD 2) ((0x80000000C06000E1 : Quad).getLsbD 1)
      (full.nxe && (0x80000000C06000E1 : Quad).getLsbD 63) = false ∧
    rsvdPde2M full.cfg full.nxe 0xFFFE00087 = false ∧
    rights full .write .user ((0xFFFE00087 : Quad).getLsbD 2) ((0xFFFE00087 : Quad).getLsbD 1)
      (full.nxe && (0xFFFE00087 : Quad).getLsbD 63) = true ∧
    (walking [] 0x00401234 .write .user (.table 0x101010 0x104007 0x104008)).walk =
      some ⟨0x00401234, .write, .user, .table 0x101010 0x104007 0x104008⟩ ∧
    rsvdPte full.cfg full.nxe 0xABCDE5007 = false ∧
    rights full .write .user ((0x104007 : Quad).getLsbD 2 && (0xABCDE5007 : Quad).getLsbD 2)
      ((0x104007 : Quad).getLsbD 1 && (0xABCDE5007 : Quad).getLsbD 1)
      (full.nxe && ((0x104007 : Quad).getLsbD 63 || (0xABCDE5007 : Quad).getLsbD 63)) = true ∧
    rsvdPte full.cfg full.nxe 0x1000202003 = true ∧ rsvdPte full.cfg full.nxe 0x200005 = false ∧
    rights full .write .user ((0x104007 : Quad).getLsbD 2 && (0x200005 : Quad).getLsbD 2)
      ((0x104007 : Quad).getLsbD 1 && (0x200005 : Quad).getLsbD 1)
      (full.nxe && ((0x104007 : Quad).getLsbD 63 || (0x200005 : Quad).getLsbD 63)) = false := by decide

/-- No walk at all meets all three premises. -/
theorem witness_EntryRowsOutsideTheirWalk :
    (∀ la kind mode, full.walk ≠ some ⟨la, kind, mode, .pdptr⟩) ∧
    (∀ la kind mode a, full.walk ≠ some ⟨la, kind, mode, .directory a⟩) ∧
    (∀ la kind mode aE p a, full.walk ≠ some ⟨la, kind, mode, .table aE p a⟩) := by
  have h : full.walk = none := by decide
  simp [h]

/-- The chunks of A3, and of the access that wraps (A5). -/
theorem witness_ChunksCoverTheAccess :
    chunks 0x00401FFE 4 = [⟨0x00401FFE, 2⟩, ⟨0x00402000, 2⟩] ∧
    chunks 0xFFFFFFFF 2 = [⟨0xFFFFFFFF, 1⟩, ⟨0, 1⟩] := by decide

/-- A3, for reads and fetches. -/
theorem witness_LinReadAndLinFetchValue (kind : AccessKind) (h : kind ≠ .write) :
    ∃ ps s1, translateChunks kind .user (chunks 0x00401FFE 4) (imageA dataA) = .done ps s1 ∧
      piecesInRam s1 ps = true ∧ ps = [⟨0xABCDE5FFE, 2⟩, ⟨0x200000, 2⟩] := by
  obtain ⟨ps, s1, hx, hp⟩ := exists_done
    (x := translateChunks kind .user (chunks 0x00401FFE 4) (imageA dataA))
    (p := fun ps s1 => piecesInRam s1 ps && ps == [⟨0xABCDE5FFE, 2⟩, ⟨0x200000, 2⟩])
    (by cases kind <;> first | decide | exact absurd rfl h)
  rw [Bool.and_eq_true, beq_iff_eq] at hp
  exact ⟨ps, s1, hx, hp⟩

/-- The last two bytes of a page: at the boundary of the premise. -/
theorem witness_LinReadAndLinFetchInOnePage (kind : AccessKind) :
    (0x00401FFE : Word).toNat % 4096 + 2 ≤ 4096 ∧
    ∃ s1 tr, exec (.translate 0x00401FFE kind .user) (imageA dataA) = .next s1 ∧
      s1.answer = .translation tr ∧ inRam (imageA dataA).cfg tr.pa.toNat 2 = true := by
  obtain ⟨t, ht, hp⟩ := exists_next (o := exec (.translate 0x00401FFE kind .user) (imageA dataA))
    (p := fun t => t.answer == .translation ⟨0xABCDE5FFE, some ⟨.page4K, false, false, false, false⟩⟩)
    (by cases kind <;> decide)
  exact ⟨by decide, t, _, ht, beq_iff_eq.mp hp, by decide⟩

/-- Wrapping from the last linear address to the first. -/
theorem witness_AccessesWithPagingOff :
    cr0PG State.reset.cr0 = false ∧ State.reset.mem.wf = true ∧
    (∀ k, k < 2 → hasRam State.reset.cfg ((0xFFFFFFFF : Word) + BitVec.ofNat 32 k).toNat = true) ∧
    (∀ k, k < 2 → 2 ≤ k + 2 ^ 32) ∧
    (∀ k, k < 2 → (5 : Nat) ≠ ((0xFFFFFFFF : Word) + BitVec.ofNat 32 k).toNat) := by
  refine ⟨by decide, by decide, by decide, by omega, by decide⟩

/-- A2 at the end of the page. -/
theorem witness_LinWriteInOnePage :
    full.mem.wf = true ∧ (0x00401FFC : Word).toNat % 4096 + 4 ≤ 4096 ∧
    ∃ s1 tr, exec (.translate 0x00401FFC .write .user) full = .next s1 ∧
      s1.answer = .translation tr ∧ inRam full.cfg tr.pa.toNat 4 = true := by
  obtain ⟨t, ht, hp⟩ := exists_next (o := exec (.translate 0x00401FFC .write .user) full)
    (p := fun t => t.answer == .translation ⟨0xABCDE5FFC, some ⟨.page4K, false, false, false, false⟩⟩)
    (by decide)
  exact ⟨by decide, by decide, t, _, ht, beq_iff_eq.mp hp, by decide⟩

/-- The path is that of `witness_TranslateThrough4KPage`; the access ends at the end of the page. -/
theorem witness_AccessesThrough4KPage :
    full.mem.wf = true ∧ (0x00401FFC : Word).toNat % 4096 + 4 ≤ 4096 ∧
    full.paeInUse = true ∧ cr4CET full.cr4 = false ∧
    full.pdpte.select (laPdpteIndex 0x00401FFC) = some 0x101001 ∧ (0x101001 : Quad).getLsbD 0 = true ∧
    readEntry full (pdeAddr full.cfg 0x101001 0x00401FFC) = some 0x104007 ∧
    (0x104007 : Quad).getLsbD 0 = true ∧ (0x104007 : Quad).getLsbD 7 = false ∧
    rsvdPdePT full.cfg (full.efer.getLsbD 11) 0x104007 = false ∧
    readEntry full (pteAddr full.cfg 0x104007 0x00401FFC) = some 0xABCDE5007 ∧
    (0xABCDE5007 : Quad).getLsbD 0 = true ∧ rsvdPte full.cfg (full.efer.getLsbD 11) 0xABCDE5007 = false ∧
    (∀ kind ∈ [AccessKind.read, .write, .fetch],
      rights full kind .user ((0x104007 : Quad).getLsbD 2 && (0xABCDE5007 : Quad).getLsbD 2)
        ((0x104007 : Quad).getLsbD 1 && (0xABCDE5007 : Quad).getLsbD 1)
        (full.efer.getLsbD 11 && ((0x104007 : Quad).getLsbD 63 || (0xABCDE5007 : Quad).getLsbD 63)) = true) ∧
    inRam full.cfg (physAddr4K full.cfg 0xABCDE5007 0x00401FFC).toNat 4 = true := by decide

/-- A write across the boundary with paging on, in supervisor mode with CR0.WP = 0 (T47), with a byte covered by one
piece only and a byte outside both. -/
theorem witness_LinWriteStoresItsBytes :
    full.mem.wf = true ∧
    ∃ ps s1, translateChunks .write .supervisor (chunks 0x00401FFE 4) { full with cr0 := 0x80000001 } = .done ps s1 ∧
      piecesInRam s1 ps = true ∧ ps = [⟨0xABCDE5FFE, 2⟩] ++ ⟨0x200000, 2⟩ :: [] ∧
      (∀ q ∈ ps.tail, ¬Covers q (0xABCDE5FFE + 0)) ∧ (∀ q ∈ ps, ¬Covers q 0x200002) := by
  obtain ⟨ps, s1, hx, hp⟩ := exists_done
    (x := translateChunks .write .supervisor (chunks 0x00401FFE 4) { full with cr0 := 0x80000001 })
    (p := fun ps s1 => piecesInRam s1 ps && ps == [⟨0xABCDE5FFE, 2⟩, ⟨0x200000, 2⟩]) (by decide)
  rw [Bool.and_eq_true, beq_iff_eq] at hp
  obtain ⟨h1, rfl⟩ := hp
  exact ⟨by decide, _, s1, hx, h1, rfl, by simp [Covers], by simp [Covers]⟩

/-- A4: the lower chunk translates, the upper one faults. -/
theorem witness_CrossPageFaultReportsItsChunk_upper :
    bytesToBoundary 0x00401FFE < 4 ∧ 4 ≤ bytesToBoundary 0x00401FFE + 4096 ∧
    ∃ s1 tr t, exec (.translate 0x00401FFE .write .user) full = .next s1 ∧ s1.answer = .translation tr ∧
      exec (.translate (0x00401FFE + BitVec.ofNat 32 (bytesToBoundary 0x00401FFE)) .write .user) s1 = .next t ∧
      t.answer = .exception 14 0x07 := by
  obtain ⟨s1, h1, hp⟩ := exists_next (o := exec (.translate 0x00401FFE .write .user) full)
    (p := fun t => t.answer == .translation ⟨0xABCDE5FFE, some ⟨.page4K, false, false, false, false⟩⟩ &&
      nextIs (exec (.translate 0x00402000 .write .user) t) fun u => u.answer == .exception 14 0x07)
    (by decide)
  rw [Bool.and_eq_true, beq_iff_eq] at hp
  obtain ⟨t, h2, hq⟩ := exists_next hp.2
  exact ⟨by decide, by decide, s1, _, t, h1, hp.1, h2, beq_iff_eq.mp hq⟩

/-- A5: the lower chunk faults, for every kind of access. -/
theorem witness_CrossPageFaultReportsItsChunk_lower (kind : AccessKind) :
    bytesToBoundary 0xFFFFFFFF < 2 ∧ 2 ≤ bytesToBoundary 0xFFFFFFFF + 4096 ∧
    ∃ t ec, exec (.translate 0xFFFFFFFF kind .supervisor) full = .next t ∧ t.answer = .exception 14 ec := by
  obtain ⟨t, ht, hp⟩ := exists_next (o := exec (.translate 0xFFFFFFFF kind .supervisor) full)
    (p := fun t => t.answer == .exception 14
      (match kind with | .read => 0x00 | .write => 0x02 | .fetch => 0x10)) (by cases kind <;> decide)
  exact ⟨by decide, by decide, t, _, ht, beq_iff_eq.mp hp⟩

/-- A1, a fetch, and A4. -/
theorem witness_FaultingWritesAndReadsStoreNothing :
    full.mem.wf = true ∧ (∃ t, exec (.linRead 0x00401234 4 .user) full = .next t) ∧
    (∃ t, exec (.linFetch 0x00401234 4 .user) full = .next t) ∧
    (∃ t, exec (.linWrite 0x00401FFE 4 0xAABBCCDD .user) full = .next t ∧ t.answer ≠ .done) ∧
    (∀ c ∈ chunks 0x00401FFE 4, 0xABCDE5FFE ∉ pathAddresses full c.la) ∧
    (chunks 0x00401FFE 4).flatMap (fun c => pathAddresses full c.la) = [0x101010, 0x104008, 0x101010, 0x104010] := by
  refine ⟨by decide, ?_, ?_, ?_, by decide, by decide⟩
  · obtain ⟨t, ht, -⟩ := exists_next (o := exec (.linRead 0x00401234 4 .user) full)
      (p := fun _ => true) (by decide)
    exact ⟨t, ht⟩
  · obtain ⟨t, ht, -⟩ := exists_next (o := exec (.linFetch 0x00401234 4 .user) full)
      (p := fun _ => true) (by decide)
    exact ⟨t, ht⟩
  · obtain ⟨t, ht, hp⟩ := exists_next (o := exec (.linWrite 0x00401FFE 4 0xAABBCCDD .user) full)
      (p := fun t => decide (t.answer ≠ .done)) (by decide)
    exact ⟨t, ht, of_decide_eq_true hp⟩

theorem witness_WritersOfEachRegister :
    (∃ t, exec (.movToCR0 (.value 0x80000001)) full = .next t) ∧ ∃ t, execMovToCR2 .eax full = .next t := by
  constructor
  · obtain ⟨t, ht, -⟩ := exists_next (o := exec (.movToCR0 (.value 0x80000001)) full)
      (p := fun _ => true) (by decide)
    exact ⟨t, ht⟩
  · obtain ⟨t, ht, -⟩ := exists_next (o := execMovToCR2 .eax full) (p := fun _ => true) (by decide)
    exact ⟨t, ht⟩

/-- A move at privilege level 3, and a read. -/
theorem witness_UserModeKeepsPagingControl :
    { full with cpl := 3 }.cpl ≠ 0 ∧ (∀ v, (Instr.setEFER 0) ≠ .taskSwitchCR3 v) ∧ Instr.setEFER 0 ≠ .loadPDPTEs ∧
    (∃ t, exec (.movToCR3 (.value 0)) { full with cpl := 3 } = .next t) ∧
    ∃ t, exec (.linRead 0x00401234 4 .user) { full with cpl := 3 } = .next t := by
  refine ⟨by decide, by simp, by simp, ?_, ?_⟩
  · obtain ⟨t, ht, -⟩ := exists_next (o := exec (.movToCR3 (.value 0)) { full with cpl := 3 })
      (p := fun _ => true) (by decide)
    exact ⟨t, ht⟩
  · obtain ⟨t, ht, -⟩ := exists_next (o := exec (.linRead 0x00401234 4 .user) { full with cpl := 3 })
      (p := fun _ => true) (by decide)
    exact ⟨t, ht⟩

/-- L6. -/
theorem witness_GeneralProtectionChangesNothing :
    full.answer = .done ∧ ∃ t, exec (.movToCR0 (.value 0x80000000)) full = .next t ∧
      t.answer = .exception 13 0 := by
  obtain ⟨t, ht, hp⟩ := exists_next (o := exec (.movToCR0 (.value 0x80000000)) full)
    (p := fun t => t.answer == .exception 13 0) (by decide)
  exact ⟨by decide, t, ht, beq_iff_eq.mp hp⟩

/-- One input for each clause: a faulted state; MOV to CR3 and to CR2 as bytes, MOV to CR3 fetched with paging off, an
operation, an input from outside, and the entries of the path of 0x00401234. -/
theorem witness_StepRunsDecodedInstruction :
    { full with answer := .exception 14 7 }.faulted = true ∧ full.faulted = false ∧ noExternalFirst full = true ∧
    decode .code [0x0F, 0x22, 0xD7] = .movToCR2 .edi [] ∧
    (Event.agentWrite 0 []).external = true ∧ full.events = [] ∧
    decode .code [0x0F, 0x22, 0xD8] = .ok (.movToCR3 (.reg .eax)) [] ∧ full.walk = none ∧
    (Instr.setAC true).wf = true ∧
    accessIs (linLoad .fetch 0x7C00 3 .supervisor
        { State.reset with mem := Memory.writeBytes [] 0x7C00 [0x0F, 0x22, 0xD8] })
      (fun bs _ => bs == [0x0F, 0x22, 0xD8]) = true ∧
    full.pdpte.select (laPdpteIndex 0x00401234) = some 0x101001 ∧
    decode .pdpteRegister (leBytes 8 (0x101001 : Quad).toNat) = .ok (.pdpte 0x101001) [] ∧
    inRam full.cfg 0x101010 8 = true ∧
    decode .pageDirectory (full.mem.readBytes 0x101010 8) = .ok (.pdePT 0x104007) [] ∧
    inRam full.cfg 0x104008 8 = true ∧
    decode .pageTable (full.mem.readBytes 0x104008 8) = .ok (.pte4K 0xABCDE5007) [] := by decide

/-- The second entry of the path; the speculative walk comes while another walk is in progress. -/
theorem witness_SpeculationSetsOnlyAccessedFlags :
    let s := { full with
      events := [.speculate 0x00401234 true], walk := some ⟨0x00402000, .write, .user, .directory 0x101010⟩ }
    s.faulted = false ∧ s.events = .speculate 0x00401234 true :: [] ∧ s.mem.wf = true ∧ s.paeInUse = true ∧
    cr4CET s.cr4 = false ∧ (pathAddresses s 0x00401234)[1]? = some 0x104008 ∧
    (∀ a' ∈ pathAddresses s 0x00401234, inRam s.cfg a' 8 = true) ∧ entryP (s.mem.readQuad 0x104008) = true ∧
    (pathAddresses s 0x00401234)[0]? = some 0x101010 ∧ entryP (s.mem.readQuad 0x101010) = true := by decide

/-- The last two bytes of the space. -/
theorem witness_OtherAgentsWriteMemoryOnly :
    let s := { full with events := [.agentWrite 0xFFFFFFFFE [1, 2]] }
    s.mem.wf = true ∧ s.faulted = false ∧ s.events = .agentWrite 0xFFFFFFFFE [1, 2] :: [] ∧
    inRam s.cfg 0xFFFFFFFFE [(1 : Byte), 2].length = true := by decide

/-- Image A has the invariant. -/
theorem inv_full : Inv full where
  canonical := by decide
  inRam := by decide
  walking := by decide
  protection := by decide
  cr4Legal := by decide
  nxeLegal := by decide
  lmeLegal := by decide
  loaded := by decide

/-- The queue plays no part in the invariant. -/
theorem inv_events {s : State} (h : Inv s) (events : List Event) : Inv { s with events := events } :=
  ⟨h.canonical, h.inRam, h.walking, h.protection, h.cr4Legal, h.nxeLegal, h.lmeLegal, h.loaded⟩

theorem witness_StepKeepsInvariant :
    Inv { full with events := [.operation (.movToCR3 (.value 0x00100000))] } ∧
    ∃ t, step { full with events := [.operation (.movToCR3 (.value 0x00100000))] } = .next t := by
  obtain ⟨t, ht, -⟩ := exists_next
    (o := step { full with events := [.operation (.movToCR3 (.value 0x00100000))] })
    (p := fun _ => true) (by decide)
  exact ⟨inv_events inv_full _, t, ht⟩

/-- Paging on with four registers that are not present, loaded from the table at 0. -/
def launched : State :=
  { State.reset with cr0 := 0x80000001, cr4 := 0x20, pdpte := ⟨some 0, some 0, some 0, some 0⟩ }

theorem select_zero (i : BitVec 2) : Pdptes.select ⟨some 0, some 0, some 0, some 0⟩ i = some 0 := by
  revert i; decide

theorem pathAddresses_launched (la : Word) : pathAddresses launched la = [] := by
  unfold pathAddresses
  rw [show launched.pdpte = ⟨some 0, some 0, some 0, some 0⟩ from rfl, select_zero]
  rfl

theorem launchPremises_launched : LaunchPremises [] launched where
  pae := by decide
  noCet := by decide
  registers := by decide
  good := by decide
  reach la a h := by
    rw [pathAddresses_launched] at h
    cases h

/-- A run of one state that is idle keeps the premise of R131. -/
theorem keepsPremise_launched : KeepsPremise ⟨[], []⟩ [launched] where
  structures s hs la := by
    obtain rfl := List.mem_singleton.mp hs
    simp [pathAddresses_launched]
  fresh pre s post h la hla := by
    rcases pre with _ | ⟨x, pre⟩
    · obtain ⟨rfl, -⟩ := List.cons.inj h
      cases hla
    · simp at h
  keepsGlobal pre s t post h := by
    have := congrArg List.length h
    simp at this
    omega

theorem witness_InvariantAtReset :
    LaunchPremises [] launched ∧ launched.mem.wf = true ∧ memoryInRam launched = true ∧ launched.walk = none ∧
    cr0PE launched.cr0 = true ∧ cr4Illegal launched.cfg launched.cr4 = false ∧
    (launched.cfg.nxSupported = false → eferNXE launched.efer = false) ∧
    (launched.cfg.lmSupported = false → eferLME launched.efer = false) :=
  ⟨launchPremises_launched, by decide⟩

theorem witness_NoUnloadedRegisterIsRead :
    Inv { full with events := [.beginWalk 0x40000000 .read .user] } ∧ LaunchPremises [] launched :=
  ⟨inv_events inv_full _, launchPremises_launched⟩

/-- L7, as a step. -/
theorem witness_StepReloadsFromCurrentTable :
    ∃ t, step { withB with events := [.operation (.movToCR3 (.value 0x0010001F))] } = .next t ∧
      t.pdpte ≠ withB.pdpte := by
  obtain ⟨t, ht, hp⟩ := exists_next
    (o := step { withB with events := [.operation (.movToCR3 (.value 0x0010001F))] })
    (p := fun t => decide (t.pdpte ≠ withB.pdpte)) (by decide)
  exact ⟨t, ht, of_decide_eq_true hp⟩

theorem witness_DecodeEncodeRoundTrip :
    (Instr.pde2M 0x80000000C06000E1).wf = true ∧
    encodeMovToCR2 .edi = [0x0F, 0x22, 0xD7] ∧
    encode (.pde2M 0x80000000C06000E1) = some [0xE1, 0, 0x60, 0xC0, 0, 0, 0, 0x80] ∧
    (Instr.movFromCR2 .edi).wf = true ∧ encode (.movFromCR2 .edi) = some [0x0F, 0x20, 0xD7] := by decide

/-- modrm[7:6] = 0, and an entry with a byte after it. -/
theorem witness_DecodedBytesAreTheEncoding :
    decode .code [0x0F, 0x20, 0x18] = .ok (.movFromCR3 .eax) [] ∧
    decode .code [0x0F, 0x22, 0x10] = .movToCR2 .eax [] ∧
    decode .pageTable [0x07, 0x50, 0xDE, 0xBC, 0x0A, 0, 0, 0, 9] = .ok (.pte4K 0xABCDE5007) [9] := by decide

theorem witness_EntryDecoderMasks :
    (0 : Quad) &&& 0x1 = 0x0 ∧ (0x101001 : Quad) &&& 0x1 = 0x1 ∧
    (0xFFFE00087 : Quad) &&& 0x81 = 0x81 ∧ (0x104007 : Quad) &&& 0x81 = 0x01 := by decide

end Sys2Proof.Tests
end

section
/-! PROOF. State: what an executed row can do, said once: the entry rows as moves of a walk (`EntryMove`), all rows
(`RowEffect`). -/

namespace Sys2Proof.Machine

open Sys2Proof.Safety

/-! ## The entry rows as moves of a walk (R90 to R93) -/

/-- The entries in which a walk that ends at a stage may set flags: those passed and the one read there. -/
def Stage.entries : Stage → List Quad
  | .pdptr => []
  | .directory aE => [aE]
  | .table aE _ aT => [aE, aT]

/-- The entries a walk has passed when it comes to a stage. -/
def Stage.passed : Stage → List Quad
  | .pdptr => []
  | .directory _ => []
  | .table aE _ _ => [aE]

/-- `t` is `s` but for memory and the draw counter, and where the entries `as` lie in RAM only flags have changed. -/
def FlagsAt (as : List Quad) (s t : State) : Prop :=
  t = { s with mem := t.mem, draws := t.draws } ∧
  ((∀ a ∈ as, inRam s.cfg a.toNat 8 = true) → FlagsOnly s t)

theorem flagsAt_refl (as : List Quad) (s : State) : FlagsAt as s s := ⟨rfl, fun _ => .refl s⟩

theorem flagsAt_setAD {as : List Quad} {a : Quad} (ha : a ∈ as) (s : State) (d : Bool) :
    FlagsAt as s (s.setAD a d) := ⟨rfl, fun h => flagsOnly_setAD s d (h a ha)⟩

theorem flagsAt_drawAccessed {as : List Quad} {a : Quad} (ha : a ∈ as) (s : State) :
    FlagsAt as s (s.drawAccessed a) := ⟨rfl, fun h => flagsOnly_drawAccessed s (h a ha)⟩

theorem flagsAt_setAD_setAD {as : List Quad} {a b : Quad} (ha : a ∈ as) (hb : b ∈ as) (s : State)
    (d d' : Bool) : FlagsAt as s ((s.setAD a d).setAD b d') :=
  ⟨rfl, fun h => (flagsOnly_setAD s d (h a ha)).trans (flagsOnly_setAD _ d' (h b hb))⟩

/-- Everything an entry row can do: nothing, when no walk reads it; else the walk goes on to a stage that has
passed only entries of the stage before, or ends with a translation or with a page fault (R90 to R93; log 10). -/
inductive EntryMove (s t : State) : Prop
  | unread (ht : t = s)
  | goesOn (w : Walk) (stage : Stage) (hw : s.walk = some w) (hp : ∀ a ∈ stage.passed, a ∈ w.stage.entries)
      (ht : t = { s with walk := some { w with stage := stage } })
  | translated (w : Walk) (u : State) (tr : Translation) (hw : s.walk = some w)
      (hu : FlagsAt w.stage.entries { s with walk := none } u) (ht : t = { u with answer := .translation tr })
  | pageFaulted (w : Walk) (u : State) (ec : Word) (hw : s.walk = some w)
      (hu : FlagsAt w.stage.entries { s with walk := none } u) (ht : t = takePageFault ec w.la u)

variable {s t : State}

theorem execPdpteNotPresent_entryMove (e : Quad) (h : execPdpteNotPresent e s = .next t) : EntryMove s t := by
  unfold execPdpteNotPresent at h
  split at h
  · next hw => exact .pageFaulted _ _ _ hw (flagsAt_refl _ _) (Host.Outcome.next.inj h).symm
  · exact .unread (Host.Outcome.next.inj h).symm

theorem execPdpte_entryMove {e : Quad} (h : execPdpte e s = .next t) : EntryMove s t := by
  unfold execPdpte at h
  split at h
  · next hw => exact .goesOn _ (.directory _) hw nofun (Host.Outcome.next.inj h).symm
  · exact .unread (Host.Outcome.next.inj h).symm

theorem execPdeNotPresent_entryMove (e : Quad) (h : execPdeNotPresent e s = .next t) : EntryMove s t := by
  unfold execPdeNotPresent at h
  split at h
  · next hw => exact .pageFaulted _ _ _ hw (flagsAt_refl _ _) (Host.Outcome.next.inj h).symm
  · exact .unread (Host.Outcome.next.inj h).symm

theorem execPde2M_entryMove {e : Quad} (h : execPde2M e s = .next t) : EntryMove s t := by
  unfold execPde2M at h
  split at h
  · next la kind mode aE hw =>
    rcases use2M_eq (s := { s with walk := none }) (la := la) (kind := kind) (mode := mode) (aE := aE) (e := e)
      with ⟨tr, hx⟩ | ⟨ec, hx⟩ <;> rw [hx] at h
    · exact .translated _ _ tr hw (flagsAt_setAD (by simp [Stage.entries]) _ _) (Host.Outcome.next.inj h).symm
    · exact .pageFaulted _ _ ec hw (flagsAt_refl _ _) (Host.Outcome.next.inj h).symm
  · exact .unread (Host.Outcome.next.inj h).symm

theorem execPdePT_entryMove {e : Quad} (h : execPdePT e s = .next t) : EntryMove s t := by
  unfold execPdePT at h
  split at h
  · next la kind mode aE hw =>
    split at h
    · exact .pageFaulted _ _ _ hw (flagsAt_refl _ _) (Host.Outcome.next.inj h).symm
    · exact .goesOn _ (.table aE e _) hw (fun _ ha => ha) (Host.Outcome.next.inj h).symm
  · exact .unread (Host.Outcome.next.inj h).symm

theorem execPteNotPresent_entryMove (e : Quad) (h : execPteNotPresent e s = .next t) : EntryMove s t := by
  unfold execPteNotPresent at h
  split at h
  · next hw =>
    exact .pageFaulted _ _ _ hw (flagsAt_drawAccessed (by simp [Stage.entries]) _) (Host.Outcome.next.inj h).symm
  · exact .unread (Host.Outcome.next.inj h).symm

theorem execPte4K_entryMove {q : Quad} (h : execPte4K q s = .next t) : EntryMove s t := by
  unfold execPte4K at h
  split at h
  · next la kind mode aE e aT hw =>
    rcases use4K_eq (s := { s with walk := none }) (la := la) (kind := kind) (mode := mode) (aE := aE) (e := e)
      (aT := aT) (q := q) with ⟨tr, hx⟩ | ⟨ec, hx⟩ <;> rw [hx] at h
    · exact .translated _ _ tr hw (flagsAt_setAD_setAD (by simp [Stage.entries]) (by simp [Stage.entries]) _ _ _)
        (Host.Outcome.next.inj h).symm
    · exact .pageFaulted _ _ ec hw (flagsAt_drawAccessed (by simp [Stage.entries]) _)
        (Host.Outcome.next.inj h).symm
  · exact .unread (Host.Outcome.next.inj h).symm

/-! ## The next move of a walk in progress -/

theorem exec_decodePdpte_entryMove {e : Quad} (h : exec (decodePdpte e) s = .next t) : EntryMove s t := by
  unfold decodePdpte at h
  split at h
  · exact execPdpte_entryMove h
  · exact execPdpteNotPresent_entryMove e h

theorem exec_decodePde_entryMove {e : Quad} (h : exec (decodePde e) s = .next t) : EntryMove s t := by
  unfold decodePde at h
  split at h
  · split at h
    · exact execPde2M_entryMove h
    · exact execPdePT_entryMove h
  · exact execPdeNotPresent_entryMove e h

theorem exec_decodePte_entryMove {e : Quad} (h : exec (decodePte e) s = .next t) : EntryMove s t := by
  unfold decodePte at h
  split at h
  · exact execPte4K_entryMove h
  · exact execPteNotPresent_entryMove e h

/-- A move of a walk in progress is that of an entry row, and the entry it reads lies in RAM (R46). -/
theorem walkStep_entryMove {w : Walk} (h : walkStep w s = .next t) :
    EntryMove s t ∧ ∀ a ∈ w.stage.entries, a ∈ w.stage.passed ∨ inRam s.cfg a.toNat 8 = true := by
  obtain ⟨la, kind, mode, stage⟩ := w
  cases stage with
  | pdptr =>
    simp only [walkStep] at h
    split at h
    · cases h
    · exact ⟨exec_decodePdpte_entryMove h, by simp [Stage.entries]⟩
  | directory aE =>
    simp only [walkStep] at h
    split at h
    · cases h
    · next he =>
      exact ⟨exec_decodePde_entryMove h, by simp [Stage.entries, (readEntry_eq_some he).1]⟩
  | table aE e aT =>
    simp only [walkStep] at h
    split at h
    · cases h
    · next ht =>
      exact ⟨exec_decodePte_entryMove h, by simp [Stage.entries, Stage.passed, (readEntry_eq_some ht).1]⟩

/-! ## The accesses -/

theorem linLoad_done_flagsOnly {kind : AccessKind} {la : Word} {n : Nat} {mode : AccessMode} {bs : List Byte}
    (h : linLoad kind la n mode s = .done bs t) : FlagsOnly s t := by
  obtain ⟨ps, u, h1, h2⟩ := Access.bind_eq_done h
  rw [readPieces_eq_done h2]
  exact translateChunks_done_flagsOnly h1

theorem linLoad_pageFault_flagsOnly {kind : AccessKind} {la ec f : Word} {n : Nat} {mode : AccessMode}
    (h : linLoad kind la n mode s = .pageFault ec f t) : FlagsOnly s t := by
  rcases Access.bind_eq_pageFault h with h1 | ⟨ps, u, _, h2⟩
  · exact translateChunks_pageFault_flagsOnly h1
  · exact absurd h2 readPieces_ne_pageFault

/-! ## All rows -/

theorem cr0PG_eq_of_not_reloads {old new : Word} (h : cr0Reloads old new = false) : cr0PG old = cr0PG new := by
  simp only [cr0Reloads, Bool.or_eq_false_iff, bne_eq_false_iff_eq] at h
  exact h.2

theorem cr4PAE_eq_of_not_reloads {old new : Word} (h : cr4Reloads old new = false) :
    cr4PAE old = cr4PAE new := by
  simp only [cr4Reloads, Bool.or_eq_false_iff, bne_eq_false_iff_eq] at h
  exact h.1.1.1

/-- The PDPTE registers of `t` are the good table in memory that its CR3 names, or those of `s`, which then used PAE
paging if `t` does (R80 to R86). -/
def LoadedOrKept (s t : State) : Prop :=
  (tableBad s t.cr3 = false ∧ t.pdpte = tableRegisters s t.cr3) ∨
  (t.pdpte = s.pdpte ∧ (t.paeInUse = true → s.paeInUse = true))

/-- Everything a row of the table can do: a move of a walk; an answer or a page fault after changes of memory in
RAM; or the write of its own register (R13, column "who writes it"). -/
inductive RowEffect (s t : State) : Instr → Prop
  | entry {i : Instr} (h : EntryMove s t) : RowEffect s t i
  | answered {i : Instr} (u : State) (a : Answer) (hu : FlagsOnly s u) (ht : t = { u with answer := a }) :
      RowEffect s t i
  | pageFaulted {i : Instr} (u : State) (ec la : Word) (hu : FlagsOnly s u) (ht : t = takePageFault ec la u) :
      RowEffect s t i
  | toGpr {i : Instr} (r : Reg) (v : Word)
      (hi : i = .movFromCR0 r ∨ i = .movFromCR2 r ∨ i = .movFromCR3 r ∨ i = .movFromCR4 r)
      (ht : t = { s with gpr := s.gpr.write r v, answer := .done }) : RowEffect s t i
  | toCR0 (src : Source) (v : Word) (r : Pdptes) (hv : cr0Illegal v = false) (hl : LoadedOrKept s t)
      (ht : t = { s with cr0 := v, pdpte := r, answer := .done }) : RowEffect s t (.movToCR0 src)
  | toCR3 (src : Source) (v : Word) (r : Pdptes) (hl : LoadedOrKept s t)
      (ht : t = { s with cr3 := v, pdpte := r, answer := .done }) : RowEffect s t (.movToCR3 src)
  | toCR4 (src : Source) (v : Word) (r : Pdptes) (hv : cr4Illegal s.cfg v = false) (hl : LoadedOrKept s t)
      (ht : t = { s with cr4 := v, pdpte := r, answer := .done }) : RowEffect s t (.movToCR4 src)
  | switched (v : Word) (r : Pdptes) (d : Nat) (hl : LoadedOrKept s t)
      (ht : t = { s with cr3 := v, pdpte := r, draws := d, answer := .done }) : RowEffect s t (.taskSwitchCR3 v)
  | loaded (r : Pdptes) (hl : LoadedOrKept s t) (ht : t = { s with pdpte := r, answer := .done }) :
      RowEffect s t .loadPDPTEs
  | toEfer (v : Quad) (hp : (cr0PG s.cr0 && (eferLME v != eferLME s.efer)) = false)
      (ht : t = { s with efer := eferAfterWrite s.cfg s.efer v, answer := .done }) : RowEffect s t (.setEFER v)
  | toAC (b : Bool) (ht : t = { s with eflags := withAC b s.eflags, answer := .done }) : RowEffect s t (.setAC b)

/-- An answer alone is handed over, general protection among them. -/
theorem RowEffect.of_answer {i : Instr} (a : Answer) (ht : t = { s with answer := a }) : RowEffect s t i :=
  .answered s a (.refl s) ht

theorem execMovToCR0_rowEffect {src : Source} (h : execMovToCR0 src s = .next t) :
    RowEffect s t (.movToCR0 src) := by
  rcases execMovToCR0_eq_next h with ht | ⟨_, hv, ⟨_, _, hb, ht⟩ | ⟨hr, ht⟩⟩
  · exact .of_answer _ ht
  · exact .toCR0 src _ _ hv (.inl (by rw [ht]; exact ⟨hb, rfl⟩)) ht
  · refine .toCR0 src _ _ hv (.inr ⟨by rw [ht], fun hp => ?_⟩) ht
    rw [hp, Bool.true_and] at hr
    rw [ht] at hp
    obtain ⟨hnew, hpae, hlme⟩ := (paeInUse_iff _).mp hp
    exact (paeInUse_iff s).mpr ⟨(cr0PG_eq_of_not_reloads hr).trans hnew, hpae, hlme⟩

theorem execMovToCR3_rowEffect {src : Source} (h : execMovToCR3 src s = .next t) :
    RowEffect s t (.movToCR3 src) := by
  rcases execMovToCR3_eq_next h with ht | ⟨_, ⟨_, hb, ht⟩ | ⟨hr, ht⟩⟩
  · exact .of_answer _ ht
  · exact .toCR3 src _ _ (.inl (by rw [ht]; exact ⟨hb, rfl⟩)) ht
  · exact .toCR3 src _ _ (.inr ⟨by rw [ht], fun hp => by simp [hr] at hp⟩) ht

theorem execMovToCR4_rowEffect {src : Source} (h : execMovToCR4 src s = .next t) :
    RowEffect s t (.movToCR4 src) := by
  rcases execMovToCR4_eq_next h with ht | ⟨_, hv, ⟨_, _, hb, ht⟩ | ⟨hr, ht⟩⟩
  · exact .of_answer _ ht
  · exact .toCR4 src _ _ hv (.inl (by rw [ht]; exact ⟨hb, rfl⟩)) ht
  · refine .toCR4 src _ _ hv (.inr ⟨by rw [ht], fun hp => ?_⟩) ht
    rw [hp, Bool.true_and] at hr
    rw [ht] at hp
    obtain ⟨hpg, hnew, hlme⟩ := (paeInUse_iff _).mp hp
    exact (paeInUse_iff s).mpr ⟨hpg, (cr4PAE_eq_of_not_reloads hr).trans hnew, hlme⟩

theorem moveFrom_rowEffect {i : Instr} {r : Reg} {v : Word}
    (hi : i = .movFromCR0 r ∨ i = .movFromCR2 r ∨ i = .movFromCR3 r ∨ i = .movFromCR4 r)
    (h : privileged s (moveToGpr r v) = .next t) : RowEffect s t i := by
  rcases privileged_moveToGpr_eq_next h with ht | ⟨_, ht⟩
  · exact .of_answer _ ht
  · exact .toGpr r v hi ht

theorem execLoadPDPTEs_rowEffect (h : execLoadPDPTEs s = .next t) : RowEffect s t .loadPDPTEs := by
  rcases execLoadPDPTEs_eq_next h with ht | ⟨hb, ht⟩
  · exact .of_answer _ ht
  · exact .loaded _ (.inl (by rw [ht]; exact ⟨hb, rfl⟩)) ht

theorem execTaskSwitchCR3_rowEffect {v : Word} (h : execTaskSwitchCR3 v s = .next t) :
    RowEffect s t (.taskSwitchCR3 v) := by
  obtain ⟨d, ⟨_, hb, ht⟩ | ⟨_, ht⟩⟩ := execTaskSwitchCR3_eq_next h
  · exact .switched v _ d (.inl (by rw [ht]; exact ⟨hb, rfl⟩)) ht
  · exact .switched v _ d (.inr ⟨by rw [ht], fun hp => by rw [ht] at hp; exact hp⟩) ht

theorem execTranslate_rowEffect {la : Word} {kind : AccessKind} {mode : AccessMode} {i : Instr}
    (h : execTranslate la kind mode s = .next t) : RowEffect s t i := by
  obtain ⟨u, hu, ⟨tr, _, ht⟩ | ⟨ec, _, ht⟩⟩ := execTranslate_eq_next h
  · exact .answered u _ hu ht
  · exact .pageFaulted u ec la hu ht

/-- A read and a fetch (R106, R108). -/
theorem linLoad_rowEffect {kind : AccessKind} {la : Word} {n : Nat} {mode : AccessMode} {i : Instr}
    (h : ((linLoad kind la n mode s).finish fun bs => .value n (leNat bs)) = .next t) : RowEffect s t i := by
  obtain ⟨u, hu, ⟨bs, _, ht⟩ | ⟨ec, f, _, ht⟩⟩ := linLoad_eq_next h
  · exact .answered u _ hu ht
  · exact .pageFaulted u ec f hu ht

theorem execLinWrite_rowEffect {la : Word} {n v : Nat} {mode : AccessMode} {i : Instr}
    (h : execLinWrite la n v mode s = .next t) : RowEffect s t i := by
  obtain ⟨u, hu, ⟨ps, w, _, _, hw, hwf, hram, ht⟩ | ⟨ec, f, _, ht⟩⟩ := execLinWrite_eq_next h
  · exact .answered w _ (hu.trans ⟨by rw [hw], hwf, hram⟩) ht
  · exact .pageFaulted u ec f hu ht

theorem execSetEFER_rowEffect {v : Quad} (h : execSetEFER v s = .next t) : RowEffect s t (.setEFER v) := by
  rcases execSetEFER_eq_next h with ht | ⟨_, hp, ht⟩
  · exact .of_answer _ ht
  · exact .toEfer v hp ht

theorem exec_rowEffect {i : Instr} (h : exec i s = .next t) : RowEffect s t i := by
  cases i with
  | pdpteNotPresent e => exact .entry (execPdpteNotPresent_entryMove e h)
  | pdpte e => exact .entry (execPdpte_entryMove h)
  | pdeNotPresent e => exact .entry (execPdeNotPresent_entryMove e h)
  | pde2M e => exact .entry (execPde2M_entryMove h)
  | pdePT e => exact .entry (execPdePT_entryMove h)
  | pteNotPresent e => exact .entry (execPteNotPresent_entryMove e h)
  | pte4K e => exact .entry (execPte4K_entryMove h)
  | linearAddress4K la => exact .of_answer _ (Host.Outcome.next.inj h).symm
  | linearAddress2M la => exact .of_answer _ (Host.Outcome.next.inj h).symm
  | cr3Pae v => exact .of_answer _ (Host.Outcome.next.inj h).symm
  | movToCR0 src => exact execMovToCR0_rowEffect h
  | movToCR3 src => exact execMovToCR3_rowEffect h
  | movToCR4 src => exact execMovToCR4_rowEffect h
  | movFromCR0 r => exact moveFrom_rowEffect (.inl rfl) h
  | movFromCR2 r => exact moveFrom_rowEffect (.inr (.inl rfl)) h
  | movFromCR3 r => exact moveFrom_rowEffect (.inr (.inr (.inl rfl))) h
  | movFromCR4 r => exact moveFrom_rowEffect (.inr (.inr (.inr rfl))) h
  | loadPDPTEs => exact execLoadPDPTEs_rowEffect h
  | taskSwitchCR3 v => exact execTaskSwitchCR3_rowEffect h
  | translate la kind mode => exact execTranslate_rowEffect h
  | linRead la n mode => exact linLoad_rowEffect h
  | linWrite la n v mode => exact execLinWrite_rowEffect h
  | linFetch la n mode => exact linLoad_rowEffect h
  | setEFER v => exact execSetEFER_rowEffect h
  | setAC b => exact .toAC b (Host.Outcome.next.inj h).symm

end Sys2Proof.Machine
end

section
/-! PROOF. Writers: each register has its own writers (10_state.md R13). -/

namespace Sys2Proof.Machine

variable {i : Instr} {s t : State}

/-- What R13 (column "who writes it") allows the instruction `i` from `s` to `t`. -/
def WritesOwn (i : Instr) (s t : State) : Prop :=
  (t.cr0 = s.cr0 ∨ ∃ src, i = .movToCR0 src) ∧
  (t.cr2 = s.cr2 ∨ ∃ ec, t.answer = .exception 14 ec) ∧
  (t.cr3 = s.cr3 ∨ (∃ src, i = .movToCR3 src) ∨ ∃ v, i = .taskSwitchCR3 v) ∧
  (t.cr4 = s.cr4 ∨ ∃ src, i = .movToCR4 src) ∧
  (t.efer = s.efer ∨ ∃ v, i = .setEFER v) ∧
  (t.eflags = s.eflags ∨ ∃ b, i = .setAC b) ∧
  (t.gpr = s.gpr ∨ ∃ r, i = .movFromCR0 r ∨ i = .movFromCR2 r ∨ i = .movFromCR3 r ∨ i = .movFromCR4 r) ∧
  t.cfg = s.cfg ∧ t.cpl = s.cpl ∧ t.events = s.events

/-- Changes of memory, the walk and the model's own fields, and of CR2 with a page fault, need no writer. -/
theorem writesOwn_of_access
    (h : t = { s with cr2 := t.cr2, mem := t.mem, walk := t.walk, draws := t.draws, answer := t.answer })
    (h2 : t.cr2 = s.cr2 ∨ ∃ ec, t.answer = .exception 14 ec) : WritesOwn i s t := by
  refine ⟨.inl ?_, h2, .inl ?_, .inl ?_, .inl ?_, .inl ?_, .inl ?_, ?_, ?_, ?_⟩ <;> rw [h]

theorem EntryMove.writesOwn (h : EntryMove s t) : WritesOwn i s t := by
  cases h with
  | unread ht => subst ht; exact writesOwn_of_access rfl (.inl rfl)
  | goesOn w stage hw hp ht => subst ht; exact writesOwn_of_access rfl (.inl rfl)
  | translated w u tr hw hu ht =>
    subst ht
    exact writesOwn_of_access (by rw [hu.1]) (.inl (by rw [hu.1]))
  | pageFaulted w u ec hw hu ht =>
    subst ht
    exact writesOwn_of_access (by rw [hu.1]; rfl) (.inr ⟨ec, rfl⟩)

theorem RowEffect.writesOwn (h : RowEffect s t i) : WritesOwn i s t := by
  cases h with
  | entry h => exact h.writesOwn
  | answered u a hu ht =>
    subst ht
    exact writesOwn_of_access (by rw [hu.1]) (.inl (by rw [hu.1]))
  | pageFaulted u ec la hu ht =>
    subst ht
    exact writesOwn_of_access (by rw [hu.1]; rfl) (.inr ⟨ec, rfl⟩)
  | toGpr r v hi ht => subst ht; simp only [WritesOwn, true_or, true_and, and_true]; exact .inr ⟨r, hi⟩
  | toCR0 src v r hv hl ht => subst ht; simp [WritesOwn]
  | toCR3 src v r hl ht => subst ht; simp [WritesOwn]
  | toCR4 src v r hv hl ht => subst ht; simp [WritesOwn]
  | switched v r d hl ht => subst ht; simp [WritesOwn]
  | loaded r hl ht => subst ht; simp [WritesOwn]
  | toEfer v hp ht => subst ht; simp [WritesOwn]
  | toAC b ht => subst ht; simp [WritesOwn]

/-- Settles O47: every row by what it can do, and `MOV CR2, r32` by its own two ends. -/
theorem writersOfEachRegister : Obligations.WritersOfEachRegister := by
  unfold Obligations.WritersOfEachRegister
  refine ⟨fun i s t h => (exec_rowEffect h).writesOwn, fun r s t h => ?_⟩
  rcases execMovToCR2_eq_next h with rfl | ⟨_, rfl⟩ <;> rfl

end Sys2Proof.Machine
end

section
/-! PROOF. Invariant: it holds at reset, and every row, event and step keeps it. -/

namespace Sys2Proof.Safety

open Sys2Proof.Machine

variable {s t : State}

/-! ## The parts of the invariant -/

theorem walkOk_iff (s : State) :
    walkOk s = true ↔ ∀ w, s.walk = some w →
      s.paeInUse = true ∧ ∀ a ∈ w.stage.passed, inRam s.cfg a.toNat 8 = true := by
  unfold walkOk
  rcases s.walk with _ | ⟨la, kind, mode, _ | aE | ⟨aE, e, aT⟩⟩ <;> simp [Stage.passed]

/-- Registers loaded from a table without a bad entry are loaded and good (R80, R81). -/
theorem pdptesLoaded_of_table {cr3 : Word} (hc : t.cfg = s.cfg) (hb : tableBad s cr3 = false)
    (hr : t.pdpte = tableRegisters s cr3) : pdptesLoaded t = true := by
  simpa [pdptesLoaded, hr, hc, tableRegisters, tableBad, List.range_succ] using hb

theorem pdptesLoaded_of_loadedOrKept (hs : Inv s) (hc : t.cfg = s.cfg) (hl : LoadedOrKept s t)
    (hp : t.paeInUse = true) : pdptesLoaded t = true := by
  rcases hl with ⟨hb, hr⟩ | ⟨hr, hk⟩
  · exact pdptesLoaded_of_table hc hb hr
  · have hsl := hs.loaded (hk hp)
    unfold pdptesLoaded at hsl ⊢
    rwa [hc, hr]

/-! ## Changes that keep it -/

/-- The invariant says nothing of CR2, CR3, EFLAGS, the general registers, the level, the queue, the draw counter
and the answer. -/
theorem Inv.of_unread (hs : Inv s) {gpr : Gprs} {cr2 cr3 eflags : Word} {cpl : BitVec 2} {events : List Event}
    {draws : Nat} {answer : Answer} :
    Inv { s with
      gpr := gpr, cr2 := cr2, cr3 := cr3, eflags := eflags, cpl := cpl, events := events, draws := draws
      answer := answer } :=
  ⟨hs.canonical, hs.inRam, hs.walking, hs.protection, hs.cr4Legal, hs.nxeLegal, hs.lmeLegal, hs.loaded⟩

theorem Inv.of_flagsOnly (hs : Inv s) (hu : FlagsOnly s t) : Inv t := by
  obtain ⟨ht, hwf, hram⟩ := hu
  have hr := hram hs.inRam
  rw [ht] at hr ⊢
  exact { hs with canonical := hwf hs.canonical, inRam := hr }

theorem Inv.of_entryMove (hs : Inv s)
    (hr : ∀ w, s.walk = some w → ∀ a ∈ w.stage.entries, Machine.inRam s.cfg a.toNat 8 = true) (h : EntryMove s t) :
    Inv t := by
  have ended : ∀ {w u}, s.walk = some w → FlagsAt w.stage.entries { s with walk := none } u → Inv u :=
    fun hw hu => Inv.of_flagsOnly (s := { s with walk := none }) { hs with walking := rfl } (hu.2 (hr _ hw))
  cases h with
  | unread ht => rwa [ht]
  | goesOn w stage hw hp ht =>
    subst ht
    refine { hs with walking := (walkOk_iff _).mpr fun w' hw' => ?_ }
    obtain rfl := Option.some.inj hw'
    exact ⟨((walkOk_iff s).mp hs.walking w hw).1, fun a ha => hr w hw a (hp a ha)⟩
  | translated w u tr hw hu ht => subst ht; exact (ended hw hu).of_unread
  | pageFaulted w u ec hw hu ht => subst ht; exact (ended hw hu).of_unread

/-! ## IA32_EFER (R25, R88; log 17) -/

theorem eferNXE_eferAfterWrite (c : Config) (old v : Quad) (h : c.nxSupported = false)
    (hold : eferNXE old = false) : eferNXE (eferAfterWrite c old v) = false := by
  unfold eferAfterWrite
  split
  · exact hold
  · simp [eferNXE, h]

theorem eferLME_eferAfterWrite_of_unsupported (c : Config) (old v : Quad) (h : c.lmSupported = false)
    (hold : eferLME old = false) : eferLME (eferAfterWrite c old v) = false := by
  unfold eferAfterWrite
  split
  · exact hold
  · simp [eferLME, h]

theorem eferLME_eferAfterWrite_of_supported (c : Config) (old v : Quad) (h : c.lmSupported = true) :
    eferLME (eferAfterWrite c old v) = eferLME v := by
  cases hn : c.nxSupported <;> simp [eferLME, eferAfterWrite, h, hn]

/-- With paging on a write of IA32_EFER keeps LME, and so does not turn PAE paging on. -/
theorem paeInUse_of_eferAfterWrite (hs : Inv s) {v : Quad}
    (hv : (cr0PG s.cr0 && (eferLME v != eferLME s.efer)) = false)
    (hp : State.paeInUse { s with efer := eferAfterWrite s.cfg s.efer v, answer := .done } = true) :
    s.paeInUse = true := by
  obtain ⟨hpg, hpae, hlme⟩ := (paeInUse_iff _).mp hp
  refine (paeInUse_iff s).mpr ⟨hpg, hpae, ?_⟩
  cases hl : s.cfg.lmSupported with
  | false => exact hs.lmeLegal hl
  | true =>
    dsimp only at hlme hpg
    rw [eferLME_eferAfterWrite_of_supported _ _ _ hl] at hlme
    simpa [hpg, hlme] using hv

/-! ## Rows -/

/-- A row executed with no walk in progress keeps the invariant. -/
theorem Inv.of_rowEffect (hs : Inv s) (hw : s.walk = none) {i : Instr} (h : RowEffect s t i) : Inv t := by
  cases h with
  | entry h => exact hs.of_entryMove (by simp [hw]) h
  | answered u a hu ht => subst ht; exact (hs.of_flagsOnly hu).of_unread
  | pageFaulted u ec la hu ht => subst ht; exact (hs.of_flagsOnly hu).of_unread
  | toGpr r v hi ht => subst ht; exact hs.of_unread
  | toCR0 src v r hv hl ht =>
    subst ht
    exact { hs with
      walking := by simp [walkOk, hw]
      protection := by simpa [cr0Illegal] using hv
      loaded := pdptesLoaded_of_loadedOrKept hs rfl hl }
  | toCR3 src v r hl ht => subst ht; exact { hs with loaded := pdptesLoaded_of_loadedOrKept hs rfl hl }
  | toCR4 src v r hv hl ht =>
    subst ht
    exact { hs with
      walking := by simp [walkOk, hw]
      cr4Legal := hv
      loaded := pdptesLoaded_of_loadedOrKept hs rfl hl }
  | switched v r d hl ht => subst ht; exact { hs with loaded := pdptesLoaded_of_loadedOrKept hs rfl hl }
  | loaded r hl ht => subst ht; exact { hs with loaded := pdptesLoaded_of_loadedOrKept hs rfl hl }
  | toEfer v hv ht =>
    subst ht
    exact { hs with
      walking := by simp [walkOk, hw]
      nxeLegal := fun hn => eferNXE_eferAfterWrite _ _ _ hn (hs.nxeLegal hn)
      lmeLegal := fun hn => eferLME_eferAfterWrite_of_unsupported _ _ _ hn (hs.lmeLegal hn)
      loaded := fun hp => hs.loaded (paeInUse_of_eferAfterWrite hs hv hp) }
  | toAC b ht => subst ht; exact hs.of_unread

theorem exec_keeps_inv (hs : Inv s) (hw : s.walk = none) {i : Instr} (h : exec i s = .next t) : Inv t :=
  hs.of_rowEffect hw (exec_rowEffect h)

/-! ## Events and walks -/

theorem runCode_keeps_inv (hs : Inv s) (hw : s.walk = none) {bytes : List Byte}
    (h : runCode bytes s = .next t) : Inv t := by
  unfold runCode at h
  split at h
  · exact exec_keeps_inv hs hw h
  · rcases execMovToCR2_eq_next h with rfl | ⟨_, rfl⟩ <;> exact hs.of_unread
  · cases h

theorem runAt_keeps_inv (hs : Inv s) (hw : s.walk = none) {la : Word} (h : runAt la s = .next t) : Inv t := by
  unfold runAt at h
  split at h
  · next bytes u hl =>
    have hu := linLoad_done_flagsOnly hl
    exact runCode_keeps_inv (hs.of_flagsOnly hu) (by rw [hu.1, hw]) h
  · next ec f u hl =>
    obtain rfl := Host.Outcome.next.inj h
    exact (hs.of_flagsOnly (linLoad_pageFault_flagsOnly hl)).of_unread
  · cases h
  · cases h

theorem beginWalk_keeps_inv (hs : Inv s) {la : Word} {kind : AccessKind} {mode : AccessMode}
    (h : beginWalk la kind mode s = .next t) : Inv t := by
  unfold beginWalk at h
  split at h
  · obtain rfl := Host.Outcome.next.inj h
    exact hs.of_unread
  split at h
  · cases h
  next hp =>
  rw [Bool.not_eq_true', Bool.not_eq_false] at hp
  split at h
  · cases h
  · obtain rfl := Host.Outcome.next.inj h
    exact { hs with walking := hp }

theorem agentWrite_keeps_inv (hs : Inv s) {pa : Nat} {bytes : List Byte}
    (h : agentWrite pa bytes s = .next t) : Inv t := by
  unfold agentWrite at h
  split at h
  · next hr =>
    obtain rfl := Host.Outcome.next.inj h
    exact { hs with
      canonical := Memory.wf_writeBytes hs.canonical _ _
      inRam := Memory.all_writeBytes hs.inRam hr }
  · cases h

/-- An event keeps the invariant; during a walk only an input from outside runs. -/
theorem runEvent_keeps_inv (hs : Inv s) {ev : Event} (hw : s.walk = none ∨ ev.external = true)
    (h : runEvent ev s = .next t) : Inv t := by
  cases ev with
  | code bytes => exact runCode_keeps_inv hs (by simpa [Event.external] using hw) h
  | runAt la => exact runAt_keeps_inv hs (by simpa [Event.external] using hw) h
  | operation i =>
    simp only [runEvent, runOperation] at h
    split at h
    · exact exec_keeps_inv hs (by simpa [Event.external] using hw) h
    · cases h
  | beginWalk la kind mode => exact beginWalk_keeps_inv hs h
  | speculate la table =>
    obtain rfl := Host.Outcome.next.inj h
    exact hs.of_flagsOnly (flagsOnly_speculate s la table)
  | agentWrite pa bytes => exact agentWrite_keeps_inv hs h
  | setGpr r v =>
    obtain rfl := Host.Outcome.next.inj h
    exact hs.of_unread
  | setCpl level =>
    obtain rfl := Host.Outcome.next.inj h
    exact hs.of_unread

/-- A walk in progress makes its next move with the entry it has passed and the entry it reads in RAM. -/
theorem walkStep_keeps_inv (hs : Inv s) {w : Walk} (hw : s.walk = some w) (h : walkStep w s = .next t) :
    Inv t := by
  obtain ⟨hm, hr⟩ := walkStep_entryMove h
  refine hs.of_entryMove (fun w' hw' a ha => ?_) hm
  obtain rfl := Option.some.inj (hw.symm.trans hw')
  exact (hr a ha).elim (((walkOk_iff s).mp hs.walking w hw).2 a) id

/-- Settles O54: a step is idle, or a move of the walk in progress, or the event at the head of the queue. -/
theorem stepKeepsInvariant : Obligations.StepKeepsInvariant := by
  unfold Obligations.StepKeepsInvariant
  intro s t hs h
  rcases step_cases s with
    ⟨_, hstep⟩ | ⟨_, ⟨_, _, hstep⟩ | ⟨w, hw, _, hstep⟩ | ⟨ev, rest, _, hw, hstep⟩⟩ <;> rw [hstep] at h
  · exact Host.Outcome.next.inj h ▸ hs
  · exact Host.Outcome.next.inj h ▸ hs
  · exact walkStep_keeps_inv hs hw h
  · exact runEvent_keeps_inv (s := { s with events := rest }) (hs.of_unread) hw h

/-! ## Where runs start -/

theorem inv_reset : Inv State.reset where
  canonical := by decide
  inRam := by decide
  walking := by decide
  protection := by decide
  cr4Legal := by decide
  nxeLegal := by decide
  lmeLegal := by decide
  loaded := by decide

/-- Settles O53: at reset paging is off and memory empty; the launch premises give the loaded registers. -/
theorem invariantAtReset : Obligations.InvariantAtReset := by
  unfold Obligations.InvariantAtReset
  refine ⟨inv_reset, fun atLoad s hl hwf hram hw hpe hcr4 hnxe hlme => ?_⟩
  exact {
    canonical := hwf
    inRam := hram
    walking := by simp [walkOk, hw]
    protection := fun _ => hpe
    cr4Legal := hcr4
    nxeLegal := hnxe
    lmeLegal := hlme
    loaded := fun _ => pdptesLoaded_of_table (s := { s with mem := atLoad }) rfl hl.good hl.registers }

end Sys2Proof.Safety
end

section
/-! PROOF. Modes: the paging mode of the control flags, translation with paging off, and the accesses refused
before a walk begins (20_memory.md R34 to R36). -/

namespace Sys2Proof.Machine

open Sys2Proof.Safety

theorem paeInUse_iff_pagingMode {s : State} : s.paeInUse = true ↔ s.pagingMode = .pae := decide_eq_true_iff

/-- Settles O3: R35's table, flag by flag. -/
theorem pagingModeOfControlFlags : Obligations.PagingModeOfControlFlags := by
  unfold Obligations.PagingModeOfControlFlags
  intro s
  refine ⟨?_, ?_, ?_, ?_, ?_, ?_, paeInUse_iff_pagingMode⟩ <;>
    simp +contextual [State.pagingMode, pagingModeOf, cr0PG, cr4PAE, eferLME, cr4LA57]

/-! ## Translation before the walk begins -/

variable {s : State} {la : Word} {kind : AccessKind} {mode : AccessMode}

theorem translate_pagingOff (h : cr0PG s.cr0 = false) :
    linTranslate la kind mode s = .done ⟨la.setWidth 64, none⟩ s := by simp [linTranslate, h]

theorem translate_paging (hpae : s.paeInUse = true) (hcet : cr4CET s.cr4 = false) :
    linTranslate la kind mode s = walkRegister s la kind mode := by
  simp [linTranslate, cr0PG_of_paeInUse hpae, hpae, hcet]

theorem pagingMode_eq_none_iff : s.pagingMode = .none ↔ cr0PG s.cr0 = false := by
  unfold State.pagingMode pagingModeOf
  cases cr0PG s.cr0 with
  | false => simp
  | true => split_ifs <;> simp_all

theorem translate_otherMode (hn : s.pagingMode ≠ .none) (hp : s.pagingMode ≠ .pae) :
    linTranslate la kind mode s = .refused (.pagingMode s.pagingMode) := by
  rw [Ne, pagingMode_eq_none_iff, Bool.not_eq_false] at hn
  rw [Ne, ← paeInUse_iff_pagingMode, Bool.not_eq_true] at hp
  simp [linTranslate, hn, hp]

theorem translate_shadowStacks (hpae : s.paeInUse = true) (hcet : cr4CET s.cr4 = true) :
    linTranslate la kind mode s = .refused .shadowStacks := by
  simp [linTranslate, cr0PG_of_paeInUse hpae, hpae, hcet]

/-- Settles O4: with paging off no walk begins. -/
theorem pagingOffTranslatesToItself : Obligations.PagingOffTranslatesToItself := by
  unfold Obligations.PagingOffTranslatesToItself
  intro s la kind mode h
  have hla : (la.setWidth 64 : Quad).toNat = la.toNat := BitVec.toNat_setWidth_of_le (by decide)
  refine ⟨?_, hla, hla ▸ la.isLt⟩
  show (linTranslate la kind mode s).finish .translation = _
  rw [translate_pagingOff h]
  rfl

/-! ## Accesses whose first translation is refused -/

/-- The first chunk of an access begins at its own address (R106). -/
theorem chunks_eq_cons {n : Nat} (hn : 1 ≤ n) : ∃ len cs, chunks la n = ⟨la, len⟩ :: cs := by
  obtain ⟨m, rfl⟩ : ∃ m, n = m + 1 := ⟨n - 1, by omega⟩
  simp only [chunks, chunksFuel, Nat.add_one_ne_zero, if_false]
  split <;> exact ⟨_, _, rfl⟩

theorem translateChunks_refused {n : Nat} (hn : 1 ≤ n) {r : Refusal} (h : linTranslate la kind mode s = .refused r) :
    translateChunks kind mode (chunks la n) s = .refused r := by
  obtain ⟨len, cs, hc⟩ := chunks_eq_cons (la := la) hn
  rw [hc, translateChunks, h]
  rfl

/-- An access whose first translation is refused is refused by the same name (R36, R106 to R108). -/
theorem accesses_refused {n v : Nat} (hn : 1 ≤ n) {r : Refusal}
    (h : ∀ kind, linTranslate la kind mode s = .refused r) :
    exec (.translate la kind mode) s = .refused r ∧ exec (.linRead la n mode) s = .refused r ∧
    exec (.linWrite la n v mode) s = .refused r ∧ exec (.linFetch la n mode) s = .refused r := by
  simp only [exec, execTranslate, execLinRead, execLinWrite, execLinFetch, linLoad, linStore, h,
    translateChunks_refused hn (h _), Access.bind, Access.finish, and_self]

/-- Settles O5: the first chunk of an access is at its own address, and is refused. -/
theorem otherModesAndCetRefused : Obligations.OtherModesAndCetRefused := by
  unfold Obligations.OtherModesAndCetRefused
  intro s la kind mode n v hn
  exact ⟨fun h1 h2 => accesses_refused hn fun _ => translate_otherMode h1 h2,
    fun h1 h2 => accesses_refused hn fun _ => translate_shadowStacks (paeInUse_iff_pagingMode.mpr h1) h2⟩

end Sys2Proof.Machine
end

section
/-! PROOF. Bounds: every physical address is below `2^M` (20_memory.md R38), and entries are little-endian (R41). -/

namespace Sys2Proof.Machine

/-! ## Physical addresses -/

/-- The field `hi:lo` of an entry, back at its place, has no bit above `hi`. -/
theorem toNat_slice_shiftLeft_lt {hi lo : Nat} (h : lo ≤ hi) (e : Quad) :
    (slice hi lo e <<< lo).toNat < 2 ^ (hi + 1) := by
  refine Nat.lt_pow_two_of_testBit _ fun j hj => ?_
  show (slice hi lo e <<< lo).getLsbD j = false
  rw [BitVec.getLsbD_shiftLeft, getLsbD_slice _ _ _ _ h, decide_eq_false (show ¬ j - lo + lo ≤ hi by omega)]
  simp

/-- A table's or page's address with an offset below `2^36` added in its low bits is below `2^M`. -/
theorem toNat_base_or_lt (c : Config) {lo : Nat} (hlo : lo < 36) (e x : Quad) (hx : x.toNat < 2 ^ 36) :
    (slice (c.maxPhyAddr - 1) lo e <<< lo ||| x).toNat < 2 ^ c.maxPhyAddr := by
  obtain ⟨hM, -⟩ := maxPhyAddr_bounds c
  have hbase := toNat_slice_shiftLeft_lt (show lo ≤ c.maxPhyAddr - 1 by omega) e
  rw [show c.maxPhyAddr - 1 + 1 = c.maxPhyAddr by omega] at hbase
  rw [BitVec.toNat_or]
  exact Nat.or_lt_two_pow hbase (hx.trans_le (Nat.pow_le_pow_right (by decide) hM))

theorem toNat_setWidth_lt {w : Nat} (hw : w ≤ 36) (x : BitVec w) : (x.setWidth 64 : Quad).toNat < 2 ^ 36 := by
  rw [BitVec.toNat_setWidth_of_le (by omega)]
  exact x.isLt.trans_le (Nat.pow_le_pow_right (by decide) hw)

theorem toNat_entryIndex_lt (x : BitVec 9) : ((x.setWidth 64 : Quad) <<< 3).toNat < 2 ^ 36 := by
  have hx := x.isLt
  simp only [BitVec.toNat_shiftLeft, BitVec.toNat_setWidth, Nat.shiftLeft_eq]
  omega

theorem toNat_pdeAddr_lt (c : Config) (p : Quad) (la : Word) : (pdeAddr c p la).toNat < 2 ^ c.maxPhyAddr :=
  toNat_base_or_lt c (by decide) p _ (toNat_entryIndex_lt _)

theorem toNat_pteAddr_lt (c : Config) (e : Quad) (la : Word) : (pteAddr c e la).toNat < 2 ^ c.maxPhyAddr :=
  toNat_base_or_lt c (by decide) e _ (toNat_entryIndex_lt _)

theorem toNat_physAddr4K_lt (c : Config) (q : Quad) (la : Word) :
    (physAddr4K c q la).toNat < 2 ^ c.maxPhyAddr :=
  toNat_base_or_lt c (by decide) q _ (toNat_setWidth_lt (by decide) _)

theorem toNat_physAddr2M_lt (c : Config) (e : Quad) (la : Word) :
    (physAddr2M c e la).toNat < 2 ^ c.maxPhyAddr :=
  toNat_base_or_lt c (by decide) e _ (toNat_setWidth_lt (by decide) _)

/-- The address space holds at least 36 bits (R8). -/
theorem two_pow_36_le (c : Config) : 2 ^ 36 ≤ 2 ^ c.maxPhyAddr :=
  Nat.pow_le_pow_right (by decide) (maxPhyAddr_bounds c).1

theorem toNat_pdpteAddr_lt (c : Config) (cr3 : Word) {i : Nat} (hi : i < 4) :
    (pdpteAddr cr3 i).toNat < 2 ^ c.maxPhyAddr := by
  have hbase := (cr3 &&& 0xFFFFFFE0).isLt
  have hM := two_pow_36_le c
  rw [pdpteAddr_toNat cr3 hi]
  omega

theorem translate_done_pa_lt {la : Word} {kind : AccessKind} {mode : AccessMode} {s t : State} {tr : Translation}
    (h : linTranslate la kind mode s = .done tr t) : tr.pa.toNat < 2 ^ s.cfg.maxPhyAddr := by
  rcases translate_eq_done h with ⟨-, rfl, -⟩ |
    ⟨-, -, -, p, -, -, e, -, -, ⟨-, -, -, rfl, -⟩ | ⟨q, -, -, -, -, -, -, rfl, -⟩⟩
  · exact (toNat_setWidth_lt (by decide) la).trans_le (two_pow_36_le _)
  · exact toNat_physAddr2M_lt _ e la
  · exact toNat_physAddr4K_lt _ q la

/-- A Translate that answers a translation is one that is done. -/
theorem execTranslate_eq_translation {la : Word} {kind : AccessKind} {mode : AccessMode} {s t : State}
    {tr : Translation} (h : exec (.translate la kind mode) s = .next t) (ha : t.answer = .translation tr) :
    ∃ u, linTranslate la kind mode s = .done tr u ∧ t = { u with answer := .translation tr } := by
  obtain ⟨u, -, ⟨tr', hd, rfl⟩ | ⟨ec, -, rfl⟩⟩ := execTranslate_eq_next h
  · obtain rfl := Answer.translation.inj ha
    exact ⟨u, hd, rfl⟩
  · cases ha

/-- Settles O10: an address is a field of an entry that ends below bit `M`, or lies in the first 4 GBytes. -/
theorem physicalAddressesBelowM : Obligations.PhysicalAddressesBelowM := by
  unfold Obligations.PhysicalAddressesBelowM
  refine ⟨fun s t la kind mode tr h ha => ?_,
    fun c e la => ⟨toNat_pdeAddr_lt c e la, toNat_pteAddr_lt c e la⟩, fun c cr3 i hi => toNat_pdpteAddr_lt c cr3 hi⟩
  obtain ⟨u, hd, -⟩ := execTranslate_eq_translation h ha
  exact translate_done_pa_lt hd

/-! ## Byte order -/

/-- Byte `k` of a quad is its bits 8k+7 to 8k. -/
theorem extractLsb'_byte (q : Quad) (k : Nat) : q.extractLsb' (8 * k) 8 = BitVec.ofNat 8 (q.toNat / 256 ^ k) := by
  refine BitVec.eq_of_toNat_eq ?_
  rw [BitVec.extractLsb'_toNat, BitVec.toNat_ofNat, Nat.shiftRight_eq_div_pow, Nat.pow_mul]

/-- Settles O11: byte `k` of the entry by its bits and by its memory. -/
theorem entriesAreLittleEndian : Obligations.EntriesAreLittleEndian := by
  unfold Obligations.EntriesAreLittleEndian
  intro s a e h k hk
  obtain ⟨-, rfl⟩ := readEntry_eq_some h
  rw [extractLsb'_byte, Memory.read_eq_readQuad _ _ _ hk]

end Sys2Proof.Machine
end

section
/-! PROOF. TranslateReads: what a translation reads, said once (`translate_alike`): two states that agree on it go
the same way (20_memory.md R53, R54; 40_pdpte_registers.md R86). -/

namespace Sys2Proof.Machine

open Sys2Proof.Safety

/-! ## The path of a translation -/

section
variable {s : State} {la : Word} {p e : Quad}

theorem pdeAddr_mem_path (hp : s.pdpte.select (laPdpteIndex la) = some p) (hpp : entryP p = true) :
    (pdeAddr s.cfg p la).toNat ∈ pathAddresses s la := by
  rw [pathAddresses_of_present hp hpp]
  dsimp only
  split <;> simp

theorem pteAddr_mem_path (hp : s.pdpte.select (laPdpteIndex la) = some p) (hpp : entryP p = true)
    (he : readEntry s (pdeAddr s.cfg p la) = some e) (hep : entryP e = true) (hps : entryPS e = false)
    (hr : rsvdPdePT s.cfg s.nxe e = false) : (pteAddr s.cfg e la).toNat ∈ pathAddresses s la := by
  obtain ⟨-, rfl⟩ := readEntry_eq_some he
  rw [pathAddresses_of_present hp hpp]
  simp [hep, hps, hr]

end

/-! ## States that translate alike -/

/-- The two states agree on every field of the state that a translation reads but memory. -/
structure ReadsAlike (s u : State) : Prop where
  cfg : u.cfg = s.cfg
  pg : cr0PG u.cr0 = cr0PG s.cr0
  wp : cr0WP u.cr0 = cr0WP s.cr0
  pae : cr4PAE u.cr4 = cr4PAE s.cr4
  smep : cr4SMEP u.cr4 = cr4SMEP s.cr4
  smap : cr4SMAP u.cr4 = cr4SMAP s.cr4
  cet : cr4CET u.cr4 = cr4CET s.cr4
  la57 : cr4LA57 u.cr4 = cr4LA57 s.cr4
  lme : eferLME u.efer = eferLME s.efer
  nxe : u.nxe = s.nxe
  ac : eflagsAC u.eflags = eflagsAC s.eflags
  pdpte : u.pdpte = s.pdpte

/-- The same end of an access, in states that `R` relates. -/
inductive Access.Alike {α : Type} (R : State → State → Prop) : Access α → Access α → Prop
  | done {s u : State} (a : α) (h : R s u) : Alike R (.done a s) (.done a u)
  | pageFault {s u : State} (ec f : Word) (h : R s u) : Alike R (.pageFault ec f s) (.pageFault ec f u)
  | stuck (f : Fault) : Alike R (.stuck f) (.stuck f)
  | refused (r : Refusal) : Alike R (.refused r) (.refused r)

/-- `R` is kept by what a translation does to a state. -/
structure FlagClosed (R : State → State → Prop) : Prop where
  setAD : ∀ {s u : State} (a : Quad) (d : Bool), R s u → R (s.setAD a d) (u.setAD a d)
  drawAccessed : ∀ {s u : State} (a : Quad), R s u → R (s.drawAccessed a) (u.drawAccessed a)

variable {s u : State} {R : State → State → Prop} {la : Word} {kind : AccessKind} {mode : AccessMode}

namespace ReadsAlike

theorem pagingMode (h : ReadsAlike s u) : u.pagingMode = s.pagingMode := by
  simp only [State.pagingMode, pagingModeOf, h.pg, h.pae, h.lme, h.la57]

theorem paeInUse (h : ReadsAlike s u) : u.paeInUse = s.paeInUse := by
  simp only [State.paeInUse, h.pagingMode]

theorem rights (h : ReadsAlike s u) (us rw xd : Bool) :
    Machine.rights u kind mode us rw xd = Machine.rights s kind mode us rw xd := by
  simp only [Machine.rights, h.smep, h.smap, h.ac, h.wp]

theorem errorCode (h : ReadsAlike s u) (p rsvd : Bool) :
    pageFaultErrorCode u p kind mode rsvd = pageFaultErrorCode s p kind mode rsvd := by
  simp only [pageFaultErrorCode, h.smep, h.nxe]

theorem readEntry (h : ReadsAlike s u) {a : Quad} (ha : u.mem.readQuad a.toNat = s.mem.readQuad a.toNat) :
    Machine.readEntry u a = Machine.readEntry s a := by simp only [Machine.readEntry, h.cfg, ha]

end ReadsAlike

/-! ## The walk, from its end to its beginning -/

theorem walkFault_alike (h : ReadsAlike s u) (hR : R s u) (p rsvd : Bool) :
    (walkFault s la kind mode p rsvd).Alike R (walkFault u la kind mode p rsvd) := by
  simp only [walkFault, h.errorCode]
  exact .pageFault _ la hR

theorem walkFaultPast_alike (h : ReadsAlike s u) (hc : FlagClosed R) (hR : R s u) (aE : Quad) (p rsvd : Bool) :
    (walkFaultPast s aE la kind mode p rsvd).Alike R (walkFaultPast u aE la kind mode p rsvd) := by
  simp only [walkFaultPast, h.errorCode]
  exact .pageFault _ la (hc.drawAccessed aE hR)

theorem use2M_alike (h : ReadsAlike s u) (hc : FlagClosed R) (hR : R s u) (aE e : Quad) :
    (use2M s la kind mode aE e).Alike R (use2M u la kind mode aE e) := by
  simp only [use2M, h.cfg, h.nxe, h.rights]
  split
  · exact walkFault_alike h hR _ _
  split
  · exact walkFault_alike h hR _ _
  · exact .done _ (hc.setAD _ _ hR)

theorem use4K_alike (h : ReadsAlike s u) (hc : FlagClosed R) (hR : R s u) (aE e aT q : Quad) :
    (use4K s la kind mode aE e aT q).Alike R (use4K u la kind mode aE e aT q) := by
  simp only [use4K, h.cfg, h.nxe, h.rights]
  split
  · exact walkFaultPast_alike h hc hR _ _ _
  split
  · exact walkFaultPast_alike h hc hR _ _ _
  · exact .done _ (hc.setAD _ _ (hc.setAD _ _ hR))

theorem walkTable_alike (h : ReadsAlike s u) (hc : FlagClosed R) (hR : R s u) (aE e : Quad)
    (hm : u.mem.readQuad (pteAddr s.cfg e la).toNat = s.mem.readQuad (pteAddr s.cfg e la).toNat) :
    (walkTable s la kind mode aE e).Alike R (walkTable u la kind mode aE e) := by
  simp only [walkTable, h.cfg, h.readEntry hm]
  split
  · exact .refused _
  split
  · exact walkFaultPast_alike h hc hR _ _ _
  · exact use4K_alike h hc hR _ _ _ _

theorem walkDirectory_alike (h : ReadsAlike s u) (hc : FlagClosed R) (hR : R s u) {p : Quad}
    (hp : s.pdpte.select (laPdpteIndex la) = some p) (hpp : entryP p = true)
    (hm : ∀ a ∈ pathAddresses s la, u.mem.readQuad a = s.mem.readQuad a) :
    (walkDirectory s la kind mode p).Alike R (walkDirectory u la kind mode p) := by
  simp only [walkDirectory, h.cfg, h.nxe, h.readEntry (hm _ (pdeAddr_mem_path hp hpp))]
  split
  · exact .refused _
  next e he =>
  split
  · exact walkFault_alike h hR _ _
  next hep =>
  split
  · exact use2M_alike h hc hR _ e
  next hps =>
  split
  · exact walkFault_alike h hR _ _
  next hr =>
  exact walkTable_alike h hc hR _ e (hm _ (pteAddr_mem_path hp hpp he (by simpa using hep) (by simpa using hps)
    (by simpa using hr)))

/-- Two states that agree on the fields and the entries a translation reads translate alike. -/
theorem translate_alike (h : ReadsAlike s u) (hc : FlagClosed R) (hR : R s u)
    (hm : ∀ a ∈ pathAddresses s la, u.mem.readQuad a = s.mem.readQuad a) :
    (linTranslate la kind mode s).Alike R (linTranslate la kind mode u) := by
  simp only [linTranslate, walkRegister, h.pg, h.paeInUse, h.pagingMode, h.cet, h.pdpte]
  split
  · exact .done _ hR
  split
  · exact .refused _
  split
  · exact .refused _
  split
  · exact .stuck _
  next p hp =>
  split
  · exact walkFault_alike h hR _ _
  next hpp =>
  exact walkDirectory_alike h hc hR hp (by simpa using hpp) hm

/-- Settles O32: CR2 is a field that a translation leaves as it is until its page fault is taken. -/
theorem translateReadsOnlyItsPath : Obligations.TranslateReadsOnlyItsPath := by
  unfold Obligations.TranslateReadsOnlyItsPath
  intro s u t la kind mode hcfg hpg hwp hpae hsmep hsmap hcet hla57 hlme hnxe hac hpdpte hm ht
  have hcr2 : FlagClosed fun _ u' => u'.cr2 = u.cr2 := ⟨fun _ _ h => h, fun _ h => h⟩
  have hx := translate_alike (kind := kind) (mode := mode)
    ⟨hcfg, hpg, hwp, hpae, hsmep, hsmap, hcet, hla57, hlme, hnxe, hac, hpdpte⟩ hcr2 rfl hm
  simp only [exec, execTranslate] at ht ⊢
  obtain ⟨s', -, ⟨tr, hd, rfl⟩ | ⟨ec, hf, rfl⟩⟩ := execTranslate_eq_next ht
  · rw [hd] at hx
    generalize linTranslate la kind mode u = y at hx
    obtain ⟨_, hu⟩ := hx
    exact ⟨_, rfl, rfl, nofun, fun _ => hu⟩
  · rw [hf] at hx
    generalize linTranslate la kind mode u = y at hx
    obtain ⟨⟩ := hx
    exact ⟨_, rfl, rfl, fun _ _ => rfl, fun h => absurd rfl (h ec)⟩

/-- A translation does not read the outcome handed over last, and hands it on. -/
theorem translate_withAnswer (a : Answer) :
    (linTranslate la kind mode s).Alike (fun s' u' => u' = { s' with answer := a })
      (linTranslate la kind mode { s with answer := a }) :=
  translate_alike ⟨rfl, rfl, rfl, rfl, rfl, rfl, rfl, rfl, rfl, rfl, rfl, rfl⟩
    ⟨fun _ _ h => by rw [h]; rfl, fun _ h => by rw [h]; rfl⟩ rfl fun _ _ => rfl

theorem translate_done_withAnswer {tr : Translation} (a : Answer) (h : linTranslate la kind mode s = .done tr u) :
    linTranslate la kind mode { s with answer := a } = .done tr { u with answer := a } := by
  have hx := translate_withAnswer (la := la) (kind := kind) (mode := mode) (s := s) a
  rw [h] at hx
  generalize linTranslate la kind mode { s with answer := a } = y at hx ⊢
  obtain ⟨_, rfl⟩ := hx
  rfl

end Sys2Proof.Machine
end

section
/-! PROOF. TranslateFrame: a translation changes flags of the entries on its path only, done or faulted, and a
repeated one changes nothing (20_memory.md R45, R54; 41_translation.md R104). -/

namespace Sys2Proof.Machine

open Sys2Proof.Safety

/-! ## Flags of given entries set -/

/-- `t` is `s` but for the draw counter and bits 5 and 6 of the bytes of memory at `as`: memory is canonical, and
no path has moved. -/
structure FlagsSet (as : List Nat) (s t : State) : Prop where
  frame : t = { s with mem := t.mem, draws := t.draws }
  wf : t.mem.wf = true
  others : ∀ a, a ∉ as → t.mem.read a = s.mem.read a
  bits : ∀ a, t.mem.read a ||| 0x60 = s.mem.read a ||| 0x60
  paths : ∀ la, pathAddresses t la = pathAddresses s la

variable {as bs : List Nat} {s t u : State}

theorem FlagsSet.refl (as : List Nat) (hm : s.mem.wf = true) : FlagsSet as s s :=
  ⟨rfl, hm, fun _ _ => rfl, fun _ => rfl, fun _ => rfl⟩

theorem FlagsSet.trans (h : FlagsSet as s t) (h' : FlagsSet as t u) : FlagsSet as s u where
  frame := by rw [h'.frame, h.frame]
  wf := h'.wf
  others a ha := (h'.others a ha).trans (h.others a ha)
  bits a := (h'.bits a).trans (h.bits a)
  paths la := (h'.paths la).trans (h.paths la)

theorem FlagsSet.mono (h : FlagsSet as s t) (hab : as ⊆ bs) : FlagsSet bs s t :=
  { h with others := fun a ha => h.others a fun hc => ha (hab hc) }

theorem or_flags_or_mask (b : Byte) (d : Bool) : b ||| 0x20 ||| (if d then 0x40 else 0) ||| 0x60 = b ||| 0x60 := by
  rw [BitVec.or_assoc, BitVec.or_assoc]
  cases d <;> rfl

theorem FlagsSet.setAD (hm : s.mem.wf = true) {a : Quad} (ha : a.toNat ∈ as) (h8 : a.toNat % 8 = 0) (d : Bool) :
    FlagsSet as s (s.setAD a d) where
  frame := rfl
  wf := Memory.wf_setAD hm _ d
  others b hb := by
    rw [State.setAD_mem, Memory.read_setAD hm, if_neg fun (hc : b = a.toNat) => hb (hc ▸ ha)]
  bits b := by
    rw [State.setAD_mem, Memory.read_setAD hm]
    split
    · next hc => rw [hc, or_flags_or_mask]
    · rfl
  paths la := pathAddresses_setAD hm h8 d la

theorem FlagsSet.drawAccessed (hm : s.mem.wf = true) {a : Quad} (ha : a.toNat ∈ as) (h8 : a.toNat % 8 = 0) :
    FlagsSet as s (s.drawAccessed a) := by
  have hd : FlagsSet as s { s with mem := if Config.freeBit s.draws then s.mem.setAD a.toNat false else s.mem } := by
    split
    · exact .setAD hm ha h8 false
    · exact .refl as hm
  exact ⟨rfl, hd.wf, hd.others, hd.bits, hd.paths⟩

/-! ## Translations -/

variable {la : Word} {kind : AccessKind} {mode : AccessMode} {p e : Quad}

theorem translate_done_flagsSet {tr : Translation} (hm : s.mem.wf = true)
    (h : linTranslate la kind mode s = .done tr t) : FlagsSet (pathAddresses s la) s t := by
  rcases translate_eq_done h with ⟨-, -, rfl⟩ |
    ⟨-, -, -, p, hp, hpp, e, he, hep, ⟨-, -, -, -, rfl⟩ | ⟨q, hps, hr, -, -, -, -, -, rfl⟩⟩
  · exact .refl _ hm
  · exact .setAD hm (pdeAddr_mem_path hp hpp) (pdeAddr_aligned _ _ _) _
  · have hpde := FlagsSet.setAD hm (pdeAddr_mem_path hp hpp) (pdeAddr_aligned _ _ _) false
    exact hpde.trans (.setAD hpde.wf (pteAddr_mem_path hp hpp he hep hps hr) (pteAddr_aligned _ _ _) _)

theorem translate_pageFault_flagsSet {ec f : Word} (hm : s.mem.wf = true)
    (h : linTranslate la kind mode s = .pageFault ec f t) : FlagsSet (pathAddresses s la) s t := by
  obtain ⟨-, -, -, -, rfl | ⟨p, e, hp, hpp, -, -, -, rfl⟩⟩ := translate_eq_pageFault h
  · exact .refl _ hm
  · exact .drawAccessed hm (pdeAddr_mem_path hp hpp) (pdeAddr_aligned _ _ _)

/-- Settles O30: the state a translation ends in has only flags on its path set. -/
theorem translateFrame : Obligations.TranslateFrame := by
  unfold Obligations.TranslateFrame
  intro s t la kind mode hm h
  obtain ⟨u, -, ⟨tr, hd, rfl⟩ | ⟨ec, hf, rfl⟩⟩ := execTranslate_eq_next h
  · have hu := translate_done_flagsSet hm hd
    exact ⟨by rw [hu.frame], .inl (by rw [hu.frame]), hu.wf, hu.others, hu.bits⟩
  · have hu := translate_pageFault_flagsSet hm hf
    exact ⟨by rw [hu.frame]; rfl, .inr ⟨rfl, ec, rfl⟩, hu.wf, hu.others, hu.bits⟩

/-! ## A translation that finds its entries is done (R92, R93) -/

theorem translate_eq_walkDirectory (hpae : s.paeInUse = true) (hcet : cr4CET s.cr4 = false)
    (hp : s.pdpte.select (laPdpteIndex la) = some p) (hpp : entryP p = true) :
    linTranslate la kind mode s = walkDirectory s la kind mode p := by
  rw [translate_paging hpae hcet, walkRegister]
  simp [hp, hpp]

theorem walkDirectory_of_done2M {tr : Translation} (he : readEntry s (pdeAddr s.cfg p la) = some e)
    (hep : entryP e = true) (h : Done2M s la kind mode (pdeAddr s.cfg p la) e tr t) :
    walkDirectory s la kind mode p = .done tr t := by
  obtain ⟨hps, hr, hrt, rfl, rfl⟩ := h
  simp [walkDirectory, use2M, he, hep, hps, hr, hrt]

theorem walkDirectory_of_done4K {q : Quad} {tr : Translation} (he : readEntry s (pdeAddr s.cfg p la) = some e)
    (hep : entryP e = true) (h : Done4K s la kind mode (pdeAddr s.cfg p la) e q tr t) :
    walkDirectory s la kind mode p = .done tr t := by
  obtain ⟨hps, hr, hq, hqp, hqr, hrt, rfl, rfl⟩ := h
  simp [walkDirectory, walkTable, use4K, he, hep, hps, hr, hq, hqp, hqr, hrt]

/-! ## A translation repeated (R45) -/

theorem withAD_withAD_false (d : Bool) (e : Quad) : withAD d (withAD false e) = withAD d e := by
  refine BitVec.eq_of_getLsbD_eq fun j _ => ?_
  simp only [Memory.getLsbD_withAD, Bool.false_and, Bool.or_false, Bool.or_assoc, Bool.or_self_left]

@[simp] theorem rights_setAD (a : Quad) (d us rw xd : Bool) :
    rights (s.setAD a d) kind mode us rw xd = rights s kind mode us rw xd := rfl

/-- Flags set twice in memory: of the first entry, which the second may be, some have been set. -/
theorem readQuad_setAD_setAD_first {m : Memory} (hm : m.wf = true) {a b : Nat} (ha : a % 8 = 0) (hb : b % 8 = 0)
    (d : Bool) : ∃ d', ((m.setAD a false).setAD b d).readQuad a = withAD d' (m.readQuad a) := by
  rw [readQuad_setAD_aligned (Memory.wf_setAD hm a false) hb ha, Memory.readQuad_setAD_same hm]
  split
  · exact ⟨d, withAD_withAD_false d _⟩
  · exact ⟨false, rfl⟩

theorem readQuad_setAD_setAD_last {m : Memory} (hm : m.wf = true) {a b : Nat} (ha : a % 8 = 0) (hb : b % 8 = 0)
    (d : Bool) : ((m.setAD a false).setAD b d).readQuad b = withAD d (m.readQuad b) := by
  rw [Memory.readQuad_setAD_same (Memory.wf_setAD hm a false), readQuad_setAD_aligned hm ha hb]
  split
  · exact withAD_withAD_false d _
  · rfl

/-- Where the flags are set already, setting them changes nothing. -/
theorem State.setAD_of_withAD {a : Quad} {d d' : Bool} (hd : d' = true → d = true)
    (h : s.mem.readQuad a.toNat = withAD d e) : s.setAD a d' = s := by
  rw [State.setAD, Memory.setAD_of_eq (by rw [h, withAD_withAD e hd])]

/-- An entry read with its flags changed, in the same RAM. -/
theorem readEntry_of_readEntry {a e' : Quad} (he : readEntry s a = some e) (hc : t.cfg = s.cfg)
    (h : t.mem.readQuad a.toNat = e') : readEntry t a = some e' := by
  rw [readEntry_of_inRam (by rw [hc]; exact (readEntry_eq_some he).1), h]

/-- Through a 2-MByte page: the entry reads with its flags set, and they are set again. -/
theorem translate_again_2M {tr : Translation} (hm : s.mem.wf = true) (hpae : s.paeInUse = true)
    (hcet : cr4CET s.cr4 = false) (hp : s.pdpte.select (laPdpteIndex la) = some p) (hpp : entryP p = true)
    (he : readEntry s (pdeAddr s.cfg p la) = some e) (hep : entryP e = true)
    (h : Done2M s la kind mode (pdeAddr s.cfg p la) e tr t) :
    linTranslate la kind mode t = .done tr t := by
  obtain ⟨hps, hr, hrt, htr, rfl⟩ := h
  have hread : (s.mem.setAD (pdeAddr s.cfg p la).toNat (decide (kind = .write))).readQuad
      (pdeAddr s.cfg p la).toNat = withAD (decide (kind = .write)) e := by
    rw [Memory.readQuad_setAD_same hm, (readEntry_eq_some he).2]
  refine Eq.trans (translate_eq_walkDirectory hpae hcet hp hpp)
    (walkDirectory_of_done2M (readEntry_of_readEntry he rfl hread) (by simpa using hep) ⟨?_, ?_, ?_, ?_, ?_⟩)
  · simpa using hps
  · simpa using hr
  · simpa using hrt
  · simpa using htr
  · exact (State.setAD_of_withAD (s := s.setAD _ _) id hread).symm

/-- Through a 4-KByte page, whose page-table entry may be its page-directory entry too. -/
theorem translate_again_4K {q : Quad} {tr : Translation} (hm : s.mem.wf = true) (hpae : s.paeInUse = true)
    (hcet : cr4CET s.cr4 = false) (hp : s.pdpte.select (laPdpteIndex la) = some p) (hpp : entryP p = true)
    (he : readEntry s (pdeAddr s.cfg p la) = some e) (hep : entryP e = true)
    (h : Done4K s la kind mode (pdeAddr s.cfg p la) e q tr t) :
    linTranslate la kind mode t = .done tr t := by
  obtain ⟨hps, hr, hq, hqp, hqr, hrt, htr, rfl⟩ := h
  set aE := pdeAddr s.cfg p la
  set aT := pteAddr s.cfg e la
  set d := decide (kind = .write)
  have h8E : aE.toNat % 8 = 0 := pdeAddr_aligned _ _ _
  have h8T : aT.toNat % 8 = 0 := pteAddr_aligned _ _ _
  set u := (s.setAD aE false).setAD aT d with hu
  obtain ⟨d', hreadE⟩ : ∃ d', u.mem.readQuad aE.toNat = withAD d' e := by
    rw [(readEntry_eq_some he).2]
    exact readQuad_setAD_setAD_first hm h8E h8T d
  have hreadT : u.mem.readQuad aT.toNat = withAD d q := by
    rw [(readEntry_eq_some hq).2]
    exact readQuad_setAD_setAD_last hm h8E h8T d
  have hsetE : u.setAD aE false = u := State.setAD_of_withAD nofun hreadE
  have hsetT : u.setAD aT d = u := State.setAD_of_withAD id hreadT
  refine Eq.trans (translate_eq_walkDirectory hpae hcet hp hpp) (walkDirectory_of_done4K (q := withAD d q)
    (readEntry_of_readEntry he rfl hreadE) (by simpa using hep) ⟨?_, ?_, ?_, ?_, ?_, ?_, ?_, ?_⟩)
  · simpa using hps
  · simpa [hu] using hr
  · rw [pteAddr_withAD]
    exact readEntry_of_readEntry hq rfl hreadT
  · simpa using hqp
  · simpa [hu] using hqr
  · simpa [hu] using hrt
  · simpa [hu] using htr
  · rw [pteAddr_withAD, show pdeAddr u.cfg p la = aE from rfl, hsetE]
    exact hsetT.symm

/-- A translation that is done, made again, is done with the same result and changes nothing. -/
theorem translate_again {tr : Translation} (hm : s.mem.wf = true) (h : linTranslate la kind mode s = .done tr t) :
    linTranslate la kind mode t = .done tr t := by
  rcases translate_eq_done h with ⟨hpg, rfl, rfl⟩ | ⟨-, hpae, hcet, p, hp, hpp, e, he, hep, h2M | ⟨q, h4K⟩⟩
  · exact translate_pagingOff hpg
  · exact translate_again_2M hm hpae hcet hp hpp he hep h2M
  · exact translate_again_4K hm hpae hcet hp hpp he hep h4K

/-- Settles O31: the outcome handed over in between is not read. -/
theorem translateIdempotent : Obligations.TranslateIdempotent := by
  unfold Obligations.TranslateIdempotent
  intro s t la kind mode tr hm h ha
  obtain ⟨u, hd, rfl⟩ := execTranslate_eq_translation h ha
  show (linTranslate la kind mode { u with answer := .translation tr }).finish .translation = _
  rw [translate_done_withAnswer _ (translate_again hm hd)]
  rfl

end Sys2Proof.Machine
end

section
/-! PROOF. FirstFault: an access ends in the first page fault of its chunks (41_translation.md R106, R107;
60_exceptions.md R116). -/

namespace Sys2Proof.Machine

open Sys2Proof.Safety

variable {s t u : State} {la ec f : Word} {kind : AccessKind} {mode : AccessMode} {n v : Nat}

/-! ## Page faults of an access -/

/-- A Translate that hands over a page fault is one that ends in it. -/
theorem execTranslate_eq_pageFault (h : exec (.translate la kind mode) s = .next t)
    (ha : t.answer = .exception 14 ec) :
    ∃ u, linTranslate la kind mode s = .pageFault ec la u ∧ t = takePageFault ec la u := by
  obtain ⟨u, -, ⟨tr, -, rfl⟩ | ⟨ec', hf, rfl⟩⟩ := execTranslate_eq_next h
  · cases ha
  · obtain rfl : ec' = ec := by simpa using ha
    exact ⟨u, hf, rfl⟩

theorem translate_pageFault_of_withAnswer {a : Answer}
    (h : linTranslate la kind mode { s with answer := a } = .pageFault ec f t) :
    ∃ u, linTranslate la kind mode s = .pageFault ec f u ∧ t = { u with answer := a } := by
  have hx := translate_withAnswer (la := la) (kind := kind) (mode := mode) (s := s) a
  rw [h] at hx
  generalize linTranslate la kind mode s = y at hx
  cases hx with
  | pageFault _ _ hu => exact ⟨_, rfl, hu⟩

theorem translateChunks_pageFault_first (hn : 1 ≤ n) (h : linTranslate la kind mode s = .pageFault ec f u) :
    translateChunks kind mode (chunks la n) s = .pageFault ec f u := by
  obtain ⟨len, cs, hc⟩ := chunks_eq_cons (la := la) hn
  rw [hc, translateChunks, h]
  rfl

theorem translateChunks_pageFault_second {tr : Translation} (h1 : bytesToBoundary la < n)
    (h2 : n ≤ bytesToBoundary la + 4096) (hd : linTranslate la kind mode s = .done tr u)
    (hf : linTranslate (la + BitVec.ofNat 32 (bytesToBoundary la)) kind mode u = .pageFault ec f t) :
    translateChunks kind mode (chunks la n) s = .pageFault ec f t := by
  rw [chunks_eq_two h1 h2]
  simp only [translateChunks, hd, hf, Access.bind]

/-- A page fault of the translations of an access is the end of the access. -/
theorem accesses_pageFault (h : translateChunks kind mode (chunks la n) s = .pageFault ec f u) :
    (kind = .read → exec (.linRead la n mode) s = .next (takePageFault ec f u)) ∧
    (kind = .write → exec (.linWrite la n v mode) s = .next (takePageFault ec f u)) ∧
    (kind = .fetch → exec (.linFetch la n mode) s = .next (takePageFault ec f u)) := by
  refine ⟨?_, ?_, ?_⟩ <;> rintro rfl <;>
    simp only [exec, execLinRead, execLinWrite, execLinFetch, linLoad, linStore, h, Access.bind, Access.finish]

/-- Settles O45: the upper chunk is translated in the state after the lower one. -/
theorem crossPageFaultReportsItsChunk : Obligations.CrossPageFaultReportsItsChunk := by
  unfold Obligations.CrossPageFaultReportsItsChunk
  intro s s1 t la n v mode tr ec h1 h2 ha
  refine ⟨fun kind hl => ?_, fun kind hs1 had hl => ?_⟩
  · obtain ⟨u, hf, rfl⟩ := execTranslate_eq_pageFault hl ha
    exact accesses_pageFault (translateChunks_pageFault_first (by omega) hf)
  · obtain ⟨u1, hd, rfl⟩ := execTranslate_eq_translation hs1 had
    obtain ⟨u2, hf2, rfl⟩ := execTranslate_eq_pageFault hl ha
    obtain ⟨u, hf, rfl⟩ := translate_pageFault_of_withAnswer hf2
    have hends := accesses_pageFault (v := v) (translateChunks_pageFault_second h1 h2 hd hf)
    exact ⟨rfl, hends⟩

end Sys2Proof.Machine
end

section
/-! PROOF. OutsideRam: an address outside RamRegions is refused by name (20_memory.md R46). -/

namespace Sys2Proof.Machine

open Sys2Proof.Safety

variable {s u : State} {la : Word} {kind : AccessKind} {mode : AccessMode} {n v : Nat}

/-! ## The entries of a walk -/

theorem walkDirectory_outside {p : Quad} (h : readEntry s (pdeAddr s.cfg p la) = none) :
    walkDirectory s la kind mode p = .refused (.noMemory (pdeAddr s.cfg p la).toNat) := by
  simp [walkDirectory, h]

theorem walkTable_outside {aE e : Quad} (h : readEntry s (pteAddr s.cfg e la) = none) :
    walkTable s la kind mode aE e = .refused (.noMemory (pteAddr s.cfg e la).toNat) := by
  simp [walkTable, h]

theorem walkDirectory_pdePT {p e : Quad} (he : readEntry s (pdeAddr s.cfg p la) = some e) (hep : entryP e = true)
    (hps : entryPS e = false) (hr : rsvdPdePT s.cfg s.nxe e = false) :
    walkDirectory s la kind mode p = walkTable s la kind mode (pdeAddr s.cfg p la) e := by
  simp [walkDirectory, he, hep, hps, hr]

theorem exec_translate_refused {r : Refusal} (h : linTranslate la kind mode s = .refused r) :
    exec (.translate la kind mode) s = .refused r := by
  simp only [exec, execTranslate, h, Access.finish]

/-! ## The data of an access -/

theorem translateChunks_one {tr : Translation} (h1 : 1 ≤ n) (h2 : la.toNat % 4096 + n ≤ 4096)
    (h : linTranslate la kind mode s = .done tr u) :
    translateChunks kind mode (chunks la n) s = .done [⟨tr.pa, n⟩] u := by
  rw [chunks_eq_one h1 h2]
  simp only [translateChunks, h, Access.bind]

/-- An access inside one 4-KByte range whose Translate is done, to an address outside RAM, has one piece there. -/
theorem translateChunks_one_outside {tr : Translation} (h1 : 1 ≤ n) (h2 : la.toNat % 4096 + n ≤ 4096)
    (ha : u.answer = .translation tr) (hr : inRam s.cfg tr.pa.toNat n = false)
    (h : exec (.translate la kind mode) s = .next u) :
    ∃ t, translateChunks kind mode (chunks la n) s = .done [⟨tr.pa, n⟩] t ∧
      inRam t.cfg tr.pa.toNat n = false := by
  obtain ⟨t, hd, -⟩ := execTranslate_eq_translation h ha
  exact ⟨t, translateChunks_one h1 h2 hd, by rw [(translate_done_flagsOnly hd).cfg, hr]⟩

theorem linLoad_outside {p : Piece} (h : translateChunks kind mode (chunks la n) s = .done [p] u)
    (hr : inRam u.cfg p.pa.toNat p.len = false) : linLoad kind la n mode s = .refused (.noMemory p.pa.toNat) := by
  simp [linLoad, h, Access.bind, readPieces, hr]

theorem linStore_outside {p : Piece} (h : translateChunks .write mode (chunks la n) s = .done [p] u)
    (hr : inRam u.cfg p.pa.toNat p.len = false) : linStore la n v mode s = .refused (.noMemory p.pa.toNat) := by
  simp [linStore, h, Access.bind, writePieces, hr]

/-! ## The table of the PDPTE registers -/

theorem finishMove_outside {old new : State} (h : tableInRam new new.cr3 = false) :
    finishMove old new true = .refused (.noMemory (new.cr3 &&& 0xFFFFFFE0).toNat) := by
  simp [finishMove, loadPdptes_eq, h]

theorem privileged_eq {act : State → Host.Outcome State Fault Refusal} (h : s.cpl = 0) :
    privileged s act = act s := by simp [privileged, h]

theorem execMovToCR0_outside {src : Source} (hc : s.cpl = 0) (hi : cr0Illegal (sourceValue s src) = false)
    (hp : pagingModeOf (sourceValue s src) s.cr4 s.efer = .pae) (hl : cr0Reloads s.cr0 (sourceValue s src) = true)
    (hr : tableInRam s s.cr3 = false) : execMovToCR0 src s = .refused (.noMemory (s.cr3 &&& 0xFFFFFFE0).toNat) := by
  have hpae : State.paeInUse { s with cr0 := sourceValue s src } = true := paeInUse_iff_pagingMode.mpr hp
  rw [execMovToCR0, privileged_eq hc, movToCR0]
  simp only [hi, hpae, hl, Bool.and_self, Bool.false_eq_true, if_false]
  exact finishMove_outside hr

theorem execMovToCR4_outside {src : Source} (hc : s.cpl = 0) (hi : cr4Illegal s.cfg (sourceValue s src) = false)
    (hp : pagingModeOf s.cr0 (sourceValue s src) s.efer = .pae) (hl : cr4Reloads s.cr4 (sourceValue s src) = true)
    (hr : tableInRam s s.cr3 = false) : execMovToCR4 src s = .refused (.noMemory (s.cr3 &&& 0xFFFFFFE0).toNat) := by
  have hpae : State.paeInUse { s with cr4 := sourceValue s src } = true := paeInUse_iff_pagingMode.mpr hp
  rw [execMovToCR4, privileged_eq hc, movToCR4]
  simp only [hi, hpae, hl, Bool.and_self, Bool.false_eq_true, if_false]
  exact finishMove_outside hr

theorem execMovToCR3_outside {src : Source} (hc : s.cpl = 0) (hp : s.paeInUse = true)
    (hr : tableInRam s (sourceValue s src) = false) :
    execMovToCR3 src s = .refused (.noMemory (sourceValue s src &&& 0xFFFFFFE0).toNat) := by
  have hpae : State.paeInUse { s with cr3 := sourceValue s src } = true := hp
  rw [execMovToCR3, privileged_eq hc, movToCR3]
  simp only [hpae]
  exact finishMove_outside hr

theorem execTaskSwitchCR3_outside {v : Word} (hp : s.paeInUse = true) (hv : v ≠ s.cr3)
    (hr : tableInRam s v = false) : execTaskSwitchCR3 v s = .refused (.noMemory (v &&& 0xFFFFFFE0).toNat) := by
  have hpae : State.paeInUse { s with cr3 := v } = true := hp
  have hrv : tableInRam { s with cr3 := v } v = false := hr
  simp [execTaskSwitchCR3, hpae, hv, switchLoad, loadPdptes_eq, hrv]

/-- Settles O34: entries, data and tables, each refused where it is read. -/
theorem outsideRamRefused : Obligations.OutsideRamRefused := by
  unfold Obligations.OutsideRamRefused
  refine ⟨fun s la kind mode p hpae hcet hp hpp => ⟨fun h => ?_, fun e he hep hps hr h => ?_⟩,
    fun s s1 la n v mode tr h1 h2 ha hr => ?_, fun s src hr => ⟨?_, ?_, ?_⟩, fun s src v hv hr hp => ⟨?_, ?_⟩⟩
  · exact exec_translate_refused ((translate_eq_walkDirectory hpae hcet hp hpp).trans (walkDirectory_outside h))
  · exact exec_translate_refused ((translate_eq_walkDirectory hpae hcet hp hpp).trans
      ((walkDirectory_pdePT he hep hps hr).trans (walkTable_outside h)))
  · have one {kind : AccessKind} := translateChunks_one_outside (kind := kind) (mode := mode) h1 h2 ha hr
    refine ⟨fun h => ?_, fun h => ?_, fun h => ?_⟩ <;> obtain ⟨u, hd, hu⟩ := one h
    · simp only [exec, execLinRead, linLoad_outside hd hu, Access.finish]
    · simp only [exec, execLinWrite, linStore_outside hd hu, Access.finish]
    · simp only [exec, execLinFetch, linLoad_outside hd hu, Access.finish]
  · exact finishMove_outside hr
  · exact fun hc hi hp hl => execMovToCR0_outside hc hi hp hl hr
  · exact fun hc hi hp hl => execMovToCR4_outside hc hi hp hl hr
  · exact fun hc => hv ▸ execMovToCR3_outside hc hp (hv ▸ hr)
  · exact fun hne => execTaskSwitchCR3_outside hp hne hr

end Sys2Proof.Machine
end

section
/-! PROOF. Chunks: the chunks of an access cover its bytes in order, each inside one 4-KByte range (20_memory.md R43;
41_translation.md R106). -/

namespace Sys2Proof.Machine

/-- The linear addresses of the `n` bytes from `la` up, modulo `2^32`. -/
def wordsFrom (la : Word) (n : Nat) : List Word := (List.range n).map fun k => la + BitVec.ofNat 32 k

/-- The linear addresses of the bytes of chunks, in order. -/
def chunkWords (cs : List Chunk) : List Word := cs.flatMap fun c => wordsFrom c.la c.len

theorem length_wordsFrom (la : Word) (n : Nat) : (wordsFrom la n).length = n := by simp [wordsFrom]

theorem getElem?_wordsFrom (la : Word) {n k : Nat} (h : k < n) :
    (wordsFrom la n)[k]? = some (la + BitVec.ofNat 32 k) := by simp [wordsFrom, h]

theorem mem_wordsFrom {la w : Word} {n : Nat} : w ∈ wordsFrom la n ↔ ∃ k, k < n ∧ w = la + BitVec.ofNat 32 k := by
  simp [wordsFrom, eq_comm]

theorem wordsFrom_add (la : Word) (m n : Nat) :
    wordsFrom la (m + n) = wordsFrom la m ++ wordsFrom (la + BitVec.ofNat 32 m) n := by
  simp only [wordsFrom, List.range_add, List.map_append, List.map_map, List.append_cancel_left_eq]
  refine List.map_congr_left fun k _ => ?_
  simp only [Function.comp, BitVec.ofNat_add, BitVec.add_assoc]

/-- The bytes of the chunks are the bytes of the access, in ascending order. -/
theorem chunkWords_chunksFuel {fuel n : Nat} (la : Word) (h : n ≤ fuel) :
    chunkWords (chunksFuel fuel la n) = wordsFrom la n := by
  induction fuel generalizing la n with
  | zero =>
    obtain rfl : n = 0 := by omega
    rfl
  | succ fuel ih =>
    have hb := bytesToBoundary_pos la
    simp only [chunksFuel]
    split
    · next h0 => rw [h0]; rfl
    split
    · exact List.append_nil _
    · next hlt =>
      calc wordsFrom la (bytesToBoundary la) ++ chunkWords (chunksFuel fuel _ (n - bytesToBoundary la))
        _ = wordsFrom la (bytesToBoundary la) ++ wordsFrom _ (n - bytesToBoundary la) := by rw [ih _ (by omega)]
        _ = wordsFrom la n := by rw [← wordsFrom_add, show bytesToBoundary la + (n - bytesToBoundary la) = n by omega]

theorem chunkWords_chunks (la : Word) (n : Nat) : chunkWords (chunks la n) = wordsFrom la n :=
  chunkWords_chunksFuel la (Nat.le_refl n)

/-- A chunk has a byte and lies inside one 4-KByte range. -/
def Chunk.InOneRange (c : Chunk) : Prop := 1 ≤ c.len ∧ c.la.toNat % 4096 + c.len ≤ 4096

theorem chunksFuel_inOneRange {fuel n : Nat} {la : Word} : ∀ c ∈ chunksFuel fuel la n, c.InOneRange := by
  induction fuel generalizing la n with
  | zero => nofun
  | succ fuel ih =>
    have hb : bytesToBoundary la = 4096 - la.toNat % 4096 := rfl
    simp only [chunksFuel]
    split
    · nofun
    split
    · rintro c (_ | ⟨_, ⟨⟩⟩)
      constructor <;> dsimp only <;> omega
    · rintro c (_ | ⟨_, hc⟩)
      · constructor <;> dsimp only <;> omega
      · exact ih c hc

theorem chunks_inOneRange (la : Word) (n : Nat) : ∀ c ∈ chunks la n, c.InOneRange := chunksFuel_inOneRange

theorem chunksFuel_aligned {fuel n : Nat} {la : Word} (h : la.toNat % 4096 = 0) :
    ∀ c ∈ chunksFuel fuel la n, c.la.toNat % 4096 = 0 := by
  induction fuel generalizing la n with
  | zero => nofun
  | succ fuel ih =>
    simp only [chunksFuel]
    split
    · nofun
    split
    · rintro c (_ | ⟨_, ⟨⟩⟩)
      exact h
    · rintro c (_ | ⟨_, hc⟩)
      · exact h
      · exact ih (add_bytesToBoundary_aligned la) c hc

/-- Every chunk but the first begins at a boundary. -/
theorem chunks_tail_aligned (la : Word) (n : Nat) : ∀ c ∈ (chunks la n).tail, c.la.toNat % 4096 = 0 := by
  cases n with
  | zero => nofun
  | succ n =>
    simp only [chunks, chunksFuel, Nat.add_one_ne_zero, if_false]
    split
    · nofun
    · exact chunksFuel_aligned (add_bytesToBoundary_aligned la)

/-- Settles O38: by induction on the chunks still to be cut. -/
theorem chunksCoverTheAccess : Obligations.ChunksCoverTheAccess := by
  unfold Obligations.ChunksCoverTheAccess
  exact fun la n => ⟨chunkWords_chunks la n, chunks_inOneRange la n, chunks_tail_aligned la n⟩

end Sys2Proof.Machine
end

section
/-! PROOF. PagingOff: with paging off an access of any length is done at the linear addresses of its bytes
(20_memory.md R34, R43; 41_translation.md R106 to R108). -/

namespace Sys2Proof.Machine

open Sys2Proof.Safety

/-! ## Pieces byte by byte -/

theorem Memory.readBytes_eq_map (m : Memory) (a n : Nat) :
    m.readBytes a n = ((List.range n).map (a + ·)).map m.read := by
  refine List.ext_getElem? fun k => ?_
  by_cases hk : k < n
  · simp [Memory.getElem?_readBytes m a n k hk, hk]
  · rw [List.getElem?_eq_none (by rw [Memory.length_readBytes]; omega), List.getElem?_eq_none (by simp; omega)]

theorem flatMap_readBytes (m : Memory) (ps : List Piece) :
    (ps.flatMap fun p => m.readBytes p.pa.toNat p.len) = (pieceAddresses ps).map m.read := by
  simp only [pieceAddresses, List.map_flatMap, Memory.readBytes_eq_map]

theorem piecesInRam_iff {s : State} {ps : List Piece} :
    piecesInRam s ps = true ↔ ∀ a ∈ pieceAddresses ps, hasRam s.cfg a = true := by
  simp only [piecesInRam, List.all_eq_true, inRam_iff, mem_pieceAddresses, Covers]
  exact ⟨fun h a ⟨p, hp, h1, h2⟩ => h p hp a h1 h2, fun h p hp a h1 h2 => h a ⟨p, hp, h1, h2⟩⟩

/-- Byte `k` of the number that bytes spell. -/
theorem ofNat_leNat_div (bs : List Byte) {k : Nat} {b : Byte} (h : bs[k]? = some b) :
    BitVec.ofNat 8 (leNat bs / 256 ^ k) = b := by
  obtain ⟨hk, -⟩ := List.getElem?_eq_some_iff.mp h
  have hbyte := leBytes_getElem? bs.length (leNat bs) k hk
  rw [leBytes_leNat, h] at hbyte
  exact (Option.some.inj hbyte).symm

/-! ## The pieces with paging off -/

/-- The piece that a chunk translates to with paging off (R34). -/
def Chunk.direct (c : Chunk) : Piece := ⟨c.la.setWidth 64, c.len⟩

/-- Inside one 4-KByte range the addresses of bytes do not wrap. -/
theorem toNat_add_of_inOneRange {c : Chunk} (h : c.InOneRange) {k : Nat} (hk : k < c.len) :
    c.direct.pa.toNat + k = (c.la + BitVec.ofNat 32 k).toNat := by
  obtain ⟨-, hc⟩ := h
  have hla := c.la.isLt
  simp only [Chunk.direct, BitVec.toNat_setWidth, BitVec.toNat_add, BitVec.toNat_ofNat]
  omega

theorem pieceAddresses_direct {cs : List Chunk} (h : ∀ c ∈ cs, c.InOneRange) :
    pieceAddresses (cs.map Chunk.direct) = (chunkWords cs).map BitVec.toNat := by
  simp only [pieceAddresses, chunkWords, wordsFrom, List.flatMap_map, List.map_flatMap, List.map_map]
  refine List.flatMap_congr fun c hc => List.map_congr_left fun k hk => ?_
  exact toNat_add_of_inOneRange (h c hc) (List.mem_range.mp hk)

/-- The physical addresses of an access with paging off. -/
theorem pieceAddresses_chunks (la : Word) (n : Nat) :
    pieceAddresses ((chunks la n).map Chunk.direct) = (wordsFrom la n).map BitVec.toNat := by
  rw [pieceAddresses_direct (chunks_inOneRange la n), chunkWords_chunks]

variable {s : State} {la : Word} {n : Nat}

theorem piecesInRam_direct (hr : ∀ k, k < n → hasRam s.cfg (la + BitVec.ofNat 32 k).toNat = true) :
    piecesInRam s ((chunks la n).map Chunk.direct) = true := by
  rw [piecesInRam_iff, pieceAddresses_chunks]
  intro a ha
  obtain ⟨w, hw, rfl⟩ := List.mem_map.mp ha
  obtain ⟨k, hk, rfl⟩ := mem_wordsFrom.mp hw
  exact hr k hk

theorem linLoad_pagingOff (h : cr0PG s.cr0 = false)
    (hr : ∀ k, k < n → hasRam s.cfg (la + BitVec.ofNat 32 k).toNat = true) (kind : AccessKind) (mode : AccessMode) :
    linLoad kind la n mode s = .done ((wordsFrom la n).map fun a => s.mem.read a.toNat) s := by
  have hps := readPieces_of_inRam (piecesInRam_direct hr)
  rw [flatMap_readBytes, pieceAddresses_chunks, List.map_map] at hps
  rw [linLoad, translateChunks_pagingOff h]
  exact hps

/-- The memory that a write of `v` with paging off leaves. -/
def storedAt (m : Memory) (la : Word) (n v : Nat) : Memory :=
  writeAll m (((wordsFrom la n).map BitVec.toNat).zip (leBytes n v))

theorem linStore_pagingOff (h : cr0PG s.cr0 = false)
    (hr : ∀ k, k < n → hasRam s.cfg (la + BitVec.ofNat 32 k).toNat = true) (v : Nat) (mode : AccessMode) :
    linStore la n v mode s = .done () { s with mem := storedAt s.mem la n v } := by
  have hlen : (leBytes n v).length = piecesLength ((chunks la n).map Chunk.direct) := by
    rw [length_leBytes, ← length_pieceAddresses, pieceAddresses_chunks, List.length_map, length_wordsFrom]
  have hps := writePieces_of_inRam (piecesInRam_direct hr) hlen
  rw [pieceAddresses_chunks] at hps
  rw [linStore, translateChunks_pagingOff h]
  exact hps

/-! ## What the bytes hold -/

theorem getElem?_storedCells {la : Word} {n v k : Nat} (hk : k < n) :
    (((wordsFrom la n).map BitVec.toNat).zip (leBytes n v))[k]? =
      some ((la + BitVec.ofNat 32 k).toNat, BitVec.ofNat 8 (v / 256 ^ k)) := by
  rw [List.getElem?_zip_eq_some]
  exact ⟨by rw [List.getElem?_map, getElem?_wordsFrom la hk]; rfl, leBytes_getElem? n v k hk⟩

/-- Bytes less than `2^32` apart do not meet. -/
theorem toNat_add_ne {la : Word} {j k : Nat} (h : k < j) (h2 : j < k + 2 ^ 32) :
    (la + BitVec.ofNat 32 j).toNat ≠ (la + BitVec.ofNat 32 k).toNat := by
  simp only [BitVec.toNat_add, BitVec.toNat_ofNat]
  omega

theorem read_storedAt {m : Memory} (hm : m.wf = true) (la : Word) (v : Nat) {k : Nat} (hk : k < n)
    (hn : n ≤ k + 2 ^ 32) :
    (storedAt m la n v).read (la + BitVec.ofNat 32 k).toNat = BitVec.ofNat 8 (v / 256 ^ k) := by
  refine read_writeAll_last hm _ k _ _ (getElem?_storedCells hk) fun j c hj hc => ?_
  obtain ⟨hjl, -⟩ := List.getElem?_eq_some_iff.mp hc
  have hjn : j < n := by simpa [length_wordsFrom, length_leBytes] using hjl
  rw [getElem?_storedCells hjn] at hc
  rw [← Option.some.inj hc]
  exact toNat_add_ne hj (by omega)

theorem read_storedAt_other (m : Memory) {la : Word} {n : Nat} (v : Nat) {a : Nat}
    (h : ∀ k, k < n → a ≠ (la + BitVec.ofNat 32 k).toNat) : (storedAt m la n v).read a = m.read a := by
  refine read_writeAll_other _ _ _ fun c hc => ?_
  obtain ⟨w, hw, hcw⟩ := List.mem_map.mp (List.of_mem_zip hc).1
  obtain ⟨k, hk, rfl⟩ := mem_wordsFrom.mp hw
  exact hcw ▸ (h k hk).symm

/-- Settles O41: the pieces of the chunks are the bytes' own addresses, in order. -/
theorem accessesWithPagingOff : Obligations.AccessesWithPagingOff := by
  unfold Obligations.AccessesWithPagingOff
  intro s la n v mode _ hpg hm hr
  refine ⟨⟨leNat ((wordsFrom la n).map fun a => s.mem.read a.toNat), ?_, ?_, ?_, fun k hk => ?_⟩,
    storedAt s.mem la n v, ?_, fun k hk hn => read_storedAt hm la v hk hn, fun a ha => read_storedAt_other _ v ha⟩
  · simp only [exec, execLinRead, linLoad_pagingOff hpg hr, Access.finish]
  · simp only [exec, execLinFetch, linLoad_pagingOff hpg hr, Access.finish]
  · simpa [length_wordsFrom] using leNat_lt ((wordsFrom la n).map fun a => s.mem.read a.toNat)
  · exact ofNat_leNat_div _ (by rw [List.getElem?_map, getElem?_wordsFrom la hk]; rfl)
  · simp only [exec, execLinWrite, linStore_pagingOff hpg hr, Access.finish]

end Sys2Proof.Machine
end

section
/-! PROOF. AccessFrame: reads, fetches and faulting writes change flags on the paths of their chunks only
(20_memory.md R45; 41_translation.md R107; 60_exceptions.md R113). -/

namespace Sys2Proof.Machine

open Sys2Proof.Safety

variable {s t u : State} {ec f : Word} {kind : AccessKind} {mode : AccessMode} {cs : List Chunk}

/-- The addresses of the entries on the paths of chunks. -/
def chunkPaths (s : State) (cs : List Chunk) : List Nat := cs.flatMap fun c => pathAddresses s c.la

theorem chunkPaths_eq_of_flagsSet {as : List Nat} (h : FlagsSet as s t) (cs : List Chunk) :
    chunkPaths t cs = chunkPaths s cs := by simp only [chunkPaths, h.paths]

theorem FlagsSet.on_first {c : Chunk} (h : FlagsSet (pathAddresses s c.la) s t) :
    FlagsSet (chunkPaths s (c :: cs)) s t := h.mono (List.subset_append_left _ _)

/-- The flags of the first chunk's path and then those of the later chunks' paths. -/
theorem FlagsSet.on_rest {c : Chunk} (h : FlagsSet (pathAddresses s c.la) s t) (h' : FlagsSet (chunkPaths t cs) t u) :
    FlagsSet (chunkPaths s (c :: cs)) s u := by
  rw [chunkPaths_eq_of_flagsSet h] at h'
  exact h.on_first.trans (h'.mono (List.subset_append_right _ _))

theorem translateChunks_done_flagsSet {ps : List Piece} (hm : s.mem.wf = true)
    (h : translateChunks kind mode cs s = .done ps t) : FlagsSet (chunkPaths s cs) s t := by
  induction cs generalizing s t ps with
  | nil =>
    obtain ⟨-, rfl⟩ := Access.done.inj h
    exact .refl _ hm
  | cons c cs ih =>
    obtain ⟨tr, s1, h1, h⟩ := Access.bind_eq_done h
    obtain ⟨qs, s2, h2, h⟩ := Access.bind_eq_done h
    obtain ⟨-, rfl⟩ := Access.done.inj h
    have hfirst := translate_done_flagsSet hm h1
    exact hfirst.on_rest (ih hfirst.wf h2)

theorem translateChunks_pageFault_flagsSet (hm : s.mem.wf = true)
    (h : translateChunks kind mode cs s = .pageFault ec f t) : FlagsSet (chunkPaths s cs) s t := by
  induction cs generalizing s with
  | nil => cases h
  | cons c cs ih =>
    rcases Access.bind_eq_pageFault h with h1 | ⟨tr, s1, h1, h⟩
    · exact (translate_pageFault_flagsSet hm h1).on_first
    · have hfirst := translate_done_flagsSet hm h1
      rcases Access.bind_eq_pageFault h with h2 | ⟨qs, s2, -, h⟩
      · exact hfirst.on_rest (ih hfirst.wf h2)
      · cases h

/-! ## The end of an access that stores no data -/

/-- Only flags at `as` are set, and then the outcome is handed over, with CR2 where it is a page fault. -/
def FlagsThenEnd (as : List Nat) (s t : State) : Prop :=
  ∃ u, FlagsSet as s u ∧ ((∃ a, t = { u with answer := a }) ∨ ∃ ec f, t = takePageFault ec f u)

variable {la : Word} {n v : Nat}

theorem linLoad_flagsThenEnd (hm : s.mem.wf = true)
    (h : ((linLoad kind la n mode s).finish fun bs => .value n (leNat bs)) = .next t) :
    FlagsThenEnd (chunkPaths s (chunks la n)) s t := by
  obtain ⟨u, -, ⟨bs, hd, rfl⟩ | ⟨ec, f, hf, rfl⟩⟩ := linLoad_eq_next h
  · obtain ⟨ps, w, htr, hread⟩ := Access.bind_eq_done hd
    obtain rfl := readPieces_eq_done hread
    exact ⟨u, translateChunks_done_flagsSet hm htr, .inl ⟨_, rfl⟩⟩
  · rcases Access.bind_eq_pageFault hf with htr | ⟨ps, w, -, hread⟩
    · exact ⟨u, translateChunks_pageFault_flagsSet hm htr, .inr ⟨ec, f, rfl⟩⟩
    · exact absurd hread readPieces_ne_pageFault

theorem execLinWrite_flagsThenEnd (hm : s.mem.wf = true) (h : execLinWrite la n v mode s = .next t)
    (ha : t.answer ≠ .done) : FlagsThenEnd (chunkPaths s (chunks la n)) s t := by
  obtain ⟨u, -, ⟨ps, w, -, -, -, -, -, rfl⟩ | ⟨ec, f, hf, rfl⟩⟩ := execLinWrite_eq_next h
  · exact absurd rfl ha
  · exact ⟨u, translateChunks_pageFault_flagsSet hm hf, .inr ⟨ec, f, rfl⟩⟩

/-- Settles O46: the chunks' translations leave each other's paths where they were. -/
theorem faultingWritesAndReadsStoreNothing : Obligations.FaultingWritesAndReadsStoreNothing := by
  unfold Obligations.FaultingWritesAndReadsStoreNothing
  intro s t la n v mode hm h
  have hends : FlagsThenEnd (chunkPaths s (chunks la n)) s t := by
    rcases h with h | h | ⟨h, ha⟩
    · exact linLoad_flagsThenEnd hm h
    · exact linLoad_flagsThenEnd hm h
    · exact execLinWrite_flagsThenEnd hm h ha
  have hpaths : ∀ {a}, (∀ c ∈ chunks la n, a ∉ pathAddresses s c.la) → a ∉ chunkPaths s (chunks la n) := by
    intro a ha hmem
    obtain ⟨c, hc, hac⟩ := List.mem_flatMap.mp hmem
    exact ha c hc hac
  obtain ⟨u, hu, ⟨a, rfl⟩ | ⟨ec, f, rfl⟩⟩ := hends
  · exact ⟨by rw [hu.frame], .inl (by rw [hu.frame]), fun a ha => hu.others a (hpaths ha), hu.bits⟩
  · exact ⟨by rw [hu.frame]; rfl, .inr ⟨ec, rfl⟩, fun a ha => hu.others a (hpaths ha), hu.bits⟩

end Sys2Proof.Machine
end

section
/-! PROOF. Reloads: a step changes the PDPTE registers to the table that CR3 then names in memory, or not at all
(20_memory.md R49; 40_pdpte_registers.md R86). -/

namespace Sys2Proof.Machine

open Sys2Proof.Safety

variable {s t u : State}

/-- The PDPTE registers of `t` are those of `s`, or the table in memory at the CR3 of `t`. -/
def KeptOrTable (s t : State) : Prop := t.pdpte = s.pdpte ∨ t.pdpte = tableRegisters t t.cr3

theorem KeptOrTable.of_eq (h : u.pdpte = s.pdpte) (h' : KeptOrTable u t) : KeptOrTable s t := h'.imp_left (·.trans h)

theorem LoadedOrKept.keptOrTable (hm : t.mem = s.mem) (h : LoadedOrKept s t) : KeptOrTable s t := by
  rcases h with ⟨-, hr⟩ | ⟨hr, -⟩
  · refine .inr (hr.trans ?_)
    simp only [tableRegisters, tableEntry, hm]
  · exact .inl hr

theorem EntryMove.pdpte (h : EntryMove s t) : t.pdpte = s.pdpte := by
  cases h with
  | unread ht => rw [ht]
  | goesOn w stage hw hp ht => rw [ht]
  | translated w u tr hw hu ht => rw [ht, hu.1]
  | pageFaulted w u ec hw hu ht => rw [ht, takePageFault_pdpte, hu.1]

theorem RowEffect.keptOrTable {i : Instr} (h : RowEffect s t i) : KeptOrTable s t := by
  cases h with
  | entry h => exact .inl h.pdpte
  | answered u a hu ht => exact .inl (by rw [ht, hu.1])
  | pageFaulted u ec la hu ht => exact .inl (by rw [ht, takePageFault_pdpte, hu.1])
  | toGpr r v hi ht => exact .inl (by rw [ht])
  | toCR0 src v r hv hl ht => exact hl.keptOrTable (by rw [ht])
  | toCR3 src v r hl ht => exact hl.keptOrTable (by rw [ht])
  | toCR4 src v r hv hl ht => exact hl.keptOrTable (by rw [ht])
  | switched v r d hl ht => exact hl.keptOrTable (by rw [ht])
  | loaded r hl ht => exact hl.keptOrTable (by rw [ht])
  | toEfer v hp ht => exact .inl (by rw [ht])
  | toAC b ht => exact .inl (by rw [ht])

theorem runCode_keptOrTable {bytes : List Byte} (h : runCode bytes s = .next t) : KeptOrTable s t := by
  unfold runCode at h
  split at h
  · exact (exec_rowEffect h).keptOrTable
  · rcases execMovToCR2_eq_next h with rfl | ⟨-, rfl⟩ <;> exact .inl rfl
  · cases h

theorem runAt_keptOrTable {la : Word} (h : runAt la s = .next t) : KeptOrTable s t := by
  unfold runAt at h
  split at h
  · next hl => exact .of_eq (linLoad_done_flagsOnly hl).pdpte (runCode_keptOrTable h)
  · next hl =>
    obtain rfl := Host.Outcome.next.inj h
    exact .inl (linLoad_pageFault_flagsOnly hl).pdpte
  · cases h
  · cases h

theorem beginWalk_pdpte {la : Word} {kind : AccessKind} {mode : AccessMode} (h : beginWalk la kind mode s = .next t) :
    t.pdpte = s.pdpte := by
  unfold beginWalk at h
  split at h
  · rw [← Host.Outcome.next.inj h]
  split at h
  · cases h
  split at h
  · cases h
  · rw [← Host.Outcome.next.inj h]

theorem agentWrite_pdpte {pa : Nat} {bytes : List Byte} (h : agentWrite pa bytes s = .next t) :
    t.pdpte = s.pdpte := by
  unfold agentWrite at h
  split at h
  · rw [← Host.Outcome.next.inj h]
  · cases h

theorem runEvent_keptOrTable {ev : Event} (h : runEvent ev s = .next t) : KeptOrTable s t := by
  cases ev with
  | code bytes => exact runCode_keptOrTable h
  | runAt la => exact runAt_keptOrTable h
  | operation i =>
    simp only [runEvent, runOperation] at h
    split at h
    · exact (exec_rowEffect h).keptOrTable
    · cases h
  | beginWalk la kind mode => exact .inl (beginWalk_pdpte h)
  | speculate la table =>
    obtain rfl := Host.Outcome.next.inj h
    exact .inl (flagsOnly_speculate s la table).pdpte
  | agentWrite pa bytes => exact .inl (agentWrite_pdpte h)
  | setGpr r v => exact .inl (by rw [← Host.Outcome.next.inj h])
  | setCpl level => exact .inl (by rw [← Host.Outcome.next.inj h])

/-- Settles O56: a step is idle, or a move of the walk in progress, or the event at the head of the queue. -/
theorem stepReloadsFromCurrentTable : Obligations.StepReloadsFromCurrentTable := by
  unfold Obligations.StepReloadsFromCurrentTable
  intro s t h
  rcases step_cases s with
    ⟨-, hstep⟩ | ⟨-, ⟨-, -, hstep⟩ | ⟨w, -, -, hstep⟩ | ⟨ev, rest, -, -, hstep⟩⟩ <;> rw [hstep] at h
  · exact .inl (by rw [← Host.Outcome.next.inj h])
  · exact .inl (by rw [← Host.Outcome.next.inj h])
  · exact .inl (walkStep_entryMove h).1.pdpte
  · exact runEvent_keptOrTable (s := { s with events := rest }) h

end Sys2Proof.Machine
end

section
/-! PROOF. Encoding: the decoder and the encoder are inverses of each other at every place (30_encoding.md R55 to
R64, R68, R74 to R76). -/

namespace Sys2Proof

/-! ## Rows of the structure entries (R74) -/

section
variable {e : Quad}

theorem decodePdpte_present (h : e.getLsbD 0 = true) : decodePdpte e = .pdpte e := if_pos h

theorem decodePdpte_notPresent (h : e.getLsbD 0 = false) : decodePdpte e = .pdpteNotPresent e := by
  rw [decodePdpte, h]; rfl

theorem decodePde_notPresent (h : e.getLsbD 0 = false) : decodePde e = .pdeNotPresent e := by
  rw [decodePde, h]; rfl

theorem decodePde_page (h : e.getLsbD 0 = true) (hps : e.getLsbD 7 = true) : decodePde e = .pde2M e := by
  rw [decodePde, h, hps]; rfl

theorem decodePde_table (h : e.getLsbD 0 = true) (hps : e.getLsbD 7 = false) : decodePde e = .pdePT e := by
  rw [decodePde, h, hps]; rfl

theorem decodePte_present (h : e.getLsbD 0 = true) : decodePte e = .pte4K e := if_pos h

theorem decodePte_notPresent (h : e.getLsbD 0 = false) : decodePte e = .pteNotPresent e := by
  rw [decodePte, h]; rfl

/-- A bit inside the mask is that of the match. -/
theorem getLsbD_of_and_eq {mask m : Quad} (h : e &&& mask = m) (j : Nat) (hj : mask.getLsbD j = true) :
    e.getLsbD j = m.getLsbD j := by
  rw [← h, BitVec.getLsbD_and, hj, Bool.and_true]

end

/-- Settles O59: a mask and its match say what P, and PS in a page directory, are. -/
theorem entryDecoderMasks : Obligations.EntryDecoderMasks := by
  unfold Obligations.EntryDecoderMasks
  intro e
  refine ⟨fun h => decodePdpte_notPresent ?_, fun h => decodePdpte_present ?_, fun h => decodePde_notPresent ?_,
    fun h => decodePde_page ?_ ?_, fun h => decodePde_table ?_ ?_, fun h => decodePte_notPresent ?_,
    fun h => decodePte_present ?_⟩ <;>
    exact getLsbD_of_and_eq h _ (by decide)

/-- The row of an entry at `p` is well-formed, is read there, and is encoded as the entry's own eight bytes. -/
def RowOfEntry (p : Place) (f : Quad → Instr) : Prop :=
  ∀ e, (f e).wf = true ∧ (f e).place = some p ∧ encode (f e) = some (leBytes 8 e.toNat)

theorem rowOfEntry_decodePdpte : RowOfEntry .pdpteRegister decodePdpte := by
  intro e
  cases h : e.getLsbD 0 with
  | false => rw [decodePdpte_notPresent h]; exact ⟨by rw [Instr.wf, h]; rfl, rfl, rfl⟩
  | true => rw [decodePdpte_present h]; exact ⟨h, rfl, rfl⟩

theorem rowOfEntry_decodePde : RowOfEntry .pageDirectory decodePde := by
  intro e
  cases h : e.getLsbD 0 with
  | false => rw [decodePde_notPresent h]; exact ⟨by rw [Instr.wf, h]; rfl, rfl, rfl⟩
  | true =>
    cases hps : e.getLsbD 7 with
    | false => rw [decodePde_table h hps]; exact ⟨by rw [Instr.wf, h, hps]; rfl, rfl, rfl⟩
    | true => rw [decodePde_page h hps]; exact ⟨by rw [Instr.wf, h, hps]; rfl, rfl, rfl⟩

theorem rowOfEntry_decodePte : RowOfEntry .pageTable decodePte := by
  intro e
  cases h : e.getLsbD 0 with
  | false => rw [decodePte_notPresent h]; exact ⟨by rw [Instr.wf, h]; rfl, rfl, rfl⟩
  | true => rw [decodePte_present h]; exact ⟨h, rfl, rfl⟩

/-! ## Bytes of entries and of 4-byte values (R41, R55) -/

section
variable (bs rest : List Byte)

theorem decodeQuad_leBytes_append (f : Quad → Instr) (e : Quad) :
    decodeQuad f (leBytes 8 e.toNat ++ rest) = .ok (f e) rest := by
  have hlen := length_leBytes 8 e.toNat
  simp [decodeQuad, List.take_left' hlen, List.drop_left' hlen, hlen, ofNat_leNat_leBytes_quad]

theorem decodeWord_leBytes_append (f : Word → Instr) (v : Word) :
    decodeWord f (leBytes 4 v.toNat ++ rest) = .ok (f v) rest := by
  have hlen := length_leBytes 4 v.toNat
  simp [decodeWord, List.take_left' hlen, List.drop_left' hlen, hlen, ofNat_leNat_leBytes_word]

/-- The first `n` bytes are the encoding of the number they spell, held in a word of `8n` bits. -/
theorem leBytes_ofNat_leNat_take {n : Nat} (h : n ≤ bs.length) :
    leBytes n (BitVec.ofNat (8 * n) (leNat (bs.take n))).toNat ++ bs.drop n = bs := by
  have hlen : (bs.take n).length = n := List.length_take_of_le h
  have hlt : leNat (bs.take n) < 2 ^ (8 * n) := by
    have := leNat_lt (bs.take n)
    rwa [hlen, show (256 : Nat) = 2 ^ 8 from rfl, ← Nat.pow_mul] at this
  have hbytes := leBytes_leNat (bs.take n)
  rw [hlen] at hbytes
  rw [BitVec.toNat_ofNat, Nat.mod_eq_of_lt hlt, hbytes, List.take_append_drop]

variable {bs rest}

theorem decodeQuad_eq_ok {f : Quad → Instr} {i : Instr} (h : decodeQuad f bs = .ok i rest) :
    ∃ e, i = f e ∧ bs = leBytes 8 e.toNat ++ rest := by
  unfold decodeQuad at h
  split at h
  · cases h
  · next hlen =>
    cases h
    exact ⟨_, rfl, (leBytes_ofNat_leNat_take bs (Nat.le_of_not_lt hlen)).symm⟩

theorem decodeWord_eq_ok {f : Word → Instr} {i : Instr} (h : decodeWord f bs = .ok i rest) :
    ∃ v, i = f v ∧ bs = leBytes 4 v.toNat ++ rest := by
  unfold decodeWord at h
  split at h
  · cases h
  · next hlen =>
    cases h
    exact ⟨_, rfl, (leBytes_ofNat_leNat_take bs (Nat.le_of_not_lt hlen)).symm⟩

theorem decodeQuad_ne_movToCR2 {f : Quad → Instr} {r : Reg} : decodeQuad f bs ≠ .movToCR2 r rest := by
  unfold decodeQuad
  split <;> nofun

theorem decodeWord_ne_movToCR2 {f : Word → Instr} {r : Reg} : decodeWord f bs ≠ .movToCR2 r rest := by
  unfold decodeWord
  split <;> nofun

end

/-! ## The modrm byte (R75, R76; log 28) -/

@[simp] theorem ofBits_extractLsb'_modrm (crn : BitVec 3) (r : Reg) :
    Reg.ofBits ((modrm crn r).extractLsb' 0 3) = r := by
  rw [modrm, BitVec.extractLsb'_append_eq_right, Reg.ofBits_toBits]

@[simp] theorem extractLsb'_modrm_number (crn : BitVec 3) (r : Reg) : (modrm crn r).extractLsb' 3 3 = crn := by
  cases r <;> revert crn <;> decide

/-- The encoder's modrm byte of the fields of `m` is `m` with the ignored mod bits 11. -/
theorem modrm_extractLsb' (m : Byte) :
    modrm (m.extractLsb' 3 3) (Reg.ofBits (m.extractLsb' 0 3)) = m ||| 0xC0 := by
  rw [modrm, Reg.toBits_ofBits]
  revert m
  decide

theorem modrm_of_number {m : Byte} (n : BitVec 3) (h : (m.extractLsb' 3 3).toNat = n.toNat) :
    modrm n (Reg.ofBits (m.extractLsb' 0 3)) = m ||| 0xC0 := by
  rw [← BitVec.eq_of_toNat_eq h, modrm_extractLsb']

/-! ## Machine code (R75, R76) -/

section
variable {bs rest rest' : List Byte} {m : Byte} {i : Instr} {r : Reg}

/-- What the decoder reads from `0F op m` is well-formed machine code, encoded as these bytes with mod = 11. -/
def ReadsMove (op m : Byte) (i : Instr) : Prop :=
  i.wf = true ∧ i.place = some .code ∧ encode i = some [0x0F, op, m ||| 0xC0]

theorem decodeMovTo_eq_ok (h : decodeMovTo m rest' = .ok i rest) : rest' = rest ∧ ReadsMove 0x22 m i := by
  unfold decodeMovTo at h
  dsimp only at h
  split at h
  · next hn => cases h; exact ⟨rfl, rfl, rfl, by rw [encode, modrm_of_number 0 hn]⟩
  · cases h
  · next hn => cases h; exact ⟨rfl, rfl, rfl, by rw [encode, modrm_of_number 3 hn]⟩
  · next hn => cases h; exact ⟨rfl, rfl, rfl, by rw [encode, modrm_of_number 4 hn]⟩
  · cases h

theorem decodeMovFrom_eq_ok (h : decodeMovFrom m rest' = .ok i rest) : rest' = rest ∧ ReadsMove 0x20 m i := by
  unfold decodeMovFrom at h
  dsimp only at h
  split at h
  · next hn => cases h; exact ⟨rfl, rfl, rfl, by rw [encode, modrm_of_number 0 hn]⟩
  · next hn => cases h; exact ⟨rfl, rfl, rfl, by rw [encode, modrm_of_number 2 hn]⟩
  · next hn => cases h; exact ⟨rfl, rfl, rfl, by rw [encode, modrm_of_number 3 hn]⟩
  · next hn => cases h; exact ⟨rfl, rfl, rfl, by rw [encode, modrm_of_number 4 hn]⟩
  · cases h

theorem decodeMovTo_eq_movToCR2 (h : decodeMovTo m rest' = .movToCR2 r rest) :
    rest' = rest ∧ encodeMovToCR2 r = [0x0F, 0x22, m ||| 0xC0] := by
  unfold decodeMovTo at h
  dsimp only at h
  split at h
  · cases h
  · next hn => cases h; exact ⟨rfl, by rw [encodeMovToCR2, modrm_of_number 2 hn]⟩
  · cases h
  · cases h
  · cases h

theorem decodeMovFrom_ne_movToCR2 : decodeMovFrom m rest' ≠ .movToCR2 r rest := by
  unfold decodeMovFrom
  dsimp only
  split <;> nofun

/-- Machine code that is not rejected is a move to or from a control register. -/
theorem decodeCode_cases (bs : List Byte) :
    (∃ m rest, bs = 0x0F :: 0x22 :: m :: rest ∧ decodeCode bs = decodeMovTo m rest) ∨
    (∃ m rest, bs = 0x0F :: 0x20 :: m :: rest ∧ decodeCode bs = decodeMovFrom m rest) ∨
    ∃ e, decodeCode bs = .rejected e := by
  unfold decodeCode
  split
  · next m rest =>
    split_ifs with h22 h20
    · obtain ⟨rfl, rfl⟩ := h22
      exact .inl ⟨m, rest, rfl, rfl⟩
    · obtain ⟨rfl, rfl⟩ := h20
      exact .inr (.inl ⟨m, rest, rfl, rfl⟩)
    · exact .inr (.inr ⟨_, rfl⟩)
  · exact .inr (.inr ⟨_, rfl⟩)

theorem decodeCode_eq_ok (h : decodeCode bs = .ok i rest) :
    ∃ op m, bs = 0x0F :: op :: m :: rest ∧ ReadsMove op m i := by
  rcases decodeCode_cases bs with ⟨m, rest', rfl, hd⟩ | ⟨m, rest', rfl, hd⟩ | ⟨e, hd⟩
  · obtain ⟨rfl, hi⟩ := decodeMovTo_eq_ok (hd.symm.trans h)
    exact ⟨_, m, rfl, hi⟩
  · obtain ⟨rfl, hi⟩ := decodeMovFrom_eq_ok (hd.symm.trans h)
    exact ⟨_, m, rfl, hi⟩
  · cases hd.symm.trans h

theorem decodeCode_eq_movToCR2 (h : decodeCode bs = .movToCR2 r rest) :
    ∃ m, bs = 0x0F :: 0x22 :: m :: rest ∧ encodeMovToCR2 r = [0x0F, 0x22, m ||| 0xC0] := by
  rcases decodeCode_cases bs with ⟨m, rest', rfl, hd⟩ | ⟨m, rest', rfl, hd⟩ | ⟨e, hd⟩
  · obtain ⟨rfl, hr⟩ := decodeMovTo_eq_movToCR2 (hd.symm.trans h)
    exact ⟨m, rfl, hr⟩
  · exact absurd (hd.symm.trans h) decodeMovFrom_ne_movToCR2
  · cases hd.symm.trans h

end

/-! ## Decoding an encoding -/

section
variable {i : Instr} {bs : List Byte} (rest : List Byte)

theorem decode_encode (hw : i.wf = true) (he : encode i = some bs) :
    ∃ p, i.place = some p ∧ decode p (bs ++ rest) = .ok i rest := by
  cases i with
  | pdpteNotPresent e =>
    cases he
    exact ⟨_, rfl, by rw [decode, decodeQuad_leBytes_append, decodePdpte_notPresent ((Bool.not_eq_true' _).mp hw)]⟩
  | pdpte e => cases he; exact ⟨_, rfl, by rw [decode, decodeQuad_leBytes_append, decodePdpte_present hw]⟩
  | pdeNotPresent e =>
    cases he
    exact ⟨_, rfl, by rw [decode, decodeQuad_leBytes_append, decodePde_notPresent ((Bool.not_eq_true' _).mp hw)]⟩
  | pde2M e =>
    cases he
    obtain ⟨hp, hps⟩ := Bool.and_eq_true_iff.mp hw
    exact ⟨_, rfl, by rw [decode, decodeQuad_leBytes_append, decodePde_page hp hps]⟩
  | pdePT e =>
    cases he
    obtain ⟨hp, hps⟩ := Bool.and_eq_true_iff.mp hw
    exact ⟨_, rfl, by rw [decode, decodeQuad_leBytes_append, decodePde_table hp ((Bool.not_eq_true' _).mp hps)]⟩
  | pteNotPresent e =>
    cases he
    exact ⟨_, rfl, by rw [decode, decodeQuad_leBytes_append, decodePte_notPresent ((Bool.not_eq_true' _).mp hw)]⟩
  | pte4K e => cases he; exact ⟨_, rfl, by rw [decode, decodeQuad_leBytes_append, decodePte_present hw]⟩
  | linearAddress4K la => cases he; exact ⟨_, rfl, decodeWord_leBytes_append rest _ la⟩
  | linearAddress2M la => cases he; exact ⟨_, rfl, decodeWord_leBytes_append rest _ la⟩
  | cr3Pae v => cases he; exact ⟨_, rfl, decodeWord_leBytes_append rest _ v⟩
  | movToCR0 src =>
    cases src with
    | reg r => cases he; exact ⟨_, rfl, by simp [decode, decodeCode, decodeMovTo]⟩
    | value v => cases he
  | movToCR3 src =>
    cases src with
    | reg r => cases he; exact ⟨_, rfl, by simp [decode, decodeCode, decodeMovTo]⟩
    | value v => cases he
  | movToCR4 src =>
    cases src with
    | reg r => cases he; exact ⟨_, rfl, by simp [decode, decodeCode, decodeMovTo]⟩
    | value v => cases he
  | movFromCR0 r => cases he; exact ⟨_, rfl, by simp [decode, decodeCode, decodeMovFrom]⟩
  | movFromCR2 r => cases he; exact ⟨_, rfl, by simp [decode, decodeCode, decodeMovFrom]⟩
  | movFromCR3 r => cases he; exact ⟨_, rfl, by simp [decode, decodeCode, decodeMovFrom]⟩
  | movFromCR4 r => cases he; exact ⟨_, rfl, by simp [decode, decodeCode, decodeMovFrom]⟩
  | loadPDPTEs | taskSwitchCR3 | translate | linRead | linWrite | linFetch | setEFER | setAC => cases he

theorem decode_encodeMovToCR2 (r : Reg) : decode .code (encodeMovToCR2 r ++ rest) = .movToCR2 r rest := by
  simp [decode, decodeCode, decodeMovTo, encodeMovToCR2]

end

/-- Settles O57: row by row, each decoded by its match bits at its own place. -/
theorem decodeEncodeRoundTrip : Obligations.DecodeEncodeRoundTrip := by
  unfold Obligations.DecodeEncodeRoundTrip
  exact ⟨fun _ _ rest hw he => decode_encode rest hw he, fun r rest => decode_encodeMovToCR2 rest r⟩

/-! ## Encoding what was decoded -/

/-- The instruction read at `p`, not machine code, is well-formed, and the bytes read are its encoding. -/
def ReadsOwnBytes (p : Place) (bs rest : List Byte) (i : Instr) : Prop :=
  i.wf = true ∧ i.place = some p ∧ ∃ own, encode i = some own ∧ bs = own ++ rest

section
variable {p : Place} {bs rest : List Byte} {i : Instr} {r : Reg}

theorem readsOwnBytes_of_decodeQuad {f : Quad → Instr} (hf : RowOfEntry p f) (h : decodeQuad f bs = .ok i rest) :
    ReadsOwnBytes p bs rest i := by
  obtain ⟨e, rfl, hbs⟩ := decodeQuad_eq_ok h
  obtain ⟨hw, hp, he⟩ := hf e
  exact ⟨hw, hp, _, he, hbs⟩

theorem readsOwnBytes_of_decode (hp : p ≠ .code) (h : decode p bs = .ok i rest) : ReadsOwnBytes p bs rest i := by
  cases p with
  | code => exact absurd rfl hp
  | pdpteRegister => exact readsOwnBytes_of_decodeQuad rowOfEntry_decodePdpte h
  | pageDirectory => exact readsOwnBytes_of_decodeQuad rowOfEntry_decodePde h
  | pageTable => exact readsOwnBytes_of_decodeQuad rowOfEntry_decodePte h
  | linearAddress4K =>
    obtain ⟨v, rfl, hbs⟩ := decodeWord_eq_ok h
    exact ⟨rfl, rfl, _, rfl, hbs⟩
  | linearAddress2M =>
    obtain ⟨v, rfl, hbs⟩ := decodeWord_eq_ok h
    exact ⟨rfl, rfl, _, rfl, hbs⟩
  | cr3 =>
    obtain ⟨v, rfl, hbs⟩ := decodeWord_eq_ok h
    exact ⟨rfl, rfl, _, rfl, hbs⟩

/-- Only machine code spells `MOV CR2, r32` (log 27). -/
theorem place_of_decode_movToCR2 (h : decode p bs = .movToCR2 r rest) : p = .code := by
  cases p with
  | code => rfl
  | pdpteRegister | pageDirectory | pageTable => exact absurd h decodeQuad_ne_movToCR2
  | linearAddress4K | linearAddress2M | cr3 => exact absurd h decodeWord_ne_movToCR2

end

/-- Settles O58: in machine code by the modrm byte, elsewhere by the bytes of the value read. -/
theorem decodedBytesAreTheEncoding : Obligations.DecodedBytesAreTheEncoding := by
  unfold Obligations.DecodedBytesAreTheEncoding
  refine ⟨fun p bs rest i h => ?_, fun p bs rest r h => ?_⟩
  · by_cases hp : p = .code
    · subst hp
      obtain ⟨op, m, hbs, hw, hplace, he⟩ := decodeCode_eq_ok h
      exact ⟨hw, hplace, fun hne => absurd rfl hne, fun _ => ⟨_, _, _, m, he, hbs, rfl⟩⟩
    · obtain ⟨hw, hplace, hown⟩ := readsOwnBytes_of_decode hp h
      exact ⟨hw, hplace, fun _ => hown, fun hc => absurd hc hp⟩
  · obtain rfl := place_of_decode_movToCR2 h
    obtain ⟨m, hbs, he⟩ := decodeCode_eq_movToCR2 h
    exact ⟨rfl, _, _, _, m, he, hbs, rfl⟩

/-- Settles O60: the words evaluated. -/
theorem sampleWordsDecode : Obligations.SampleWordsDecode := by
  unfold Obligations.SampleWordsDecode
  decide

end Sys2Proof
end

section
/-! PROOF. Addresses: the fields of a linear address and of CR3, and the addresses assembled from them, bit by bit
(30_encoding.md R56, R57, R59, R69 to R73). -/

namespace Sys2Proof.Machine

/-! ## Formats (R56, R57, R59; log 11) -/

/-- Settles O6: adjacent fields make one, down to bit 0. -/
theorem linearAddressFields : Obligations.LinearAddressFields := by
  unfold Obligations.LinearAddressFields
  refine fun s la => ⟨⟨_, _, _, _, rfl, ?_⟩, ⟨_, _, _, rfl, ?_⟩⟩
  · rw [laPdpteIndex, laPdeIndex, laPteIndex, laOffset4K,
      BitVec.extractLsb'_append_extractLsb'_eq_extractLsb' (show 30 = 21 + 9 from rfl),
      BitVec.extractLsb'_append_extractLsb'_eq_extractLsb' (show 21 = 12 + 9 from rfl),
      BitVec.extractLsb'_append_extractLsb'_eq_extractLsb' (show 12 = 0 + 12 from rfl)]
    exact BitVec.extractLsb'_eq_self
  · rw [laPdpteIndex, laPdeIndex, laOffset2M,
      BitVec.extractLsb'_append_extractLsb'_eq_extractLsb' (show 30 = 21 + 9 from rfl),
      BitVec.extractLsb'_append_extractLsb'_eq_extractLsb' (show 21 = 0 + 21 from rfl)]
    exact BitVec.extractLsb'_eq_self

/-- Bits 31:5 at their place are the value with bits 4:0 cleared. -/
theorem extractLsb'_append_zero (v : Word) : v.extractLsb' 5 27 ++ (0 : BitVec 5) = v &&& 0xFFFFFFE0 := by
  refine BitVec.eq_of_getLsbD_eq fun j hj => ?_
  have hmask : ∀ j, j < 32 → (0xFFFFFFE0 : Word).getLsbD j = decide (5 ≤ j) := by decide
  rw [BitVec.getLsbD_and, hmask j hj, BitVec.getLsbD_append, BitVec.getLsbD_extractLsb']
  by_cases h : j < 5
  · simp [h, show ¬ 5 ≤ j by omega]
  · simp [h, show 5 ≤ j by omega, show j - 5 < 27 by omega, show 5 + (j - 5) = j by omega]

/-- Settles O7: the base handed over is the masked value. -/
theorem cr3NamesTableBase : Obligations.Cr3NamesTableBase := by
  unfold Obligations.Cr3NamesTableBase
  intro s v
  rw [extractLsb'_append_zero]
  exact ⟨rfl, rfl⟩

/-! ## Addresses of entries (R69 to R71) -/

/-- The two ends of the address of a PDPTE: the base is a multiple of 32, and `8i` is below 32. -/
theorem pdpteAddr_eq_append (cr3 : Word) (i : BitVec 2) :
    pdpteAddr cr3 i.toNat = (cr3.extractLsb' 5 27 ++ i ++ (0 : BitVec 3)).setWidth 64 := by
  have hbase : (cr3 &&& 0xFFFFFFE0).toNat = 32 * (cr3.extractLsb' 5 27).toNat := by
    rw [← extractLsb'_append_zero, BitVec.toNat_append, Nat.shiftLeft_eq, Nat.mul_comm]
    exact Nat.or_zero _
  have hfields : (cr3.extractLsb' 5 27 ++ i ++ (0 : BitVec 3)).toNat =
      ((cr3.extractLsb' 5 27).toNat * 4 + i.toNat) * 8 + 0 := by
    rw [BitVec.toNat_append, BitVec.toNat_append, ← Nat.shiftLeft_add_eq_or_of_lt i.isLt,
      ← Nat.shiftLeft_add_eq_or_of_lt (BitVec.isLt _), Nat.shiftLeft_eq, Nat.shiftLeft_eq]
    rfl
  refine BitVec.eq_of_toNat_eq ?_
  rw [pdpteAddr_toNat cr3 i.isLt, hbase, BitVec.toNat_setWidth_of_le (by decide), hfields]
  omega

section
variable (c : Config) (e : Quad) (la : Word) (j : Nat)

/-- A table's address with the index of an entry from bit `lo` of the linear address: bit `j` of the address. -/
theorem getLsbD_entryBase4K_or_index (lo : Nat) :
    (entryBase4K c e ||| ((la.extractLsb' lo 9).setWidth 64 <<< 3)).getLsbD j =
      (if j < 3 then false else if j < 12 then la.getLsbD (lo + (j - 3))
       else decide (j < c.maxPhyAddr) && e.getLsbD j) := by
  rw [BitVec.getLsbD_or, getLsbD_entryBase4K, getLsbD_entryIndex, BitVec.getLsbD_extractLsb']
  split_ifs with h3 h12
  · simp [h3, show ¬ 12 ≤ j by omega]
  · simp [show 3 ≤ j by omega, show j - 3 < 9 by omega, show ¬ 12 ≤ j by omega]
  · simp [show 12 ≤ j by omega, show ¬ j - 3 < 9 by omega]

/-- An entry masked with `AddrMask12` (R70) is the address of the table it names. -/
theorem and_addrMask12 :
    e &&& (BitVec.ofNat 64 (2 ^ c.maxPhyAddr - 1) &&& ~~~(0xFFF : Quad)) = entryBase4K c e := by
  refine BitVec.eq_of_getLsbD_eq fun j hj => ?_
  have hmask : ∀ j, j < 64 → (~~~(0xFFF : Quad)).getLsbD j = decide (12 ≤ j) := by decide
  rw [BitVec.getLsbD_and, BitVec.getLsbD_and, hmask j hj, BitVec.getLsbD_ofNat, Nat.testBit_two_pow_sub_one,
    getLsbD_entryBase4K, decide_eq_true hj, Bool.true_and, Bool.and_comm, Bool.and_comm (decide (12 ≤ j))]

/-- An index at its place lies below a table's address: to set its bits is to add 8 times it. -/
theorem entryBase4K_or_index (x : BitVec 9) :
    entryBase4K c e ||| (x.setWidth 64 <<< 3) =
      (e &&& (BitVec.ofNat 64 (2 ^ c.maxPhyAddr - 1) &&& ~~~(0xFFF : Quad))) + 8 * x.setWidth 64 := by
  have hmul : (8 : Quad) * x.setWidth 64 = x.setWidth 64 <<< 3 := by
    rw [BitVec.shiftLeft_eq_mul_twoPow, BitVec.mul_comm]
    rfl
  rw [and_addrMask12, hmul, BitVec.add_eq_or_of_and_eq_zero]
  refine BitVec.eq_of_getLsbD_eq fun j _ => ?_
  rw [BitVec.getLsbD_and, getLsbD_entryBase4K, getLsbD_entryIndex]
  by_cases h : 12 ≤ j
  · rw [BitVec.getLsbD_of_ge x _ (by omega)]
    simp
  · simp [h]

theorem getLsbD_pdeAddr : (pdeAddr c e la).getLsbD j =
    (if j < 3 then false else if j < 12 then la.getLsbD (j + 18)
     else decide (j < c.maxPhyAddr) && e.getLsbD j) := by
  rw [pdeAddr, laPdeIndex, getLsbD_entryBase4K_or_index]
  split_ifs with h3
  · rfl
  · rw [show 21 + (j - 3) = j + 18 by omega]
  · rfl

theorem getLsbD_pteAddr : (pteAddr c e la).getLsbD j =
    (if j < 3 then false else if j < 12 then la.getLsbD (j + 9)
     else decide (j < c.maxPhyAddr) && e.getLsbD j) := by
  rw [pteAddr, laPteIndex, getLsbD_entryBase4K_or_index]
  split_ifs with h3
  · rfl
  · rw [show 12 + (j - 3) = j + 9 by omega]
  · rfl

end

/-- Settles O8: the parts of an address do not overlap. -/
theorem entryAddressAssembly : Obligations.EntryAddressAssembly := by
  unfold Obligations.EntryAddressAssembly
  refine ⟨fun cr3 i => ⟨pdpteAddr_eq_append cr3 i, ?_⟩, fun c e la j =>
    ⟨getLsbD_pdeAddr c e la j, getLsbD_pteAddr c e la j, entryBase4K_or_index c e _, entryBase4K_or_index c e _⟩⟩
  rw [pdpteAddr_toNat cr3 i.isLt, pdptBase_toNat]

/-! ## Addresses through a page (R72, R73) -/

section
variable (c : Config) (e : Quad) (la : Word) (j : Nat)

/-- A field of an entry, back at its place, holds the entry's bits there and no other. -/
theorem getLsbD_slice_shiftLeft {hi lo : Nat} (h : lo ≤ hi) (hhi : hi < 64) :
    (slice hi lo e <<< lo).getLsbD j = (decide (lo ≤ j) && decide (j ≤ hi) && e.getLsbD j) := by
  rw [BitVec.getLsbD_shiftLeft, getLsbD_slice _ _ _ _ h]
  by_cases hj : lo ≤ j
  · rw [Nat.sub_add_cancel hj]
    by_cases hj' : j ≤ hi
    · simp [hj, hj', show j < 64 by omega, show ¬ j < lo by omega]
    · simp [hj']
  · simp [hj, show j < lo by omega]

/-- The offset of `n` bits fills a page's address, whose low `n` bits are 0. -/
theorem getLsbD_pageBase_or_offset {n : Nat} (hn : n < 36) :
    (slice (c.maxPhyAddr - 1) n e <<< n ||| (la.extractLsb' 0 n).setWidth 64).getLsbD j =
      (if j < n then la.getLsbD j else decide (j < c.maxPhyAddr) && e.getLsbD j) := by
  obtain ⟨hM, hM'⟩ := maxPhyAddr_bounds c
  rw [BitVec.getLsbD_or, getLsbD_slice_shiftLeft _ _ (by omega) (by omega), BitVec.getLsbD_setWidth,
    BitVec.getLsbD_extractLsb', Nat.zero_add]
  split_ifs with h
  · simp [h, show ¬ n ≤ j by omega, show j < 64 by omega]
  · simp [h, show n ≤ j by omega, show j ≤ c.maxPhyAddr - 1 ↔ j < c.maxPhyAddr by omega]

end

/-- Settles O9: both page sizes are one assembly, with 12 and with 21 bits of offset. -/
theorem pageAddressAssembly : Obligations.PageAddressAssembly := by
  unfold Obligations.PageAddressAssembly
  exact fun c e la j =>
    ⟨getLsbD_pageBase_or_offset c e la j (by decide), getLsbD_pageBase_or_offset c e la j (by decide)⟩

end Sys2Proof.Machine
end

section
/-! PROOF. ReservedBits: the reserved bits of the entries bit by bit (30_encoding.md R60, R65; 40_pdpte_registers.md
R81). -/

namespace Sys2Proof.Machine

variable (c : Config) (e : Quad)

theorem pdpteReserved_iff : pdpteReserved c e = true ↔
    (∃ j, 1 ≤ j ∧ j ≤ 2 ∧ e.getLsbD j = true) ∨ (∃ j, 5 ≤ j ∧ j ≤ 8 ∧ e.getLsbD j = true) ∨
    (∃ j, c.maxPhyAddr ≤ j ∧ j ≤ 63 ∧ e.getLsbD j = true) := by
  have hM := maxPhyAddr_bounds c
  simp only [pdpteReserved, Bool.or_eq_true, decide_eq_true_eq, slice_ne_zero_iff 2 1 e (by omega),
    slice_ne_zero_iff 8 5 e (by omega), slice_ne_zero_iff 63 c.maxPhyAddr e (by omega), or_assoc]

theorem highReserved_iff :
    highReserved c e = true ↔ ∃ j, c.maxPhyAddr ≤ j ∧ j ≤ 62 ∧ e.getLsbD j = true := by
  have hM := maxPhyAddr_bounds c
  rw [highReserved, decide_eq_true_iff, slice_ne_zero_iff _ _ _ (by omega)]

/-- Settles O13: a bit that is not 0 in a field of the entry, and P or the parameter. -/
theorem badPdpteBits : Obligations.BadPdpteBits := by
  unfold Obligations.BadPdpteBits
  intro c e
  rw [pdpteBad, Bool.and_eq_true, pdpteReserved_iff, Bool.or_eq_true]
  rfl

/-- Settles O12: the three rows share bits 62:M and XD. -/
theorem reservedBitsOfEntries : Obligations.ReservedBitsOfEntries := by
  unfold Obligations.ReservedBitsOfEntries
  intro c nxe e
  refine ⟨?_, ?_, ?_⟩
  · simp only [rsvdPde2M, Bool.or_eq_true, Bool.and_eq_true, Bool.not_eq_true', decide_eq_true_eq, highReserved_iff,
      slice_ne_zero_iff 20 13 e (by omega), entryXD, pde2mPAT, or_assoc]
  · simp only [rsvdPdePT, Bool.or_eq_true, Bool.and_eq_true, Bool.not_eq_true', highReserved_iff, entryXD]
  · simp only [rsvdPte, Bool.or_eq_true, Bool.and_eq_true, Bool.not_eq_true', highReserved_iff, entryXD, ptePAT,
      or_assoc]

end Sys2Proof.Machine
end

section
/-! PROOF. Levels: the control-register moves at privilege level 0 and outside it (30_encoding.md R75, R76;
40_pdpte_registers.md R87; 60_exceptions.md R122). -/

namespace Sys2Proof.Machine

open Sys2Proof.Safety

variable {s : State}

theorem privileged_of_cpl_ne_zero (h : s.cpl ≠ 0) (act : State → Host.Outcome State Fault Refusal) :
    privileged s act = .next (generalProtected s) := if_neg h

/-- Settles O21: each of them is privileged. -/
theorem movesNeedPrivilegeLevelZero : Obligations.MovesNeedPrivilegeLevelZero := by
  unfold Obligations.MovesNeedPrivilegeLevelZero
  intro s src r v h
  have hgp := privileged_of_cpl_ne_zero h
  exact ⟨hgp _, hgp _, hgp _, hgp _, hgp _, hgp _, hgp _, hgp _, hgp _⟩

/-- A privileged copy of a value to a general register, at level 0. -/
theorem privileged_moveToGpr (h : s.cpl = 0) (r : Reg) (v : Word) :
    ∃ g : Gprs, privileged s (moveToGpr r v) = .next { s with gpr := g, answer := .done } ∧
      g.read r = v ∧ ∀ q, q ≠ r → g.read q = s.gpr.read q :=
  ⟨s.gpr.write r v, privileged_eq h, Gprs.read_write_same _ r v, fun _ hq => Gprs.read_write_other _ v hq⟩

/-- Settles O20: the four moves from a control register are one copy. -/
theorem movFromCopiesControlRegister : Obligations.MovFromCopiesControlRegister := by
  unfold Obligations.MovFromCopiesControlRegister
  intro s r h
  have hcopy := privileged_moveToGpr h r
  exact ⟨hcopy s.cr0, hcopy s.cr2, hcopy s.cr3, hcopy s.cr4, privileged_eq h⟩

end Sys2Proof.Machine
end

section
/-! PROOF. EntryFlags: the flags a translation leaves in the entries it has read (41_translation.md R104, R105). -/

namespace Sys2Proof.Machine

variable {s t : State} {la : Word} {kind : AccessKind} {mode : AccessMode} {p e : Quad} {tr : Translation}

theorem withAD_write (kind : AccessKind) (e : Quad) :
    withAD (decide (kind = .write)) e = e ||| 0x20 ||| (if kind = .write then 0x40 else 0) := by
  simp only [withAD, decide_eq_true_eq]

theorem withAD_false (e : Quad) : withAD false e = e ||| 0x20 := BitVec.or_zero

/-- The page-directory entry, where the page-table entry is another one, has A set alone. -/
theorem readQuad_setAD_setAD_apart {m : Memory} (hm : m.wf = true) {a b : Nat} (ha : a % 8 = 0) (hb : b % 8 = 0)
    (hab : a ≠ b) (d : Bool) : ((m.setAD a false).setAD b d).readQuad a = withAD false (m.readQuad a) := by
  rw [readQuad_setAD_aligned (Memory.wf_setAD hm a false) hb ha, if_neg hab, Memory.readQuad_setAD_same hm]

/-- Settles O29: a translation that is done with a page has set flags at the end of its walk. -/
theorem accessedAndDirtyFlagsSet : Obligations.AccessedAndDirtyFlagsSet := by
  unfold Obligations.AccessedAndDirtyFlagsSet
  intro s t la kind mode tr p hm hpae hp h ha
  obtain ⟨u, hd, rfl⟩ := execTranslate_eq_translation h ha
  rcases translate_eq_done hd with ⟨hpg, -, -⟩ | ⟨-, -, -, p', hp', -, e, he, -, hend⟩
  · rw [cr0PG_of_paeInUse hpae] at hpg
    cases hpg
  · obtain rfl : p' = p := Option.some.inj (hp'.symm.trans hp)
    obtain ⟨-, rfl⟩ := readEntry_eq_some he
    have h8 := pdeAddr_aligned s.cfg p' la
    rcases hend with ⟨-, -, -, rfl, rfl⟩ | ⟨q, -, -, hq, -, -, -, rfl, rfl⟩
    · refine ⟨fun a _ _ => ?_, fun a hpage hsize => ?_⟩
      · rw [← withAD_write]
        exact Memory.readQuad_setAD_same hm _ _
      · cases hpage
        cases hsize
    · refine ⟨fun a hpage hsize => ?_, fun a _ _ => ⟨?_, fun hne => ?_⟩⟩
      · cases hpage
        cases hsize
      · rw [← withAD_write]
        exact readQuad_setAD_setAD_last hm h8 (pteAddr_aligned _ _ _) _
      · rw [← withAD_false]
        exact readQuad_setAD_setAD_apart hm h8 (pteAddr_aligned _ _ _) (fun hc => hne (BitVec.eq_of_toNat_eq hc)) _

end Sys2Proof.Machine
end

section
/-! PROOF. Loads: the operations that load the PDPTE registers, each with its next state from conditions on the state
alone (40_pdpte_registers.md R80 to R85). -/

namespace Sys2Proof.Machine

open Sys2Proof.Safety

variable {s old new : State} {src : Source} {v : Word}

/-! ## The end of a move (R82 to R84) -/

theorem finishMove_good (hr : tableInRam new new.cr3 = true) (hb : tableBad new new.cr3 = false) :
    finishMove old new true = .next { new with pdpte := tableRegisters new new.cr3, answer := .done } := by
  simp [finishMove, loadPdptes_eq, hr, hb]

theorem finishMove_bad (hr : tableInRam new new.cr3 = true) (hb : tableBad new new.cr3 = true) :
    finishMove old new true = .next (generalProtected old) := by
  simp only [finishMove, loadPdptes_eq, hr, hb, if_true]
  rfl

theorem finishMove_stores : finishMove old new false = .next { new with answer := .done } := rfl

/-- A move that reloads where PAE paging is in use afterwards (`p`) and a listed flag has changed (`q`). -/
theorem finishMove_reloads_or_stores {reload : Bool} {p q : Prop} (h : reload = true ↔ p ∧ q) :
    (p → q → tableInRam new new.cr3 = true →
      (tableBad new new.cr3 = false →
        finishMove old new reload = .next { new with pdpte := tableRegisters new new.cr3, answer := .done }) ∧
      (tableBad new new.cr3 = true → finishMove old new reload = .next (generalProtected old))) ∧
    (¬(p ∧ q) → finishMove old new reload = .next { new with answer := .done }) := by
  refine ⟨fun hp hq hr => ?_, fun hno => ?_⟩
  · rw [h.mpr ⟨hp, hq⟩]
    exact ⟨finishMove_good hr, finishMove_bad hr⟩
  · rw [Bool.eq_false_iff.mpr (mt h.mp hno)]
    exact finishMove_stores

/-- Settles O14: LoadPDPTEs is a move that writes no register and reloads. -/
theorem loadPdptesAllOrNothing : Obligations.LoadPdptesAllOrNothing := by
  unfold Obligations.LoadPdptesAllOrNothing
  exact fun s hr => ⟨finishMove_good hr, finishMove_bad hr⟩

/-! ## MOV to CR3 (R82) -/

theorem exec_movToCR3 (hc : s.cpl = 0) (hv : sourceValue s src = v) :
    exec (.movToCR3 src) s = finishMove s { s with cr3 := v } s.paeInUse := by
  rw [← hv]
  exact privileged_eq hc

/-- Settles O15: the move reloads exactly in PAE paging, which CR3 has no part in. -/
theorem movToCR3Reloads : Obligations.MovToCR3Reloads := by
  unfold Obligations.MovToCR3Reloads
  intro s src v hc hv
  rw [exec_movToCR3 hc hv]
  refine ⟨fun hp hr hb => ?_, fun hp hr hb => ?_, fun hp => ?_⟩ <;> rw [hp]
  · exact finishMove_good (new := { s with cr3 := v }) hr hb
  · exact finishMove_bad (new := { s with cr3 := v }) hr hb
  · exact finishMove_stores

/-! ## MOV to CR0 (R83) -/

theorem exec_movToCR0_illegal (hc : s.cpl = 0) (hv : sourceValue s src = v) (hi : cr0Illegal v = true) :
    exec (.movToCR0 src) s = .next (generalProtected s) := by
  subst hv
  exact (privileged_eq hc).trans (if_pos hi)

theorem exec_movToCR0_legal (hc : s.cpl = 0) (hv : sourceValue s src = v) (hi : cr0Illegal v ≠ true) :
    exec (.movToCR0 src) s =
      finishMove s { s with cr0 := v } (State.paeInUse { s with cr0 := v } && cr0Reloads s.cr0 v) := by
  subst hv
  exact (privileged_eq hc).trans (if_neg hi)

theorem cr0Illegal_iff : cr0Illegal v = true ↔ v.getLsbD 31 = true ∧ v.getLsbD 0 = false := by
  rw [cr0Illegal, Bool.and_eq_true, Bool.not_eq_true']
  rfl

theorem cr0_reload_iff :
    (State.paeInUse { s with cr0 := v } && cr0Reloads s.cr0 v) = true ↔
      pagingModeOf v s.cr4 s.efer = .pae ∧
      (s.cr0.getLsbD 30 ≠ v.getLsbD 30 ∨ s.cr0.getLsbD 29 ≠ v.getLsbD 29 ∨ s.cr0.getLsbD 31 ≠ v.getLsbD 31) := by
  rw [Bool.and_eq_true, paeInUse_iff_pagingMode]
  simp only [cr0Reloads, Bool.or_eq_true, bne_iff_ne, cr0CD, cr0NW, cr0PG, or_assoc, State.pagingMode]

/-- Settles O16: an illegal value, a reload in PAE paging with a flag changed, or a plain store. -/
theorem movToCR0Reloads : Obligations.MovToCR0Reloads := by
  unfold Obligations.MovToCR0Reloads
  intro s src v hc hv
  refine ⟨fun hpg hpe => exec_movToCR0_illegal hc hv (cr0Illegal_iff.mpr ⟨hpg, hpe⟩), fun hl => ?_⟩
  rw [exec_movToCR0_legal hc hv (mt cr0Illegal_iff.mp hl)]
  obtain ⟨hreload, hstore⟩ := finishMove_reloads_or_stores (old := s) (new := { s with cr0 := v }) cr0_reload_iff
  exact ⟨hreload, fun hk => hstore (by simpa only [not_and_or, not_or, ne_eq, not_not] using hk)⟩

/-! ## MOV to CR4 (R84) -/

theorem exec_movToCR4_illegal (hc : s.cpl = 0) (hv : sourceValue s src = v) (hi : cr4Illegal s.cfg v = true) :
    exec (.movToCR4 src) s = .next (generalProtected s) := by
  subst hv
  exact (privileged_eq hc).trans (if_pos hi)

theorem exec_movToCR4_legal (hc : s.cpl = 0) (hv : sourceValue s src = v) (hi : cr4Illegal s.cfg v ≠ true) :
    exec (.movToCR4 src) s =
      finishMove s { s with cr4 := v } (State.paeInUse { s with cr4 := v } && cr4Reloads s.cr4 v) := by
  subst hv
  exact (privileged_eq hc).trans (if_neg hi)

theorem cr4Illegal_of_unsupported {c : Config}
    (h : (v.getLsbD 20 = true ∧ c.smepSupported = false) ∨ (v.getLsbD 21 = true ∧ c.smapSupported = false) ∨
      (v.getLsbD 7 = true ∧ c.pgeSupported = false) ∨ v &&& c.cr4Reserved ≠ 0) : cr4Illegal c v = true := by
  rcases h with ⟨hf, hs⟩ | ⟨hf, hs⟩ | ⟨hf, hs⟩ | hr
  · simp [cr4Illegal, cr4SMEP, hf, hs]
  · simp [cr4Illegal, cr4SMAP, hf, hs]
  · simp [cr4Illegal, cr4PGE, hf, hs]
  · rw [cr4Illegal, decide_eq_true hr, Bool.or_true]

theorem cr4_reload_iff :
    (State.paeInUse { s with cr4 := v } && cr4Reloads s.cr4 v) = true ↔
      pagingModeOf s.cr0 v s.efer = .pae ∧
      (s.cr4.getLsbD 5 ≠ v.getLsbD 5 ∨ s.cr4.getLsbD 7 ≠ v.getLsbD 7 ∨ s.cr4.getLsbD 4 ≠ v.getLsbD 4 ∨
        s.cr4.getLsbD 20 ≠ v.getLsbD 20) := by
  rw [Bool.and_eq_true, paeInUse_iff_pagingMode]
  simp only [cr4Reloads, Bool.or_eq_true, bne_iff_ne, cr4PAE, cr4PGE, cr4PSE, cr4SMEP, or_assoc, State.pagingMode]

/-- Settles O17: an illegal value, a reload in PAE paging with a flag changed, or a plain store. -/
theorem movToCR4Reloads : Obligations.MovToCR4Reloads := by
  unfold Obligations.MovToCR4Reloads
  intro s src v hc hv
  refine ⟨fun hi => exec_movToCR4_illegal hc hv (cr4Illegal_of_unsupported hi), fun hl => ?_⟩
  rw [exec_movToCR4_legal hc hv (Bool.eq_false_iff.mp hl)]
  obtain ⟨hreload, hstore⟩ := finishMove_reloads_or_stores (old := s) (new := { s with cr4 := v }) cr4_reload_iff
  exact ⟨hreload, fun hk => hstore (by simpa only [not_and_or, not_or, ne_eq, not_not] using hk)⟩

/-! ## The CR3 load of a task switch (R85) -/

theorem switchLoad_good (hr : tableInRam s s.cr3 = true) (hb : tableBad s s.cr3 = false) :
    switchLoad s = .next { s with pdpte := tableRegisters s s.cr3, answer := .done } := by
  simp [switchLoad, loadPdptes_eq, hr, hb]

theorem switchLoad_bad (hr : tableInRam s s.cr3 = true) (hb : tableBad s s.cr3 = true) :
    switchLoad s = .refused .taskSwitchFault := by
  simp [switchLoad, loadPdptes_eq, hr, hb]

theorem exec_taskSwitchCR3_notPae (hp : s.paeInUse = false) :
    exec (.taskSwitchCR3 v) s = .next { s with cr3 := v, answer := .done } := by
  have hp' : State.paeInUse { s with cr3 := v } = false := hp
  simp [exec, execTaskSwitchCR3, hp']

theorem exec_taskSwitchCR3_changed (hp : s.paeInUse = true) (hv : v ≠ s.cr3) :
    exec (.taskSwitchCR3 v) s = switchLoad { s with cr3 := v } := by
  have hp' : State.paeInUse { s with cr3 := v } = true := hp
  simp [exec, execTaskSwitchCR3, hp', hv]

/-- An equal value is loaded again, or not: the draw. -/
theorem exec_taskSwitchCR3_equal (hp : s.paeInUse = true) :
    exec (.taskSwitchCR3 s.cr3) s = switchLoad { s with draws := s.draws + 1 } ∨
    exec (.taskSwitchCR3 s.cr3) s = .next { s with draws := s.draws + 1, answer := .done } := by
  cases hd : Config.freeBit s.draws with
  | false => exact .inr (by simp [exec, execTaskSwitchCR3, hp, hd])
  | true => exact .inl (by simp [exec, execTaskSwitchCR3, hp, hd])

/-- Settles O18: outside PAE paging, with a changed value, and with an equal one by either side of the draw. -/
theorem taskSwitchLoadsChangedCR3 : Obligations.TaskSwitchLoadsChangedCR3 := by
  unfold Obligations.TaskSwitchLoadsChangedCR3
  intro s v
  refine ⟨exec_taskSwitchCR3_notPae, fun hp hv hr hb => ?_, fun hp hv hr hb => ?_, fun hp hv hr hb => ?_,
    fun hp hv hr hb => ?_⟩
  · exact (exec_taskSwitchCR3_changed hp hv).trans (switchLoad_good (s := { s with cr3 := v }) hr hb)
  · exact (exec_taskSwitchCR3_changed hp hv).trans (switchLoad_bad (s := { s with cr3 := v }) hr hb)
  · subst hv
    rcases exec_taskSwitchCR3_equal hp with h | h
    · exact ⟨_, .inl rfl, h.trans (switchLoad_good (s := { s with draws := s.draws + 1 }) hr hb)⟩
    · exact ⟨_, .inr rfl, h⟩
  · subst hv
    exact (exec_taskSwitchCR3_equal hp).imp_left fun h =>
      h.trans (switchLoad_bad (s := { s with draws := s.draws + 1 }) hr hb)

end Sys2Proof.Machine
end

section
/-! PROOF. PagingControl: who changes the PDPTE registers and the control registers of paging (20_memory.md R49;
40_pdpte_registers.md R86, R87; 60_exceptions.md R122). -/

namespace Sys2Proof.Machine

open Sys2Proof.Safety

variable {i : Instr} {s t : State}

theorem RowEffect.keepsPdpte_or_loads (h : RowEffect s t i) :
    t.pdpte = s.pdpte ∨ i = .loadPDPTEs ∨ (∃ v, i = .taskSwitchCR3 v) ∨
      (∃ src, i = .movToCR0 src) ∨ (∃ src, i = .movToCR3 src) ∨ ∃ src, i = .movToCR4 src := by
  cases h with
  | entry h => exact .inl h.pdpte
  | answered u a hu ht => exact .inl (by rw [ht, hu.1])
  | pageFaulted u ec la hu ht => exact .inl (by rw [ht, takePageFault_pdpte, hu.1])
  | toGpr r v hi ht => exact .inl (by rw [ht])
  | toCR0 src v r hv hl ht => simp
  | toCR3 src v r hl ht => simp
  | toCR4 src v r hv hl ht => simp
  | switched v r d hl ht => simp
  | loaded r hl ht => simp
  | toEfer v hp ht => exact .inl (by rw [ht])
  | toAC b ht => exact .inl (by rw [ht])

/-- Settles O19: each of the five loading operations by what its next state can be. -/
theorem onlyLoadsChangePdptes : Obligations.OnlyLoadsChangePdptes := by
  unfold Obligations.OnlyLoadsChangePdptes
  intro i s t h
  rcases (exec_rowEffect h).keepsPdpte_or_loads with
    hk | rfl | ⟨v, rfl⟩ | ⟨src, rfl⟩ | ⟨src, rfl⟩ | ⟨src, rfl⟩
  · exact .inl hk
  · rcases execLoadPDPTEs_eq_next h with rfl | ⟨_, rfl⟩
    · exact .inl rfl
    · exact .inr ⟨rfl, .inl rfl⟩
  · obtain ⟨d, ⟨hp, _, rfl⟩ | ⟨_, rfl⟩⟩ := execTaskSwitchCR3_eq_next h
    · exact .inr ⟨rfl, .inr (.inr (.inr (.inr ⟨⟨v, rfl⟩, hp⟩)))⟩
    · exact .inl rfl
  · rcases execMovToCR0_eq_next h with rfl | ⟨_, _, ⟨hp, hch, _, rfl⟩ | ⟨_, rfl⟩⟩
    · exact .inl rfl
    · exact .inr ⟨rfl, .inr (.inr (.inl ⟨⟨src, rfl⟩, hp, hch⟩))⟩
    · exact .inl rfl
  · rcases execMovToCR3_eq_next h with rfl | ⟨_, ⟨hp, _, rfl⟩ | ⟨_, rfl⟩⟩
    · exact .inl rfl
    · exact .inr ⟨rfl, .inr (.inl ⟨⟨src, rfl⟩, hp⟩)⟩
    · exact .inl rfl
  · rcases execMovToCR4_eq_next h with rfl | ⟨_, _, ⟨hp, hch, _, rfl⟩ | ⟨_, rfl⟩⟩
    · exact .inl rfl
    · exact .inr ⟨rfl, .inr (.inr (.inr (.inl ⟨⟨src, rfl⟩, hp, hch⟩)))⟩
    · exact .inl rfl

/-- Outside level 0 software's writes of CR0, CR3, CR4 and IA32_EFER end in general protection (R87, R122). -/
theorem eq_generalProtected_of_cpl_ne_zero (hc : s.cpl ≠ 0) (h : exec i s = .next t)
    (hi : (∃ src, i = .movToCR0 src) ∨ (∃ src, i = .movToCR3 src) ∨ (∃ src, i = .movToCR4 src) ∨
      ∃ v, i = .setEFER v) : t = generalProtected s := by
  have hgp := privileged_of_cpl_ne_zero hc
  rcases hi with ⟨src, rfl⟩ | ⟨src, rfl⟩ | ⟨src, rfl⟩ | ⟨v, rfl⟩ <;>
    exact Host.Outcome.next.inj (h.symm.trans (hgp _))

/-- Settles O48: the rows denied outside level 0 change nothing, and the others are not writers. -/
theorem userModeKeepsPagingControl : Obligations.UserModeKeepsPagingControl := by
  unfold Obligations.UserModeKeepsPagingControl
  intro i s t hc hsw h
  by_cases hi : (∃ src, i = .movToCR0 src) ∨ (∃ src, i = .movToCR3 src) ∨ (∃ src, i = .movToCR4 src) ∨
      ∃ v, i = .setEFER v
  · rw [eq_generalProtected_of_cpl_ne_zero hc h hi]
    exact ⟨rfl, rfl, rfl, rfl, fun _ => rfl⟩
  · simp only [not_or] at hi
    obtain ⟨h0, h3, h4, he⟩ := hi
    obtain ⟨w0, -, w3, w4, we, -⟩ := (exec_rowEffect h).writesOwn
    have hsw := not_exists.mpr hsw
    refine ⟨w0.resolve_right h0, w3.resolve_right (not_or.mpr ⟨h3, hsw⟩), w4.resolve_right h4, we.resolve_right he,
      fun hl => (exec_rowEffect h).keepsPdpte_or_loads.resolve_right ?_⟩
    simp only [not_or]
    exact ⟨hl, hsw, h0, h3, h4⟩

end Sys2Proof.Machine
end

section
/-! PROOF. AbstractWriters: SetEFER and SetAC bit by bit (40_pdpte_registers.md R88). -/

namespace Sys2Proof.Machine

variable {s : State} {v : Quad}

theorem exec_setEFER (hc : s.cpl = 0) (hl : ¬(cr0PG s.cr0 = true ∧ v.getLsbD 8 ≠ s.efer.getLsbD 8)) :
    exec (.setEFER v) s = .next { s with efer := eferAfterWrite s.cfg s.efer v, answer := .done } := by
  refine (privileged_eq hc).trans (if_neg ?_)
  rwa [Bool.and_eq_true, bne_iff_ne]

theorem exec_setEFER_refused (hc : s.cpl = 0) (hpg : cr0PG s.cr0 = true) (hl : v.getLsbD 8 ≠ s.efer.getLsbD 8) :
    exec (.setEFER v) s = .refused .lmeChangeWhilePaging := by
  refine (privileged_eq hc).trans (if_pos ?_)
  rw [Bool.and_eq_true, bne_iff_ne]
  exact ⟨hpg, hl⟩

/-- A mask that clears bit `n` unless `b`. -/
theorem getLsbD_and_mask {w : Nat} (x : BitVec w) (n j : Nat) (b : Bool) :
    (x &&& if b then -1 else ~~~(BitVec.twoPow w n)).getLsbD j = (x.getLsbD j && !(decide (j = n) && !b)) := by
  by_cases hj : j < w
  · cases b <;> simp [hj, BitVec.neg_one_eq_allOnes, eq_comm]
  · rw [BitVec.getLsbD_of_ge _ _ (by omega), BitVec.getLsbD_of_ge _ _ (by omega), Bool.false_and]

theorem getLsbD_eferAfterWrite {c : Config} (old : Quad) (h : c.nxSupported = true ∨ c.lmSupported = true) (j : Nat) :
    (eferAfterWrite c old v).getLsbD j =
      (v.getLsbD j && !(decide (j = 11) && !c.nxSupported) && !(decide (j = 8) && !c.lmSupported)) := by
  have hreg : ¬(!c.nxSupported && !c.lmSupported) = true := by simpa using fun hn => h.resolve_left (by simp [hn])
  rw [eferAfterWrite, if_neg hreg]
  exact (getLsbD_and_mask _ 8 j _).trans (congrArg (· && _) (getLsbD_and_mask v 11 j _))

theorem eferAfterWrite_of_supported {c : Config} (old : Quad) (hn : c.nxSupported = true) (hm : c.lmSupported = true) :
    eferAfterWrite c old v = v :=
  BitVec.eq_of_getLsbD_eq fun j _ => by simp [getLsbD_eferAfterWrite old (.inl hn), hn, hm]

/-- Bit `n` cleared, then set to `b`. -/
theorem getLsbD_replaceBit {w n : Nat} (hn : n < w) (x : BitVec w) (b : Bool) (j : Nat) :
    (x &&& ~~~(BitVec.twoPow w n) ||| if b then BitVec.twoPow w n else 0).getLsbD j = if j = n then b else x.getLsbD j := by
  by_cases hj : j < w
  · cases b <;> by_cases h : j = n <;> simp [hj, h, hn]
  · rw [BitVec.getLsbD_of_ge _ _ (by omega), BitVec.getLsbD_of_ge _ _ (by omega), if_neg (by omega)]

theorem getLsbD_withAC (b : Bool) (f : Word) (j : Nat) :
    (withAC b f).getLsbD j = if j = 18 then b else f.getLsbD j := by
  have hbit := getLsbD_replaceBit (n := 18) (by omega) f b j
  rwa [show BitVec.twoPow 32 18 = 0x40000 from rfl] at hbit

/-- Settles O22: the two writers by the bits of what they store. -/
theorem setEferAndSetAcStore : Obligations.SetEferAndSetAcStore := by
  unfold Obligations.SetEferAndSetAcStore
  intro s v b
  refine ⟨fun hc hl => ?_, exec_setEFER_refused, _, rfl, getLsbD_withAC b s.eflags⟩
  have hstore := exec_setEFER hc hl
  refine ⟨fun hn hm => ?_, _, hstore, getLsbD_eferAfterWrite s.efer, fun hn hm => ?_⟩
  · rwa [eferAfterWrite_of_supported s.efer hn hm] at hstore
  · simp [eferAfterWrite, hn, hm]

end Sys2Proof.Machine
end

section
/-! PROOF. Rights: what an access may do, one condition for each mode and kind (41_translation.md R97 to R103). -/

namespace Sys2Proof.Machine

variable (s : State) (us rw xd : Bool)

/-- Supervisor-mode data accesses to a user-mode address: CR4.SMAP forbids them unless EFLAGS.AC is set (R100, R101). -/
theorem smapOk_iff : (!(us && cr4SMAP s.cr4 && !eflagsAC s.eflags)) = true ↔
    (us = true → s.cr4.getLsbD 21 = true → s.eflags.getLsbD 18 = true) := by
  rw [Bool.not_eq_true', ← Bool.not_eq_true]
  simp only [cr4SMAP, eflagsAC, Bool.and_eq_true, Bool.not_eq_true', not_and, Bool.not_eq_false, and_imp]

theorem rights_supervisor_read : rights s .read .supervisor us rw xd = true ↔
    (us = true → s.cr4.getLsbD 21 = true → s.eflags.getLsbD 18 = true) := by
  rw [← smapOk_iff]
  simp [rights]

theorem rights_supervisor_write : rights s .write .supervisor us rw xd = true ↔
    (us = true → s.cr4.getLsbD 21 = true → s.eflags.getLsbD 18 = true) ∧
    (rw = true ∨ s.cr0.getLsbD 16 = false) := by
  rw [← smapOk_iff]
  simp [rights, cr0WP]

theorem rights_supervisor_fetch : rights s .fetch .supervisor us rw xd = true ↔
    xd = false ∧ ¬(us = true ∧ s.cr4.getLsbD 20 = true) := by
  cases us <;> simp [rights, cr4SMEP]

/-- Settles O23: in user mode U/S is asked first; supervisor mode kind by kind. -/
theorem accessRights : Obligations.AccessRights := by
  unfold Obligations.AccessRights
  refine fun s us rw xd => ⟨?_, ?_, ?_, rights_supervisor_read s us rw xd, rights_supervisor_write s us rw xd,
    rights_supervisor_fetch s us rw xd⟩ <;> cases us <;> simp [rights]

end Sys2Proof.Machine
end

section
/-! PROOF. WalkRows: what each entry row does in the walk that reads it, and what Translate comes to at each entry it
can end at (41_translation.md R90 to R96, R104; 60_exceptions.md R113 to R115). -/

namespace Sys2Proof.Machine

open Sys2Proof.Safety

variable {s : State} {la : Word} {kind : AccessKind} {mode : AccessMode} {p e t aE aT : Quad}

/-! ## A final entry: reserved bits, then rights, then the flags (R92, R93) -/

theorem use2M_reserved (hr : rsvdPde2M s.cfg s.nxe e = true) :
    use2M s la kind mode aE e = walkFault s la kind mode true true := if_pos hr

theorem use2M_denied (hr : rsvdPde2M s.cfg s.nxe e = false)
    (hrt : rights s kind mode (entryUS e) (entryRW e) (s.nxe && entryXD e) = false) :
    use2M s la kind mode aE e = walkFault s la kind mode true false := by
  simp [use2M, hr, hrt]

theorem use2M_allowed (hr : rsvdPde2M s.cfg s.nxe e = false)
    (hrt : rights s kind mode (entryUS e) (entryRW e) (s.nxe && entryXD e) = true) :
    use2M s la kind mode aE e =
      .done ⟨physAddr2M s.cfg e la, some ⟨.page2M, pde2mPAT e, entryPCD e, entryPWT e, entryG e⟩⟩
        (s.setAD aE (decide (kind = .write))) := by
  simp [use2M, hr, hrt]

theorem use4K_reserved (hr : rsvdPte s.cfg s.nxe t = true) :
    use4K s la kind mode aE e aT t = walkFaultPast s aE la kind mode true true := if_pos hr

theorem use4K_denied (hr : rsvdPte s.cfg s.nxe t = false)
    (hrt : rights s kind mode (entryUS e && entryUS t) (entryRW e && entryRW t)
      (s.nxe && (entryXD e || entryXD t)) = false) :
    use4K s la kind mode aE e aT t = walkFaultPast s aE la kind mode true false := by
  simp [use4K, hr, hrt]

theorem use4K_allowed (hr : rsvdPte s.cfg s.nxe t = false)
    (hrt : rights s kind mode (entryUS e && entryUS t) (entryRW e && entryRW t)
      (s.nxe && (entryXD e || entryXD t)) = true) :
    use4K s la kind mode aE e aT t =
      .done ⟨physAddr4K s.cfg t la, some ⟨.page4K, ptePAT t, entryPCD t, entryPWT t, entryG t⟩⟩
        ((s.setAD aE false).setAD aT (decide (kind = .write))) := by
  simp [use4K, hr, hrt]

/-! ## The end of a walk, handed over -/

/-- Memory after the draw of R104 at a page-directory entry. -/
def drawnMemory (s : State) (a : Quad) : Memory :=
  if Config.freeBit s.draws then s.mem.setAD a.toNat false else s.mem

theorem drawnMemory_eq_or (s : State) (a : Quad) :
    drawnMemory s a = s.mem ∨ drawnMemory s a = s.mem.setAD a.toNat false := by
  unfold drawnMemory
  split
  · exact .inr rfl
  · exact .inl rfl

theorem walkFault_finish (pr rsvd : Bool) : (walkFault s la kind mode pr rsvd).finish .translation =
    .next (pageFaulted s (pageFaultErrorCode s pr kind mode rsvd) la) := rfl

theorem walkFaultPast_finish (pr rsvd : Bool) : (walkFaultPast s aE la kind mode pr rsvd).finish .translation =
    .next (pageFaulted { s with mem := drawnMemory s aE, draws := s.draws + 1 }
      (pageFaultErrorCode s pr kind mode rsvd) la) := rfl

/-! ## The rows in their walk (log 10) -/

section
variable (hw : s.walk = some ⟨la, kind, mode, .pdptr⟩)
include hw

theorem exec_pdpte_inWalk : exec (.pdpte e) s =
    .next { s with walk := some ⟨la, kind, mode, .directory (pdeAddr s.cfg e la)⟩ } := by
  simp only [exec, execPdpte, hw]

theorem exec_pdpteNotPresent_inWalk : exec (.pdpteNotPresent e) s =
    (walkFault { s with walk := none } la kind mode false false).finish .translation := by
  simp only [exec, execPdpteNotPresent, hw]

end

section
variable (hw : s.walk = some ⟨la, kind, mode, .directory aE⟩)
include hw

theorem exec_pdeNotPresent_inWalk : exec (.pdeNotPresent e) s =
    (walkFault { s with walk := none } la kind mode false false).finish .translation := by
  simp only [exec, execPdeNotPresent, hw]

theorem exec_pdePT_inWalk_reserved (hr : rsvdPdePT s.cfg s.nxe e = true) : exec (.pdePT e) s =
    (walkFault { s with walk := none } la kind mode true true).finish .translation := by
  simp only [exec, execPdePT, hw, hr, if_true]

theorem exec_pdePT_inWalk_good (hr : rsvdPdePT s.cfg s.nxe e = false) : exec (.pdePT e) s =
    .next { s with walk := some ⟨la, kind, mode, .table aE e (pteAddr s.cfg e la)⟩ } := by
  simp only [exec, execPdePT, hw, hr, Bool.false_eq_true, if_false]

theorem exec_pde2M_inWalk : exec (.pde2M e) s =
    (use2M { s with walk := none } la kind mode aE e).finish .translation := by
  simp only [exec, execPde2M, hw]

end

section
variable (hw : s.walk = some ⟨la, kind, mode, .table aE e aT⟩)
include hw

theorem exec_pteNotPresent_inWalk : exec (.pteNotPresent t) s =
    (walkFaultPast { s with walk := none } aE la kind mode false false).finish .translation := by
  simp only [exec, execPteNotPresent, hw]

theorem exec_pte4K_inWalk : exec (.pte4K t) s =
    (use4K { s with walk := none } la kind mode aE e aT t).finish .translation := by
  simp only [exec, execPte4K, hw]

end

/-- Settles O35: a row goes on to the next entry, or its page fault is taken with the walk ended. -/
theorem registerAndDirectoryRowsInWalk : Obligations.RegisterAndDirectoryRowsInWalk := by
  unfold Obligations.RegisterAndDirectoryRowsInWalk
  intro s la kind mode e aE
  exact ⟨fun hw => ⟨exec_pdpte_inWalk hw, exec_pdpteNotPresent_inWalk hw⟩,
    fun hw => ⟨exec_pdePT_inWalk_good hw, exec_pdePT_inWalk_reserved hw, exec_pdeNotPresent_inWalk hw⟩⟩

/-- Settles O36: the ends of the use of a final entry, in the state with the walk ended. -/
theorem finalRowsInWalk : Obligations.FinalRowsInWalk := by
  unfold Obligations.FinalRowsInWalk
  intro s la kind mode aE e aT t
  refine ⟨fun hw => ?_, fun hw => ?_⟩
  · rw [exec_pde2M_inWalk hw]
    refine ⟨fun hr => ?_, fun hr hrt => ?_, fun hr hrt => ?_⟩
    · rw [use2M_reserved (s := { s with walk := none }) hr]; rfl
    · rw [use2M_denied (s := { s with walk := none }) hr hrt]; rfl
    · rw [use2M_allowed (s := { s with walk := none }) hr hrt]; rfl
  · rw [exec_pte4K_inWalk hw]
    refine ⟨fun hr hrt => ?_, drawnMemory s aE, drawnMemory_eq_or s aE, exec_pteNotPresent_inWalk hw, fun hr => ?_,
      fun hr hrt => ?_⟩
    · rw [use4K_allowed (s := { s with walk := none }) hr hrt]; rfl
    · rw [use4K_reserved (s := { s with walk := none }) hr]; rfl
    · rw [use4K_denied (s := { s with walk := none }) hr hrt]; rfl

/-! ## Translate, entry by entry -/

theorem exec_translate_paging (hpae : s.paeInUse = true) (hcet : cr4CET s.cr4 = false) :
    exec (.translate la kind mode) s = (walkRegister s la kind mode).finish .translation :=
  congrArg (·.finish .translation) (translate_paging hpae hcet)

theorem walkRegister_notPresent (hp : s.pdpte.select (laPdpteIndex la) = some p) (hpp : entryP p = false) :
    walkRegister s la kind mode = walkFault s la kind mode false false := by
  simp [walkRegister, hp, hpp]

theorem walkRegister_present (hp : s.pdpte.select (laPdpteIndex la) = some p) (hpp : entryP p = true) :
    walkRegister s la kind mode = walkDirectory s la kind mode p := by
  simp [walkRegister, hp, hpp]

section
variable (he : readEntry s (pdeAddr s.cfg p la) = some e)
include he

theorem walkDirectory_notPresent (hep : entryP e = false) :
    walkDirectory s la kind mode p = walkFault s la kind mode false false := by
  simp [walkDirectory, he, hep]

theorem walkDirectory_pde2M (hep : entryP e = true) (hps : entryPS e = true) :
    walkDirectory s la kind mode p = use2M s la kind mode (pdeAddr s.cfg p la) e := by
  simp [walkDirectory, he, hep, hps]

theorem walkDirectory_pdePT_reserved (hep : entryP e = true) (hps : entryPS e = false)
    (hr : rsvdPdePT s.cfg s.nxe e = true) : walkDirectory s la kind mode p = walkFault s la kind mode true true := by
  simp [walkDirectory, he, hep, hps, hr]

end

theorem walkTable_notPresent (ht : readEntry s (pteAddr s.cfg e la) = some t) (htp : entryP t = false) :
    walkTable s la kind mode aE e = walkFaultPast s aE la kind mode false false := by
  simp [walkTable, ht, htp]

theorem walkTable_present (ht : readEntry s (pteAddr s.cfg e la) = some t) (htp : entryP t = true) :
    walkTable s la kind mode aE e = use4K s la kind mode aE e (pteAddr s.cfg e la) t := by
  simp [walkTable, ht, htp]

/-- Settles O25: the walk goes through both entries to the allowed use of the PTE. -/
theorem translateThrough4KPage : Obligations.TranslateThrough4KPage := by
  unfold Obligations.TranslateThrough4KPage
  intro s la kind mode p e t hpae hcet hp hpp he hep hps hr ht htp htr hrt
  rw [exec_translate_paging hpae hcet, walkRegister_present hp hpp, walkDirectory_pdePT he hep hps hr,
    walkTable_present ht htp, use4K_allowed htr hrt]
  rfl

/-- Settles O26: the walk ends at the allowed use of the PDE. -/
theorem translateThrough2MPage : Obligations.TranslateThrough2MPage := by
  unfold Obligations.TranslateThrough2MPage
  intro s la kind mode p e hpae hcet hp hpp he hep hps hr hrt
  rw [exec_translate_paging hpae hcet, walkRegister_present hp hpp, walkDirectory_pde2M he hep hps,
    use2M_allowed hr hrt]
  rfl

/-- Settles O27: at each entry the walk ends in a fault of the state it began in. -/
theorem pageFaultsAtRegisterAndDirectory : Obligations.PageFaultsAtRegisterAndDirectory := by
  unfold Obligations.PageFaultsAtRegisterAndDirectory
  intro s la kind mode p hpae hcet hp
  rw [exec_translate_paging hpae hcet]
  refine ⟨fun hpp => ?_, fun e hpp he => ?_⟩
  · rw [walkRegister_notPresent hp hpp, walkFault_finish]
  · rw [walkRegister_present hp hpp]
    refine ⟨fun hep => ?_, fun hep hr => ?_, fun hep hps hr hrt => ?_⟩
    · rw [walkDirectory_notPresent he hep, walkFault_finish]
    · split at hr
      · next hps => rw [walkDirectory_pde2M he hep hps, use2M_reserved hr, walkFault_finish]
      · next hps =>
        rw [walkDirectory_pdePT_reserved he hep (Bool.eq_false_iff.mpr hps) hr, walkFault_finish]
    · rw [walkDirectory_pde2M he hep hps, use2M_denied hr hrt, walkFault_finish]

/-- Settles O28: past the PDE every fault has drawn its A flag. -/
theorem pageFaultsAtPageTable : Obligations.PageFaultsAtPageTable := by
  unfold Obligations.PageFaultsAtPageTable
  intro s la kind mode p e t hpae hcet hp hpp he hep hps hr ht
  rw [exec_translate_paging hpae hcet, walkRegister_present hp hpp, walkDirectory_pdePT he hep hps hr]
  refine ⟨drawnMemory s _, drawnMemory_eq_or s _, fun htp => ?_, fun htp htr => ?_, fun htp htr hrt => ?_⟩
  · rw [walkTable_notPresent ht htp, walkFaultPast_finish]
  · rw [walkTable_present ht htp, use4K_reserved htr, walkFaultPast_finish]
  · rw [walkTable_present ht htp, use4K_denied htr hrt, walkFaultPast_finish]

end Sys2Proof.Machine
end

section
/-! PROOF. WalkMoves: the moves of a walk in progress, each reading and executing one entry, come to the translation
(41_translation.md R90 to R94; log 10). -/

namespace Sys2Proof.Machine

open Sys2Proof.Safety

/-! ## One more move -/

section
variable {s t : State} {w : Walk} {n : Nat} {o : Host.Outcome State Fault Refusal}

/-- The outcome leaves no walk in progress. -/
def WalkEnded (o : Host.Outcome State Fault Refusal) : Prop := ∀ t, o = .next t → t.walk = none

theorem walkEnded_refused (r : Refusal) : WalkEnded (.refused r) := fun _ h => by cases h

theorem walkEnded_fault (f : Fault) : WalkEnded (.fault f) := fun _ h => by cases h

theorem finishWalk_of_walk_none (n : Nat) (h : s.walk = none) : finishWalk n s = .next s := by
  cases n with
  | zero => rfl
  | succ n => simp only [finishWalk, h]

theorem finishWalk_goesOn (hw : s.walk = some w) (h : step s = .next t) : finishWalk (n + 1) s = finishWalk n t := by
  simp only [finishWalk, hw, h]

theorem finishWalk_ends (hw : s.walk = some w) (h : step s = o) (ho : WalkEnded o) : finishWalk (n + 1) s = o := by
  simp only [finishWalk, hw, h]
  cases o with
  | next t => exact finishWalk_of_walk_none n (ho t rfl)
  | fault r => rfl
  | refused r => rfl

end

variable {s : State} {la : Word} {kind : AccessKind} {mode : AccessMode} {p e t aE aT : Quad} {n : Nat}

/-! ## The ends of a walk -/

section
variable (hw : s.walk = none)
include hw

theorem walkFault_ended (pr rsvd : Bool) : WalkEnded ((walkFault s la kind mode pr rsvd).finish .translation) := by
  rintro t ⟨⟩
  exact hw

theorem walkFaultPast_ended (pr rsvd : Bool) :
    WalkEnded ((walkFaultPast s aE la kind mode pr rsvd).finish .translation) := by
  rintro t ⟨⟩
  exact hw

theorem use2M_ended : WalkEnded ((use2M s la kind mode aE e).finish .translation) := by
  rcases use2M_eq (s := s) (la := la) (kind := kind) (mode := mode) (aE := aE) (e := e) with ⟨tr, h⟩ | ⟨ec, h⟩ <;>
  · rw [h]
    rintro t ⟨⟩
    exact hw

theorem use4K_ended : WalkEnded ((use4K s la kind mode aE e aT t).finish .translation) := by
  rcases use4K_eq (s := s) (la := la) (kind := kind) (mode := mode) (aE := aE) (e := e) (aT := aT) (q := t) with
    ⟨tr, h⟩ | ⟨ec, h⟩ <;>
  · rw [h]
    rintro t ⟨⟩
    exact hw

end

/-! ## The walk from each entry on -/

/-- `s` with a walk of `la` that has come to `stage`. -/
def State.walking (s : State) (la : Word) (kind : AccessKind) (mode : AccessMode) (stage : Stage) : State :=
  { s with walk := some ⟨la, kind, mode, stage⟩ }

theorem walking_walk_none (hw : s.walk = none) (la : Word) (kind : AccessKind) (mode : AccessMode) (stage : Stage) :
    { s.walking la kind mode stage with walk := none } = s := by
  cases s
  cases hw
  rfl

/-- A walk at a page-table entry reads it and ends. -/
theorem walkStep_table (hw : s.walk = none) :
    walkStep ⟨la, kind, mode, .table aE e (pteAddr s.cfg e la)⟩
        (s.walking la kind mode (.table aE e (pteAddr s.cfg e la))) =
      (walkTable s la kind mode aE e).finish .translation := by
  have hs := walking_walk_none hw la kind mode (.table aE e (pteAddr s.cfg e la))
  have hread : readEntry (s.walking la kind mode (.table aE e (pteAddr s.cfg e la))) (pteAddr s.cfg e la) =
      readEntry s (pteAddr s.cfg e la) := rfl
  rcases ht : readEntry s (pteAddr s.cfg e la) with _ | t
  · simp only [walkStep, hread, ht, walkTable_outside ht, Access.finish]
  · simp only [walkStep, hread, ht]
    cases htp : entryP t with
    | false => rw [decodePte_notPresent htp, exec_pteNotPresent_inWalk rfl, hs, walkTable_notPresent ht htp]
    | true => rw [decodePte_present htp, exec_pte4K_inWalk rfl, hs, walkTable_present ht htp]

theorem walkTable_ended (hw : s.walk = none) :
    WalkEnded ((walkTable s la kind mode aE e).finish .translation) := by
  rcases ht : readEntry s (pteAddr s.cfg e la) with _ | t
  · rw [walkTable_outside ht]
    exact walkEnded_refused _
  · cases htp : entryP t with
    | false => rw [walkTable_notPresent ht htp]; exact walkFaultPast_ended hw _ _
    | true => rw [walkTable_present ht htp]; exact use4K_ended hw

section
variable (hf : s.faulted = false) (hx : noExternalFirst s = true) (hw : s.walk = none)

include hf hx in
theorem step_walking (la : Word) (kind : AccessKind) (mode : AccessMode) (stage : Stage) :
    step (s.walking la kind mode stage) = walkStep ⟨la, kind, mode, stage⟩ (s.walking la kind mode stage) :=
  (step_of_not_faulted (s := s.walking la kind mode stage) hf).trans
    (runStep_of_walk (s := s.walking la kind mode stage) rfl hx)

include hf hx hw

theorem finishWalk_table : finishWalk (n + 1) (s.walking la kind mode (.table aE e (pteAddr s.cfg e la))) =
    (walkTable s la kind mode aE e).finish .translation :=
  finishWalk_ends rfl ((step_walking hf hx la kind mode _).trans (walkStep_table hw)) (walkTable_ended hw)

/-- From the page-directory entry on: the walk ends there, or goes on to the page-table entry. -/
theorem finishWalk_directory : finishWalk (n + 2) (s.walking la kind mode (.directory (pdeAddr s.cfg p la))) =
    (walkDirectory s la kind mode p).finish .translation := by
  have hstep := step_walking hf hx la kind mode (.directory (pdeAddr s.cfg p la))
  have hs := walking_walk_none hw la kind mode (.directory (pdeAddr s.cfg p la))
  have hread : readEntry (s.walking la kind mode (.directory (pdeAddr s.cfg p la))) (pdeAddr s.cfg p la) =
      readEntry s (pdeAddr s.cfg p la) := rfl
  simp only [walkStep, hread] at hstep
  rcases he : readEntry s (pdeAddr s.cfg p la) with _ | e <;> simp only [he] at hstep
  · rw [walkDirectory_outside he]
    exact finishWalk_ends rfl hstep (walkEnded_refused _)
  cases hep : entryP e with
  | false =>
    rw [decodePde_notPresent hep, exec_pdeNotPresent_inWalk rfl, hs] at hstep
    rw [walkDirectory_notPresent he hep]
    exact finishWalk_ends rfl hstep (walkFault_ended hw _ _)
  | true =>
    cases hps : entryPS e with
    | true =>
      rw [decodePde_page hep hps, exec_pde2M_inWalk rfl, hs] at hstep
      rw [walkDirectory_pde2M he hep hps]
      exact finishWalk_ends rfl hstep (use2M_ended hw)
    | false =>
      rw [decodePde_table hep hps] at hstep
      cases hr : rsvdPdePT s.cfg s.nxe e with
      | true =>
        rw [exec_pdePT_inWalk_reserved (s := s.walking ..) rfl hr, hs] at hstep
        rw [walkDirectory_pdePT_reserved he hep hps hr]
        exact finishWalk_ends rfl hstep (walkFault_ended hw _ _)
      | false =>
        rw [exec_pdePT_inWalk_good (s := s.walking ..) rfl hr] at hstep
        rw [walkDirectory_pdePT he hep hps hr]
        exact (finishWalk_goesOn rfl hstep).trans (finishWalk_table hf hx hw)

/-- From the PDPTE register on: the walk ends there, or goes on to the page-directory entry. -/
theorem finishWalk_register : finishWalk (n + 3) (s.walking la kind mode .pdptr) =
    (walkRegister s la kind mode).finish .translation := by
  have hstep := step_walking hf hx la kind mode .pdptr
  have hs := walking_walk_none hw la kind mode .pdptr
  have hread : (s.walking la kind mode .pdptr).pdpte = s.pdpte := rfl
  simp only [walkStep, hread] at hstep
  rcases hp : s.pdpte.select (laPdpteIndex la) with _ | p <;> simp only [hp] at hstep
  · simp only [walkRegister, hp]
    exact finishWalk_ends rfl hstep (walkEnded_fault _)
  cases hpp : entryP p with
  | false =>
    rw [decodePdpte_notPresent hpp, exec_pdpteNotPresent_inWalk rfl, hs] at hstep
    rw [walkRegister_notPresent hp hpp]
    exact finishWalk_ends rfl hstep (walkFault_ended hw _ _)
  | true =>
    rw [decodePdpte_present hpp, exec_pdpte_inWalk rfl] at hstep
    rw [walkRegister_present hp hpp]
    exact (finishWalk_goesOn rfl hstep).trans (finishWalk_directory hf hx hw)

end

/-- Settles O33: the three moves from the PDPTE register on. -/
theorem entryByEntryWalkIsTranslate : Obligations.EntryByEntryWalkIsTranslate := by
  unfold Obligations.EntryByEntryWalkIsTranslate
  intro s la kind mode hf hx hw hpae hcet
  rw [exec_translate_paging hpae hcet]
  exact finishWalk_register (n := 0) hf hx hw

end Sys2Proof.Machine
end

section
/-! PROOF. AccessBytes: the bytes that a read or fetch answers and that a write leaves, for pieces that lie in memory and
inside one 4-KByte range (41_translation.md R106 to R108). -/

namespace Sys2Proof.Machine

open Sys2Proof.Safety

variable {s s1 u : State} {la : Word} {kind : AccessKind} {mode : AccessMode} {n v : Nat} {ps : List Piece}
  {tr : Translation}

/-! ## Reads and fetches -/

/-- What LinRead and LinFetch come to when the chunks translate to pieces in RAM (R106, R108). -/
theorem linLoad_finish_of_pieces (h : translateChunks kind mode (chunks la n) s = .done ps s1)
    (hr : piecesInRam s1 ps = true) :
    ((linLoad kind la n mode s).finish fun bs => .value n (leNat bs)) =
      .next { s1 with answer := .value n (leNat (ps.flatMap fun p => s1.mem.readBytes p.pa.toNat p.len)) } := by
  simp only [linLoad, h, Access.bind, readPieces_of_inRam hr, Access.finish]

/-- Settles O39: the bytes of the pieces, read after the translations. -/
theorem linReadAndLinFetchValue : Obligations.LinReadAndLinFetchValue := by
  unfold Obligations.LinReadAndLinFetchValue
  exact fun s s1 la n mode ps _ => ⟨linLoad_finish_of_pieces, linLoad_finish_of_pieces⟩

/-- `w` is the number that the `n` bytes of `m` from `a` up spell, lowest address in the low bits (R41). -/
def SpellsBytes (m : Memory) (a n w : Nat) : Prop :=
  w < 256 ^ n ∧ ∀ k, k < n → BitVec.ofNat 8 (w / 256 ^ k) = m.read (a + k)

theorem spellsBytes_readBytes (m : Memory) (a n : Nat) : SpellsBytes m a n (leNat (m.readBytes a n)) := by
  refine ⟨?_, fun k hk => ofNat_leNat_div _ (Memory.getElem?_readBytes m a n k hk)⟩
  have hlt := leNat_lt (m.readBytes a n)
  rwa [Memory.length_readBytes] at hlt

/-- The one piece of an access inside one 4-KByte range lies in RAM after the translation as before it. -/
theorem piecesInRam_one (h : linTranslate la kind mode s = .done tr u) (hr : inRam s.cfg tr.pa.toNat n = true) :
    piecesInRam u [⟨tr.pa, n⟩] = true := by
  rw [← (translate_done_flagsOnly h).cfg] at hr
  simp [piecesInRam, hr]

/-- A read or fetch inside one 4-KByte range has one piece. -/
theorem linLoad_finish_inOneRange (h1 : 1 ≤ n) (h2 : la.toNat % 4096 + n ≤ 4096)
    (h : linTranslate la kind mode s = .done tr u) (hr : inRam s.cfg tr.pa.toNat n = true) :
    ∃ w, ((linLoad kind la n mode s).finish fun bs => .value n (leNat bs)) = .next { u with answer := .value n w } ∧
      SpellsBytes u.mem tr.pa.toNat n w := by
  refine ⟨leNat (u.mem.readBytes tr.pa.toNat n), ?_, spellsBytes_readBytes _ _ _⟩
  rw [linLoad_finish_of_pieces (translateChunks_one h1 h2 h) (piecesInRam_one h hr), List.flatMap_singleton]

/-- Settles O40: the access has one piece, at the address that Translate answers. -/
theorem linReadAndLinFetchInOnePage : Obligations.LinReadAndLinFetchInOnePage := by
  unfold Obligations.LinReadAndLinFetchInOnePage
  intro s s1 la n mode tr h1 h2 ha hr
  refine ⟨fun h => ?_, fun h => ?_⟩ <;> obtain ⟨u, hd, rfl⟩ := execTranslate_eq_translation h ha <;>
    exact linLoad_finish_inOneRange (u := u) h1 h2 hd hr

/-! ## Writes -/

/-- The memory that a write of the low `8n` bits of `v` over pieces leaves (R107). -/
def storedOver (m : Memory) (ps : List Piece) (n v : Nat) : Memory :=
  writeAll m ((pieceAddresses ps).zip (leBytes n v))

theorem piecesLength_of_chunks (h : translateChunks kind mode (chunks la n) s = .done ps s1) :
    piecesLength ps = n := by
  rw [piecesLength, translateChunks_lengths h, chunks_lengths]

theorem linStore_of_pieces (h : translateChunks .write mode (chunks la n) s = .done ps s1)
    (hr : piecesInRam s1 ps = true) :
    linStore la n v mode s = .done () { s1 with mem := storedOver s1.mem ps n v } := by
  have hlen : (leBytes n v).length = piecesLength ps := (length_leBytes n v).trans (piecesLength_of_chunks h).symm
  rw [linStore, h]
  exact writePieces_of_inRam hr hlen

section
variable {pre post : List Piece} {p : Piece} {j k : Nat}

/-- The addresses from the first byte of a piece on: its own, and then those of the later pieces. -/
theorem getElem?_pieceAddresses_add (pre post : List Piece) (p : Piece) (k : Nat) :
    (pieceAddresses (pre ++ p :: post))[piecesLength pre + k]? =
      ((List.range p.len).map (p.pa.toNat + ·) ++ pieceAddresses post)[k]? := by
  have hsplit : pieceAddresses (pre ++ p :: post) =
      pieceAddresses pre ++ ((List.range p.len).map (p.pa.toNat + ·) ++ pieceAddresses post) := by
    simp [pieceAddresses]
  rw [hsplit, ← length_pieceAddresses, List.getElem?_append_right (Nat.le_add_right _ _), Nat.add_sub_cancel_left]

/-- Byte `k` of a piece has the place after all bytes of the pieces before it. -/
theorem getElem?_pieceAddresses (hk : k < p.len) :
    (pieceAddresses (pre ++ p :: post))[piecesLength pre + k]? = some (p.pa.toNat + k) := by
  rw [getElem?_pieceAddresses_add, List.getElem?_append_left (by simpa using hk)]
  simp [hk]

/-- After byte `k` of a piece come its later bytes and the bytes of the later pieces. -/
theorem pieceAddresses_after_ne (hl : ∀ q ∈ post, ¬Covers q (p.pa.toNat + k)) (hkj : k < j) {a : Nat}
    (ha : (pieceAddresses (pre ++ p :: post))[piecesLength pre + j]? = some a) : a ≠ p.pa.toNat + k := by
  by_cases hj : j < p.len
  · rw [getElem?_pieceAddresses hj] at ha
    have := Option.some.inj ha
    omega
  · rw [getElem?_pieceAddresses_add, List.getElem?_append_right (by simpa using hj)] at ha
    obtain ⟨q, hq, hcov⟩ := mem_pieceAddresses.mp (List.mem_of_getElem? ha)
    exact fun hak => hl q hq (hak ▸ hcov)

/-- A byte of a piece that no later piece covers holds its byte of the value: its write there is the last. -/
theorem read_storedOver {m : Memory} (hm : m.wf = true) (hn : piecesLength (pre ++ p :: post) = n)
    (hk : k < p.len) (hl : ∀ q ∈ post, ¬Covers q (p.pa.toNat + k)) :
    (storedOver m (pre ++ p :: post) n v).read (p.pa.toNat + k) =
      BitVec.ofNat 8 (v / 256 ^ (piecesLength pre + k)) := by
  have hlt : piecesLength pre + k < n := by
    simp only [piecesLength, List.map_append, List.map_cons, List.sum_append, List.sum_cons] at hn ⊢
    omega
  refine read_writeAll_last hm _ (piecesLength pre + k) _ _
    (List.getElem?_zip_eq_some.mpr ⟨getElem?_pieceAddresses hk, leBytes_getElem? n v _ hlt⟩) fun i c hi hc => ?_
  obtain ⟨j, rfl⟩ := Nat.exists_eq_add_of_lt hi
  obtain ⟨hc, -⟩ := List.getElem?_zip_eq_some.mp hc
  rw [Nat.add_assoc, Nat.add_assoc] at hc
  exact pieceAddresses_after_ne hl (by omega) hc

end

theorem read_storedOver_other {m : Memory} {a : Nat} (h : ∀ p ∈ ps, ¬Covers p a) :
    (storedOver m ps n v).read a = m.read a := by
  refine read_writeAll_other _ _ _ fun c hc hca => ?_
  obtain ⟨p, hp, hcov⟩ := mem_pieceAddresses.mp (List.of_mem_zip hc).1
  exact h p hp (hca ▸ hcov)

theorem exec_linWrite_of_done (h : linStore la n v mode s = .done () u) :
    exec (.linWrite la n v mode) s = .next { u with answer := .done } := by
  simp only [exec, execLinWrite, h, Access.finish]

/-- Settles O44: the pieces' bytes written in order after the translations. -/
theorem linWriteStoresItsBytes : Obligations.LinWriteStoresItsBytes := by
  unfold Obligations.LinWriteStoresItsBytes
  intro s s1 la n v mode ps hm _ h hr
  have hm1 : s1.mem.wf = true := (translateChunks_done_flagsOnly h).2.1 hm
  refine ⟨storedOver s1.mem ps n v, exec_linWrite_of_done (linStore_of_pieces h hr), wf_writeAll hm1 _,
    fun pre post p k hps hk hl => ?_, fun a ha => read_storedOver_other ha⟩
  subst hps
  exact read_storedOver hm1 (piecesLength_of_chunks h) hk hl

/-- `m` is `m₀` but for the `n` bytes from `a` up, which hold those of `v` (R107). -/
def HoldsBytes (m₀ m : Memory) (a n v : Nat) : Prop :=
  m.wf = true ∧ (∀ k, k < n → m.read (a + k) = BitVec.ofNat 8 (v / 256 ^ k)) ∧
  ∀ b, b < a ∨ a + n ≤ b → m.read b = m₀.read b

/-- A write inside one 4-KByte range has one piece. -/
theorem exec_linWrite_inOneRange (hm : s.mem.wf = true) (h1 : 1 ≤ n) (h2 : la.toNat % 4096 + n ≤ 4096)
    (h : linTranslate la .write mode s = .done tr u) (hr : inRam s.cfg tr.pa.toNat n = true) :
    ∃ m, exec (.linWrite la n v mode) s = .next { u with mem := m, answer := .done } ∧
      HoldsBytes u.mem m tr.pa.toNat n v := by
  have hchunks := translateChunks_one h1 h2 h
  have hmu : u.mem.wf = true := (translate_done_flagsOnly h).2.1 hm
  refine ⟨storedOver u.mem [⟨tr.pa, n⟩] n v,
    exec_linWrite_of_done (linStore_of_pieces hchunks (piecesInRam_one h hr)), wf_writeAll hmu _,
    fun k hk => ?_, fun b hb => read_storedOver_other fun p hp hcov => ?_⟩
  · have hbyte := read_storedOver (v := v) (pre := []) (post := []) hmu (piecesLength_of_chunks hchunks) hk nofun
    rwa [show piecesLength [] + k = k from Nat.zero_add k] at hbyte
  · obtain rfl := List.mem_singleton.mp hp
    obtain ⟨hlo, hhi⟩ := hcov
    dsimp only at hlo hhi
    omega

/-- Settles O42: the one piece lies at the address that Translate answers. -/
theorem linWriteInOnePage : Obligations.LinWriteInOnePage := by
  unfold Obligations.LinWriteInOnePage
  intro s s1 la n v mode tr hm h1 h2 h ha hr
  obtain ⟨u, hd, rfl⟩ := execTranslate_eq_translation h ha
  exact exec_linWrite_inOneRange (u := u) hm h1 h2 hd hr

/-! ## Through a page table -/

/-- Settles O43: the translation is done through the page table, and the access has one piece in the PTE's page. -/
theorem accessesThrough4KPage : Obligations.AccessesThrough4KPage := by
  unfold Obligations.AccessesThrough4KPage
  intro s la kind n v mode p e t m hm h1 h2 hpae hcet hp hpp he hep hps hr ht htp htr hrt hram hmem
  subst hmem
  have hd := (translate_eq_walkDirectory hpae hcet hp hpp).trans
    (walkDirectory_of_done4K he hep ⟨hps, hr, ht, htp, htr, hrt, rfl, rfl⟩)
  refine ⟨?_, ?_, ?_⟩ <;> rintro rfl
  · exact linLoad_finish_inOneRange h1 h2 hd hram
  · exact linLoad_finish_inOneRange h1 h2 hd hram
  · exact exec_linWrite_inOneRange hm h1 h2 hd hram

end Sys2Proof.Machine
end

section
/-! PROOF. Exceptions: the page-fault error code bit by bit, general protection as an end that changes nothing, and
another agent's write as a change of memory alone (60_exceptions.md R112, R117, R125). -/

namespace Sys2Proof.Machine

open Sys2Proof.Safety

variable {i : Instr} {s t u : State}

/-! ## The error code -/

theorem getLsbD_flagBit (b : Bool) {n : Nat} (hn : n < 32) (j : Nat) :
    (flagBit b n).getLsbD j = (decide (j = n) && b) := by
  cases b with
  | false => simp [flagBit]
  | true =>
    have hbit : (flagBit true n).getLsbD j = (BitVec.twoPow 32 n).getLsbD j := rfl
    rw [hbit, BitVec.getLsbD_twoPow, decide_eq_true hn, Bool.true_and, Bool.and_true]
    exact decide_eq_decide.mpr eq_comm

/-- Settles O24: a bit is that of the one flag with its number. -/
theorem pageFaultErrorCodeBits : Obligations.PageFaultErrorCodeBits := by
  unfold Obligations.PageFaultErrorCodeBits
  intro s p rsvd kind mode j
  simp only [pageFaultErrorCode, BitVec.getLsbD_or, getLsbD_flagBit _ (show 0 < 32 by decide),
    getLsbD_flagBit _ (show 1 < 32 by decide), getLsbD_flagBit _ (show 2 < 32 by decide),
    getLsbD_flagBit _ (show 3 < 32 by decide), getLsbD_flagBit _ (show 4 < 32 by decide)]
  match j with
  | 0 => simp
  | 1 => simp
  | 2 => simp
  | 3 => simp
  | 4 => simp [cr4SMEP, State.nxe, eferNXE]
  | j + 5 => simp

/-! ## General protection -/

/-- `t` is `s` with general protection handed over and nothing else changed, or its outcome is the old one or no
exception of vector 13. -/
def ProtectedOrOther (s t : State) : Prop :=
  t = generalProtected s ∨ t.answer = s.answer ∨ ∀ ec, t.answer ≠ .exception 13 ec

theorem ProtectedOrOther.of_done (h : t.answer = .done) : ProtectedOrOther s t :=
  .inr (.inr fun ec => by rw [h]; nofun)

theorem ProtectedOrOther.of_answer {a : Answer} (h : t = { u with answer := a }) (ha : ∀ ec, a ≠ .exception 13 ec) :
    ProtectedOrOther s t := .inr (.inr (by rwa [h]))

theorem ProtectedOrOther.of_pageFault {ec la : Word} (h : t = takePageFault ec la u) : ProtectedOrOther s t :=
  .of_answer h (by simp)

theorem EntryMove.protectedOrOther (h : EntryMove s t) : ProtectedOrOther s t := by
  cases h with
  | unread ht => exact .inr (.inl (by rw [ht]))
  | goesOn w stage hw hp ht => exact .inr (.inl (by rw [ht]))
  | translated w u tr hw hu ht => exact .of_answer ht nofun
  | pageFaulted w u ec hw hu ht => exact .of_pageFault ht

theorem linLoad_protectedOrOther {kind : AccessKind} {la : Word} {n : Nat} {mode : AccessMode}
    (h : ((linLoad kind la n mode s).finish fun bs => .value n (leNat bs)) = .next t) : ProtectedOrOther s t := by
  obtain ⟨u, -, ⟨bs, -, ht⟩ | ⟨ec, f, -, ht⟩⟩ := linLoad_eq_next h
  · exact .of_answer ht nofun
  · exact .of_pageFault ht

theorem moveFrom_protectedOrOther {r : Reg} {v : Word} (h : privileged s (moveToGpr r v) = .next t) :
    ProtectedOrOther s t := by
  rcases privileged_moveToGpr_eq_next h with ht | ⟨-, ht⟩
  · exact .inl ht
  · exact .of_done (by rw [ht])

theorem exec_protectedOrOther (h : exec i s = .next t) : ProtectedOrOther s t := by
  cases i with
  | pdpteNotPresent e => exact (execPdpteNotPresent_entryMove e h).protectedOrOther
  | pdpte e => exact (execPdpte_entryMove h).protectedOrOther
  | pdeNotPresent e => exact (execPdeNotPresent_entryMove e h).protectedOrOther
  | pde2M e => exact (execPde2M_entryMove h).protectedOrOther
  | pdePT e => exact (execPdePT_entryMove h).protectedOrOther
  | pteNotPresent e => exact (execPteNotPresent_entryMove e h).protectedOrOther
  | pte4K e => exact (execPte4K_entryMove h).protectedOrOther
  | linearAddress4K la => exact .of_answer (Host.Outcome.next.inj h).symm nofun
  | linearAddress2M la => exact .of_answer (Host.Outcome.next.inj h).symm nofun
  | cr3Pae v => exact .of_answer (Host.Outcome.next.inj h).symm nofun
  | movToCR0 src =>
    rcases execMovToCR0_eq_next h with ht | ⟨-, -, ⟨-, -, -, ht⟩ | ⟨-, ht⟩⟩
    · exact .inl ht
    · exact .of_done (by rw [ht])
    · exact .of_done (by rw [ht])
  | movToCR3 src =>
    rcases execMovToCR3_eq_next h with ht | ⟨-, ⟨-, -, ht⟩ | ⟨-, ht⟩⟩
    · exact .inl ht
    · exact .of_done (by rw [ht])
    · exact .of_done (by rw [ht])
  | movToCR4 src =>
    rcases execMovToCR4_eq_next h with ht | ⟨-, -, ⟨-, -, -, ht⟩ | ⟨-, ht⟩⟩
    · exact .inl ht
    · exact .of_done (by rw [ht])
    · exact .of_done (by rw [ht])
  | movFromCR0 r => exact moveFrom_protectedOrOther h
  | movFromCR2 r => exact moveFrom_protectedOrOther h
  | movFromCR3 r => exact moveFrom_protectedOrOther h
  | movFromCR4 r => exact moveFrom_protectedOrOther h
  | loadPDPTEs =>
    rcases execLoadPDPTEs_eq_next h with ht | ⟨-, ht⟩
    · exact .inl ht
    · exact .of_done (by rw [ht])
  | taskSwitchCR3 v =>
    obtain ⟨d, ⟨-, -, ht⟩ | ⟨-, ht⟩⟩ := execTaskSwitchCR3_eq_next h
    · exact .of_done (by rw [ht])
    · exact .of_done (by rw [ht])
  | translate la kind mode =>
    obtain ⟨u, -, ⟨tr, -, ht⟩ | ⟨ec, -, ht⟩⟩ := execTranslate_eq_next h
    · exact .of_answer ht nofun
    · exact .of_pageFault ht
  | linRead la n mode => exact linLoad_protectedOrOther h
  | linWrite la n v mode =>
    obtain ⟨u, -, ⟨ps, w, -, -, -, -, -, ht⟩ | ⟨ec, f, -, ht⟩⟩ := execLinWrite_eq_next h
    · exact .of_done (by rw [ht])
    · exact .of_pageFault ht
  | linFetch la n mode => exact linLoad_protectedOrOther h
  | setEFER v =>
    rcases execSetEFER_eq_next h with ht | ⟨-, -, ht⟩
    · exact .inl ht
    · exact .of_done (by rw [ht])
  | setAC b => exact .of_done (by rw [← Host.Outcome.next.inj h])

/-- Settles O49: after `done`, an outcome of vector 13 is not the old one. -/
theorem generalProtectionChangesNothing : Obligations.GeneralProtectionChangesNothing := by
  unfold Obligations.GeneralProtectionChangesNothing
  intro i s t ec h ha hs
  rcases exec_protectedOrOther h with rfl | hold | hother
  · obtain ⟨-, hec⟩ := Answer.exception.inj ha
    exact ⟨hec.symm, rfl⟩
  · rw [hs, ha] at hold
    cases hold
  · exact absurd ha (hother ec)

/-! ## Other agents -/

/-- An event that heads the queue of a run that has not ended runs, a walk in progress or not, when it comes from
outside. -/
theorem step_of_external {ev : Event} {rest : List Event} (hf : s.faulted = false) (he : s.events = ev :: rest)
    (hx : ev.external = true) : step s = runEvent ev { s with events := rest } :=
  (step_of_not_faulted hf).trans (runStep_of_event he (.inr hx))

theorem agentWrite_of_inRam {pa : Nat} {bs : List Byte} (hr : inRam s.cfg pa bs.length = true) :
    agentWrite pa bs s = .next { s with mem := s.mem.writeBytes pa bs } := if_pos hr

/-- Settles O52: the event runs whether a walk is in progress or not, and its write is one block of bytes. -/
theorem otherAgentsWriteMemoryOnly : Obligations.OtherAgentsWriteMemoryOnly := by
  unfold Obligations.OtherAgentsWriteMemoryOnly
  intro s pa bs rest hm hf he hr
  refine ⟨s.mem.writeBytes pa bs, (step_of_external hf he rfl).trans (agentWrite_of_inRam hr),
    Memory.wf_writeBytes hm pa bs, fun k hk => ?_, Memory.read_writeBytes_outside s.mem pa bs⟩
  rw [Memory.read_writeBytes_inside hm pa bs k hk, List.getElem?_eq_getElem hk]

end Sys2Proof.Machine
end

section
/-! PROOF. Speculation: the entry a speculative walk names has its A flag set, and no byte changes in another bit
(70_reset_and_hazards.md R132; log 15). -/

namespace Sys2Proof.Machine

open Sys2Proof.Safety

variable {s : State} {la : Word} {p e t : Quad} {a : Nat} {table : Bool}

/-! ## The entries of a path, by their place on it -/

theorem pathAddresses_first (h : (pathAddresses s la)[0]? = some a) :
    ∃ p, s.pdpte.select (laPdpteIndex la) = some p ∧ entryP p = true ∧ a = (pdeAddr s.cfg p la).toNat := by
  unfold pathAddresses at h
  split at h
  · cases h
  next p hp =>
  split at h
  · cases h
  next hpp =>
  refine ⟨p, hp, by simpa using hpp, ?_⟩
  dsimp only at h
  split at h <;> exact (Option.some.inj h).symm

theorem pathAddresses_second (h : (pathAddresses s la)[1]? = some a) :
    ∃ p e, s.pdpte.select (laPdpteIndex la) = some p ∧ entryP p = true ∧
      e = s.mem.readQuad (pdeAddr s.cfg p la).toNat ∧ entryP e = true ∧ entryPS e = false ∧
      rsvdPdePT s.cfg s.nxe e = false ∧ a = (pteAddr s.cfg e la).toNat := by
  unfold pathAddresses at h
  split at h
  · cases h
  next p hp =>
  split at h
  · cases h
  next hpp =>
  dsimp only at h
  split at h
  · next he =>
    simp only [Bool.and_eq_true, Bool.not_eq_true'] at he
    obtain ⟨⟨hep, hps⟩, hr⟩ := he
    exact ⟨p, _, hp, by simpa using hpp, rfl, hep, hps, hr, (Option.some.inj h).symm⟩
  · cases h

/-! ## What a speculative walk sets -/

section
variable (hpae : s.paeInUse = true) (hcet : cr4CET s.cr4 = false) (hp : s.pdpte.select (laPdpteIndex la) = some p)
  (hpp : entryP p = true) (he : readEntry s (pdeAddr s.cfg p la) = some e) (hep : entryP e = true)
include hpae hcet hp hpp he hep

theorem speculate_directory : s.speculate la false = s.setAD (pdeAddr s.cfg p la) false := by
  simp [State.speculate, hpae, hcet, hp, hpp, he, hep]

theorem speculate_table (hps : entryPS e = false) (hr : rsvdPdePT s.cfg s.nxe e = false)
    (ht : readEntry s (pteAddr s.cfg e la) = some t) (htp : entryP t = true) :
    s.speculate la true = s.setAD (pteAddr s.cfg e la) false := by
  simp [State.speculate, hpae, hcet, hp, hpp, he, hep, hps, hr, ht, htp]

end

/-- With its path in RAM, a speculative walk sets A in the entry it names, if that is present (R132). -/
theorem speculate_mem_of_path (hpae : s.paeInUse = true) (hcet : cr4CET s.cr4 = false)
    (ha : (pathAddresses s la)[if table then 1 else 0]? = some a)
    (hram : ∀ a' ∈ pathAddresses s la, inRam s.cfg a' 8 = true) (hap : entryP (s.mem.readQuad a) = true) :
    (s.speculate la table).mem = s.mem.setAD a false := by
  cases table with
  | false =>
    obtain ⟨p, hp, hpp, rfl⟩ := pathAddresses_first ha
    have he := readEntry_of_inRam (hram _ (pdeAddr_mem_path hp hpp))
    rw [speculate_directory hpae hcet hp hpp he hap]
    rfl
  | true =>
    obtain ⟨p, e, hp, hpp, rfl, hep, hps, hr, rfl⟩ := pathAddresses_second ha
    have he := readEntry_of_inRam (hram _ (pdeAddr_mem_path hp hpp))
    have ht := readEntry_of_inRam (hram _ (pteAddr_mem_path hp hpp he hep hps hr))
    rw [speculate_table hpae hcet hp hpp he hep hps hr ht hap]
    rfl

theorem speculate_mem_cases (s : State) (la : Word) (table : Bool) :
    (s.speculate la table).mem = s.mem ∨
    ∃ a ∈ pathAddresses s la, inRam s.cfg a 8 = true ∧ entryP (s.mem.readQuad a) = true ∧
      (s.speculate la table).mem = s.mem.setAD a false := by
  rcases speculate_cases s la table with h | ⟨a, ha, hr, hp, h⟩
  · exact .inl (congrArg State.mem h)
  · exact .inr ⟨a.toNat, ha, hr, hp, congrArg State.mem h⟩

theorem speculate_eq_withMem (s : State) (la : Word) (table : Bool) :
    s.speculate la table = { s with mem := (s.speculate la table).mem } := by
  rcases speculate_cases s la table with h | ⟨a, -, -, -, h⟩
  · rw [h]
  · rw [h]; rfl

/-! ## Bytes -/

/-- Setting A changes no byte in another bit than 5 (R104). -/
theorem read_setAD_or_accessed {m : Memory} (hm : m.wf = true) (a b : Nat) :
    (m.setAD a false).read b ||| 0x20 = m.read b ||| 0x20 := by
  rw [Memory.read_setAD hm]
  split
  · next h => simp [h, BitVec.or_assoc]
  · rfl

theorem speculate_mem_read_or_accessed (hm : s.mem.wf = true) (b : Nat) :
    (s.speculate la table).mem.read b ||| 0x20 = s.mem.read b ||| 0x20 := by
  rcases speculate_mem_cases s la table with h | ⟨a, -, -, -, h⟩ <;> rw [h]
  exact read_setAD_or_accessed hm a b

/-! ## The step -/

theorem step_speculate {rest : List Event} (hf : s.faulted = false) (he : s.events = .speculate la table :: rest) :
    step s = .next
      { s with events := rest, mem := (State.speculate { s with events := rest } la table).mem } := by
  rw [step_of_external hf he rfl, runEvent, speculate_eq_withMem]

/-- Settles O51: the event runs in the state with the queue advanced, whose path and entries are those of `s`. -/
theorem speculationSetsOnlyAccessedFlags : Obligations.SpeculationSetsOnlyAccessedFlags := by
  unfold Obligations.SpeculationSetsOnlyAccessedFlags
  intro s la table rest hf he
  exact ⟨_, step_speculate hf he, speculate_mem_cases _ la table,
    fun hm => ⟨(flagsOnly_speculate _ la table).2.1 hm, speculate_mem_read_or_accessed hm⟩,
    fun hpae hcet a ha hram hap => speculate_mem_of_path hpae hcet ha hram hap⟩

end Sys2Proof.Machine
end

section
/-! PROOF. UnloadedRegisters: reset leaves the PDPTE registers unloaded, a translation that selects one faults, and no
step from a state with the invariant does (70_reset_and_hazards.md R126, R127, R129). -/

namespace Sys2Proof.Machine

open Sys2Proof.Safety

variable {s : State} {la : Word} {kind : AccessKind} {mode : AccessMode}

/-! ## Reset and the unloaded registers -/

/-- Settles O1: the values of the reset state, and paging off in it. -/
theorem resetRegistersAndIdentity : Obligations.ResetRegistersAndIdentity := by
  unfold Obligations.ResetRegistersAndIdentity
  exact ⟨rfl, rfl, rfl, rfl, rfl, rfl, by decide, rfl, fun la kind mode =>
    (pagingOffTranslatesToItself State.reset la kind mode (by decide)).1⟩

theorem walkRegister_unloaded (hp : s.pdpte.select (laPdpteIndex la) = none) :
    walkRegister s la kind mode = .stuck .unloadedPdpte := by
  simp [walkRegister, hp]

/-- Settles O2: the walk ends at the register it selects. -/
theorem unloadedPdpteRegisterFaults : Obligations.UnloadedPdpteRegisterFaults := by
  unfold Obligations.UnloadedPdpteRegisterFaults
  refine ⟨rfl, fun s la kind mode hpae hcet hp => ?_⟩
  rw [exec_translate_paging hpae hcet, walkRegister_unloaded hp]
  rfl

/-! ## Accesses that do not stop -/

/-- The access does not stop with a fault of the machine. -/
def Access.Unstuck {α : Type} (x : Access α) : Prop := ∀ f, x ≠ .stuck f

/-- The outcome is no fault of the machine. -/
def NoFault (o : Host.Outcome State Fault Refusal) : Prop := ∀ f, o ≠ .fault f

theorem noFault_next (s : State) : NoFault (.next s) := nofun

theorem noFault_refused (r : Refusal) : NoFault (.refused r) := nofun

theorem Access.Unstuck.finish {α : Type} {x : Access α} (h : x.Unstuck) (g : α → Answer) : NoFault (x.finish g) := by
  cases x with
  | done a s => exact noFault_next _
  | pageFault ec la s => exact noFault_next _
  | stuck f => exact absurd rfl (h f)
  | refused r => exact noFault_refused r

theorem Access.Unstuck.bind {α β : Type} {x : Access α} {g : α → State → Access β} (h : x.Unstuck)
    (hg : ∀ a s, x = .done a s → (g a s).Unstuck) : (x.bind g).Unstuck := by
  cases x with
  | done a s => exact hg a s rfl
  | pageFault ec la s => exact nofun
  | stuck f => exact absurd rfl (h f)
  | refused r => exact nofun

theorem select_ne_none_of_loaded (h : pdptesLoaded s = true) (i : BitVec 2) : s.pdpte.select i ≠ none := by
  have hall : ∀ r ∈ [s.pdpte.p0, s.pdpte.p1, s.pdpte.p2, s.pdpte.p3], r ≠ none := by
    rintro r hr rfl
    exact Bool.false_ne_true (List.all_eq_true.mp h none hr)
  unfold Pdptes.select
  split <;> exact hall _ (by simp)

theorem translate_unstuck (hs : Inv s) : (linTranslate la kind mode s).Unstuck := by
  intro f h
  obtain ⟨-, hpae, hp⟩ := translate_eq_stuck h
  exact select_ne_none_of_loaded (hs.loaded hpae) _ hp

theorem translateChunks_unstuck {cs : List Chunk} (hs : Inv s) : (translateChunks kind mode cs s).Unstuck := by
  induction cs generalizing s with
  | nil => exact nofun
  | cons c cs ih =>
    refine (translate_unstuck hs).bind fun tr u hd => ?_
    exact (ih (hs.of_flagsOnly (translate_done_flagsOnly hd))).bind fun _ _ _ => nofun

theorem readPieces_unstuck (ps : List Piece) (s : State) : (readPieces ps s).Unstuck := by
  induction ps with
  | nil => exact nofun
  | cons p ps ih =>
    unfold readPieces
    split
    · exact ih.bind fun _ _ _ => nofun
    · exact nofun

theorem writePieces_unstuck (ps : List Piece) (bs : List Byte) (s : State) : (writePieces ps bs s).Unstuck := by
  induction ps generalizing bs s with
  | nil => exact nofun
  | cons p ps ih =>
    unfold writePieces
    split
    · exact ih _ _
    · exact nofun

theorem linLoad_unstuck (hs : Inv s) {n : Nat} : (linLoad kind la n mode s).Unstuck :=
  (translateChunks_unstuck hs).bind fun ps u _ => readPieces_unstuck ps u

theorem linStore_unstuck (hs : Inv s) {n v : Nat} : (linStore la n v mode s).Unstuck :=
  (translateChunks_unstuck hs).bind fun ps u _ => writePieces_unstuck ps _ u

theorem use2M_unstuck {aE e : Quad} : (use2M s la kind mode aE e).Unstuck := by
  rcases use2M_eq (s := s) (la := la) (kind := kind) (mode := mode) (aE := aE) (e := e) with ⟨tr, h⟩ | ⟨ec, h⟩ <;>
    rw [h] <;> exact nofun

theorem use4K_unstuck {aE e aT q : Quad} : (use4K s la kind mode aE e aT q).Unstuck := by
  rcases use4K_eq (s := s) (la := la) (kind := kind) (mode := mode) (aE := aE) (e := e) (aT := aT) (q := q)
    with ⟨tr, h⟩ | ⟨ec, h⟩ <;> rw [h] <;> exact nofun

/-! ## Rows that do not fault -/

theorem execPdpteNotPresent_noFault (e : Quad) (s : State) : NoFault (execPdpteNotPresent e s) := by
  unfold execPdpteNotPresent
  split <;> exact noFault_next _

theorem execPdpte_noFault (e : Quad) (s : State) : NoFault (execPdpte e s) := by
  unfold execPdpte
  split <;> exact noFault_next _

theorem execPdeNotPresent_noFault (e : Quad) (s : State) : NoFault (execPdeNotPresent e s) := by
  unfold execPdeNotPresent
  split <;> exact noFault_next _

theorem execPde2M_noFault (e : Quad) (s : State) : NoFault (execPde2M e s) := by
  unfold execPde2M
  split
  · exact use2M_unstuck.finish _
  · exact noFault_next _

theorem execPdePT_noFault (e : Quad) (s : State) : NoFault (execPdePT e s) := by
  unfold execPdePT
  split
  · split <;> exact noFault_next _
  · exact noFault_next _

theorem execPteNotPresent_noFault (q : Quad) (s : State) : NoFault (execPteNotPresent q s) := by
  unfold execPteNotPresent
  split <;> exact noFault_next _

theorem execPte4K_noFault (q : Quad) (s : State) : NoFault (execPte4K q s) := by
  unfold execPte4K
  split
  · exact use4K_unstuck.finish _
  · exact noFault_next _

theorem privileged_noFault {act : State → Host.Outcome State Fault Refusal} (h : NoFault (act s)) :
    NoFault (privileged s act) := by
  unfold privileged
  split
  · exact h
  · exact noFault_next _

theorem finishMove_noFault (old new : State) (reload : Bool) : NoFault (finishMove old new reload) :=
  fun _ => finishMove_ne_fault

theorem movToCR0_noFault (v : Word) (s : State) : NoFault (movToCR0 v s) := by
  unfold movToCR0
  split
  · exact noFault_next _
  · exact finishMove_noFault _ _ _

theorem movToCR4_noFault (v : Word) (s : State) : NoFault (movToCR4 v s) := by
  unfold movToCR4
  split
  · exact noFault_next _
  · exact finishMove_noFault _ _ _

theorem switchLoad_noFault (s : State) : NoFault (switchLoad s) := by
  unfold switchLoad
  split
  · exact noFault_next _
  · exact noFault_refused _
  · exact noFault_refused _

theorem execTaskSwitchCR3_noFault (v : Word) (s : State) : NoFault (execTaskSwitchCR3 v s) := by
  unfold execTaskSwitchCR3
  dsimp only
  split
  · exact noFault_next _
  split
  · exact switchLoad_noFault _
  split
  · exact switchLoad_noFault _
  · exact noFault_next _

theorem storeEfer_noFault (v : Quad) (s : State) : NoFault (storeEfer v s) := by
  unfold storeEfer
  split
  · exact noFault_refused _
  · exact noFault_next _

/-- Only the accesses through translation read PDPTE registers, and they find them loaded. -/
theorem exec_noFault (hs : Inv s) (i : Instr) : NoFault (exec i s) := by
  cases i with
  | pdpteNotPresent e => exact execPdpteNotPresent_noFault e s
  | pdpte e => exact execPdpte_noFault e s
  | pdeNotPresent e => exact execPdeNotPresent_noFault e s
  | pde2M e => exact execPde2M_noFault e s
  | pdePT e => exact execPdePT_noFault e s
  | pteNotPresent e => exact execPteNotPresent_noFault e s
  | pte4K e => exact execPte4K_noFault e s
  | linearAddress4K la => exact noFault_next _
  | linearAddress2M la => exact noFault_next _
  | cr3Pae v => exact noFault_next _
  | movToCR0 src => exact privileged_noFault (movToCR0_noFault _ s)
  | movToCR3 src => exact privileged_noFault (finishMove_noFault _ _ _)
  | movToCR4 src => exact privileged_noFault (movToCR4_noFault _ s)
  | movFromCR0 r => exact privileged_noFault (noFault_next _)
  | movFromCR2 r => exact privileged_noFault (noFault_next _)
  | movFromCR3 r => exact privileged_noFault (noFault_next _)
  | movFromCR4 r => exact privileged_noFault (noFault_next _)
  | loadPDPTEs => exact finishMove_noFault s s true
  | taskSwitchCR3 v => exact execTaskSwitchCR3_noFault v s
  | translate la kind mode => exact (translate_unstuck hs).finish _
  | linRead la n mode => exact (linLoad_unstuck hs).finish _
  | linWrite la n v mode => exact (linStore_unstuck hs).finish _
  | linFetch la n mode => exact (linLoad_unstuck hs).finish _
  | setEFER v => exact privileged_noFault (storeEfer_noFault v s)
  | setAC b => exact noFault_next _

/-! ## Events and walks that do not fault -/

theorem runCode_noFault (hs : Inv s) (bytes : List Byte) : NoFault (runCode bytes s) := by
  unfold runCode
  split
  · exact exec_noFault hs _
  · exact privileged_noFault (noFault_next _)
  · exact noFault_refused _

theorem runAt_noFault (hs : Inv s) (la : Word) : NoFault (runAt la s) := by
  unfold runAt
  split
  · next bytes u h => exact runCode_noFault (hs.of_flagsOnly (linLoad_done_flagsOnly h)) bytes
  · exact noFault_next _
  · next f h => exact absurd h (linLoad_unstuck hs f)
  · exact noFault_refused _

theorem runOperation_noFault (hs : Inv s) (i : Instr) : NoFault (runOperation i s) := by
  unfold runOperation
  split
  · exact exec_noFault hs i
  · exact noFault_refused _

theorem beginWalk_noFault (la : Word) (kind : AccessKind) (mode : AccessMode) (s : State) :
    NoFault (beginWalk la kind mode s) := by
  unfold beginWalk
  split
  · exact noFault_next _
  split
  · exact noFault_refused _
  split
  · exact noFault_refused _
  · exact noFault_next _

theorem agentWrite_noFault (pa : Nat) (bytes : List Byte) (s : State) : NoFault (agentWrite pa bytes s) := by
  unfold agentWrite
  split
  · exact noFault_next _
  · exact noFault_refused _

theorem runEvent_noFault (hs : Inv s) (ev : Event) : NoFault (runEvent ev s) := by
  cases ev with
  | code bytes => exact runCode_noFault hs bytes
  | runAt la => exact runAt_noFault hs la
  | operation i => exact runOperation_noFault hs i
  | beginWalk la kind mode => exact beginWalk_noFault la kind mode s
  | speculate la table => exact noFault_next _
  | agentWrite pa bytes => exact agentWrite_noFault pa bytes s
  | setGpr r v => exact noFault_next _
  | setCpl level => exact noFault_next _

/-- A walk in progress is one that PAE paging makes, and so finds its register loaded. -/
theorem walkStep_noFault (hs : Inv s) {w : Walk} (hw : s.walk = some w) : NoFault (walkStep w s) := by
  obtain ⟨hpae, -⟩ := (walkOk_iff s).mp hs.walking w hw
  unfold walkStep
  split
  · split
    · next h => exact absurd h (select_ne_none_of_loaded (hs.loaded hpae) _)
    · exact exec_noFault hs _
  · split
    · exact noFault_refused _
    · exact exec_noFault hs _
  · split
    · exact noFault_refused _
    · exact exec_noFault hs _

theorem step_noFault (hs : Inv s) : NoFault (step s) := by
  rcases step_cases s with
    ⟨-, hstep⟩ | ⟨-, ⟨-, -, hstep⟩ | ⟨w, hw, -, hstep⟩ | ⟨ev, rest, -, -, hstep⟩⟩ <;> rw [hstep]
  · exact noFault_next s
  · exact noFault_next s
  · exact walkStep_noFault hs hw
  · exact runEvent_noFault (s := { s with events := rest }) hs.of_unread ev

/-! ## Translations under the launch premises (R129) -/

section
variable {p e aE aT q : Quad} {r : Refusal}

theorem use2M_ne_refused : use2M s la kind mode aE e ≠ .refused r := by
  rcases use2M_eq (s := s) (la := la) (kind := kind) (mode := mode) (aE := aE) (e := e) with ⟨tr, h⟩ | ⟨ec, h⟩ <;>
    rw [h] <;> nofun

theorem use4K_ne_refused : use4K s la kind mode aE e aT q ≠ .refused r := by
  rcases use4K_eq (s := s) (la := la) (kind := kind) (mode := mode) (aE := aE) (e := e) (aT := aT) (q := q)
    with ⟨tr, h⟩ | ⟨ec, h⟩ <;> rw [h] <;> nofun

/-- A page-table entry that can be read is not refused (R46). -/
theorem walkTable_ne_refused (hq : readEntry s (pteAddr s.cfg e la) = some q) :
    walkTable s la kind mode aE e ≠ .refused r := by
  cases hqp : entryP q with
  | false => rw [walkTable_notPresent hq hqp]; nofun
  | true => rw [walkTable_present hq hqp]; exact use4K_ne_refused

variable (hram : ∀ a ∈ pathAddresses s la, inRam s.cfg a 8 = true)
include hram

theorem walkDirectory_ne_refused (hp : s.pdpte.select (laPdpteIndex la) = some p) (hpp : entryP p = true) :
    walkDirectory s la kind mode p ≠ .refused r := by
  obtain ⟨e, he⟩ : ∃ e, readEntry s (pdeAddr s.cfg p la) = some e :=
    ⟨_, readEntry_of_inRam (hram _ (pdeAddr_mem_path hp hpp))⟩
  cases hep : entryP e with
  | false => rw [walkDirectory_notPresent he hep]; nofun
  | true =>
    cases hps : entryPS e with
    | true => rw [walkDirectory_pde2M he hep hps]; exact use2M_ne_refused
    | false =>
      cases hr : rsvdPdePT s.cfg s.nxe e with
      | true => rw [walkDirectory_pdePT_reserved he hep hps hr]; nofun
      | false =>
        rw [walkDirectory_pdePT he hep hps hr]
        exact walkTable_ne_refused (readEntry_of_inRam (hram _ (pteAddr_mem_path hp hpp he hep hps hr)))

/-- A walk whose path lies in RAM is not refused. -/
theorem walkRegister_ne_refused : walkRegister s la kind mode ≠ .refused r := by
  rcases hp : s.pdpte.select (laPdpteIndex la) with _ | p
  · rw [walkRegister_unloaded hp]; nofun
  · cases hpp : entryP p with
    | false => rw [walkRegister_notPresent hp hpp]; nofun
    | true => rw [walkRegister_present hp hpp]; exact walkDirectory_ne_refused hram hp hpp

end

theorem translate_of_launchPremises {atLoad : Memory} (hl : LaunchPremises atLoad s) :
    (∃ tr u, linTranslate la kind mode s = .done tr u) ∨ (∃ ec u, linTranslate la kind mode s = .pageFault ec la u) := by
  cases h : linTranslate la kind mode s with
  | done tr u => exact .inl ⟨tr, u, rfl⟩
  | pageFault ec f u =>
    obtain ⟨rfl, -⟩ := translate_eq_pageFault h
    exact .inr ⟨ec, u, rfl⟩
  | stuck f =>
    have hloaded := pdptesLoaded_of_table (t := s) (s := { s with mem := atLoad }) rfl hl.good hl.registers
    obtain ⟨-, -, hp⟩ := translate_eq_stuck h
    exact absurd hp (select_ne_none_of_loaded hloaded _)
  | refused r =>
    rw [translate_paging hl.pae hl.noCet] at h
    exact absurd h (walkRegister_ne_refused (hl.reach la))

/-- Settles O55: every access finds the register it selects loaded, and under R129's premises the entries on its path
in RAM. -/
theorem noUnloadedRegisterIsRead : Obligations.NoUnloadedRegisterIsRead := by
  unfold Obligations.NoUnloadedRegisterIsRead
  refine ⟨fun s hs => step_noFault hs _, fun atLoad s la kind mode hl => ?_⟩
  simp only [exec, execTranslate]
  rcases translate_of_launchPremises (la := la) (kind := kind) (mode := mode) hl with ⟨tr, u, h⟩ | ⟨ec, u, h⟩ <;> rw [h]
  · exact ⟨_, rfl, .inl ⟨tr, rfl⟩⟩
  · exact ⟨_, rfl, .inr ⟨ec, rfl, rfl⟩⟩

end Sys2Proof.Machine
end

section
/-! PROOF. StepRuns: a step executes what its input decodes to: code bytes, fetched bytes, operations, the next entry
of a walk in progress (70_reset_and_hazards.md R136; log 1, 9, 10). -/

namespace Sys2Proof.Machine

open Sys2Proof.Safety

variable {s : State} {i : Instr} {bs : List Byte} {r : Reg} {la : Word} {kind : AccessKind} {mode : AccessMode}

/-! ## Machine code (R75, R76) -/

theorem runCode_of_instr (h : decode .code bs = .ok i []) : runCode bs s = exec i s := by
  simp only [runCode, decodeOne, h]

theorem runCode_of_movToCR2 (h : decode .code bs = .movToCR2 r []) : runCode bs s = execMovToCR2 r s := by
  simp only [runCode, decodeOne, h]

theorem runAt_of_done {s1 : State} (h : linLoad .fetch la 3 s.accessMode s = .done bs s1) :
    runAt la s = runCode bs s1 := by
  simp only [runAt, h]

theorem runOperation_of_wf (h : i.wf = true) : runOperation i s = exec i s := if_pos h

/-! ## The entries of a walk (R41, R74) -/

theorem decodeQuad_leBytes (f : Quad → Instr) (e : Quad) : decodeQuad f (leBytes 8 e.toNat) = .ok (f e) [] := by
  simpa using decodeQuad_leBytes_append [] f e

theorem decodeQuad_readBytes (f : Quad → Instr) (m : Memory) (a : Nat) :
    decodeQuad f (m.readBytes a 8) = .ok (f (m.readQuad a)) [] := by
  have hlen : (m.readBytes a 8).length = 8 := Memory.length_readBytes m a 8
  simp [decodeQuad, Memory.readQuad, hlen, List.take_of_length_le, List.drop_of_length_le]

theorem walkStep_register_of_decode {p : Quad} (hp : s.pdpte.select (laPdpteIndex la) = some p)
    (h : decode .pdpteRegister (leBytes 8 p.toNat) = .ok i []) :
    walkStep ⟨la, kind, mode, .pdptr⟩ s = exec i s := by
  obtain ⟨rfl, -⟩ := Decoded.ok.inj ((decodeQuad_leBytes decodePdpte p).symm.trans h)
  simp only [walkStep, hp]

theorem walkStep_directory_of_decode {a : Quad} (hr : inRam s.cfg a.toNat 8 = true)
    (h : decode .pageDirectory (s.mem.readBytes a.toNat 8) = .ok i []) :
    walkStep ⟨la, kind, mode, .directory a⟩ s = exec i s := by
  obtain ⟨rfl, -⟩ := Decoded.ok.inj ((decodeQuad_readBytes decodePde s.mem a.toNat).symm.trans h)
  simp only [walkStep, readEntry_of_inRam hr]

theorem walkStep_table_of_decode {aE e a : Quad} (hr : inRam s.cfg a.toNat 8 = true)
    (h : decode .pageTable (s.mem.readBytes a.toNat 8) = .ok i []) :
    walkStep ⟨la, kind, mode, .table aE e a⟩ s = exec i s := by
  obtain ⟨rfl, -⟩ := Decoded.ok.inj ((decodeQuad_readBytes decodePte s.mem a.toNat).symm.trans h)
  simp only [walkStep, readEntry_of_inRam hr]

/-! ## The step -/

/-- Settles O50: a step is the event at the head of the queue or the next move of the walk, and each runs what its
bytes decode to. -/
theorem stepRunsDecodedInstruction : Obligations.StepRunsDecodedInstruction := by
  unfold Obligations.StepRunsDecodedInstruction
  refine ⟨fun s => step_of_faulted, fun s i rest hf => ?_⟩
  rw [step_of_not_faulted hf]
  refine ⟨fun bs hw he hd => ?_, fun bs r hw he hd => ?_, fun hw he hi => ?_, fun la bs s1 hw he hl => ?_,
    fun hx => ⟨fun la kind mode p hw hp hd => ?_, fun la kind mode a hw hr hd => ?_,
      fun la kind mode aE e a hw hr hd => ?_⟩,
    fun ev he hx => runStep_of_event he (.inr hx), runStep_of_idle⟩
  · exact (runStep_of_event he (.inl hw)).trans (runCode_of_instr hd)
  · exact (runStep_of_event he (.inl hw)).trans (runCode_of_movToCR2 hd)
  · exact (runStep_of_event he (.inl hw)).trans (runOperation_of_wf hi)
  · have hrun : runStep s = runCode bs s1 := (runStep_of_event he (.inl hw)).trans (runAt_of_done hl)
    exact ⟨fun hd => hrun.trans (runCode_of_instr hd), fun r hd => hrun.trans (runCode_of_movToCR2 hd)⟩
  · exact (runStep_of_walk hw hx).trans (walkStep_register_of_decode hp hd)
  · exact (runStep_of_walk hw hx).trans (walkStep_directory_of_decode hr hd)
  · exact (runStep_of_walk hw hx).trans (walkStep_table_of_decode hr hd)

end Sys2Proof.Machine
end

section
/-! PROOF. WalkRowsOutside: an entry row executed while no walk reads an entry at the row's place (log 10,
30_encoding.md R74, 41_translation.md R90 to R93). The rows in their walk stand in WalkRows. -/

namespace Sys2Proof.Machine

variable {s : State} (e : Quad)

/-! The rows of one place act in the same branch on the walk, so one case split serves them all: the premise excludes
that branch, and the other one answers the state. -/

theorem exec_registerRows_outsideWalk (hw : ∀ la kind mode, s.walk ≠ some ⟨la, kind, mode, .pdptr⟩) :
    exec (.pdpte e) s = .next s ∧ exec (.pdpteNotPresent e) s = .next s := by
  dsimp only [exec, execPdpte, execPdpteNotPresent]
  split
  next la kind mode hs => exact absurd hs (hw la kind mode)
  next => exact ⟨rfl, rfl⟩

theorem exec_directoryRows_outsideWalk (hw : ∀ la kind mode a, s.walk ≠ some ⟨la, kind, mode, .directory a⟩) :
    exec (.pdeNotPresent e) s = .next s ∧ exec (.pde2M e) s = .next s ∧ exec (.pdePT e) s = .next s := by
  dsimp only [exec, execPdeNotPresent, execPde2M, execPdePT]
  split
  next la kind mode a hs => exact absurd hs (hw la kind mode a)
  next => exact ⟨rfl, rfl, rfl⟩

theorem exec_tableRows_outsideWalk (hw : ∀ la kind mode aE p a, s.walk ≠ some ⟨la, kind, mode, .table aE p a⟩) :
    exec (.pteNotPresent e) s = .next s ∧ exec (.pte4K e) s = .next s := by
  dsimp only [exec, execPteNotPresent, execPte4K]
  split
  next la kind mode aE p a hs => exact absurd hs (hw la kind mode aE p a)
  next => exact ⟨rfl, rfl⟩

/-- Settles O37: the rows of each of the three places a walk can stand at, outside their walk. -/
theorem entryRowsOutsideTheirWalk : Obligations.EntryRowsOutsideTheirWalk := by
  unfold Obligations.EntryRowsOutsideTheirWalk
  intro s e
  exact ⟨exec_registerRows_outsideWalk e, exec_directoryRows_outsideWalk e, exec_tableRows_outsideWalk e⟩

end Sys2Proof.Machine
end
